-- ==== Sys2Proof/Word.lean ====
section
/-! DEFINITION. The two word types of the block: every bus datum and ring slot is an unsigned byte (R13, R89), and a
host command word has 32 bits (R110). -/

namespace Sys2Proof

/-- An unsigned 8-bit byte, 0..255 (R13). -/
abbrev Byte := BitVec 8

/-- A 32-bit command word (R110). -/
abbrev Word := BitVec 32

end Sys2Proof
end

