-- ==== Sys2Proof/Syntax.lean ====
section
/-! DEFINITION. The instructions of the block: the 13 host commands of R113 and the 28 micro-operations of R114, one
constructor for each row of the opcode table, with the register tags of R115. -/

namespace Sys2Proof

/-- The named control actions K_* (R115, R178). -/
inductive Action where
  | chresetA | chresetB | fmt | rx8Dis | miscClr | clkBrg | brgLo | brgHi | brgEn | extCtsOnly
  | rstLatch | rxEn | intDisAll | rstTxcrc | intEnAll | mie | txintDis | txintEn | rstExt | rstHius
  deriving DecidableEq, Repr, Inhabited

/-- The register tags, the values of AUX in GET_REG, SET_REG and CTL (R115): three selectors and twenty actions. -/
inductive RegTag where
  | selStatus
  | selPending
  | selMc
  | act (k : Action)
  deriving DecidableEq, Repr, Inhabited

/-- One constructor for each row of the opcode table. `p` is the PORT field (R112), `b`, `v` and `c` are the BYTE or ARG
field, `tag` is the AUX field. LEN of a format-S command is the length of its payload. -/
inductive Instr where
  -- host commands (R113)
  | probe (p : Byte)
  | initInt (p : Byte)
  | initPoll (p : Byte)
  | openPort (p : Byte)
  | closePort (p : Byte)
  | flush (p : Byte)
  | writeInt (p : Byte) (xs : List Byte)
  | writePoll (p : Byte) (xs : List Byte)
  | writePolled (p : Byte) (b : Byte)
  | readPolled (p : Byte)
  | setAttr (p : Byte)
  | fcAssert (p : Byte)
  | fcNegate (p : Byte)
  -- micro-operations (R114)
  | rbInit (p : Byte)
  | rbIsEmpty (p : Byte)
  | rbIsFull (p : Byte)
  | rbEnq (p : Byte) (b : Byte)
  | rbDeq (p : Byte)
  | assertRts (p : Byte)
  | negateRts (p : Byte)
  | assertDtr (p : Byte)
  | negateDtr (p : Byte)
  | mcw (p : Byte) (v : Byte)
  | alloc (p : Byte)
  | channelReset (p : Byte)
  | portInitializer (p : Byte)
  | registerVector (p : Byte)
  | rxPhase (p : Byte)
  | txPhase (p : Byte)
  | extPhase (p : Byte)
  | eoi (p : Byte)
  | process (p : Byte) (bits : Byte)
  | isrEntry (p : Byte)
  | kick (p : Byte)
  | wait (p : Byte)
  | getReg (p : Byte) (tag : RegTag)
  | setReg (p : Byte) (v : Byte) (tag : RegTag)
  | getData (p : Byte)
  | setData (p : Byte) (v : Byte)
  | ctl (p : Byte) (a : Byte) (tag : RegTag)
  | up (p : Byte) (c : Byte)
  deriving DecidableEq, Repr, Inhabited

end Sys2Proof
end

