-- ==== Sys2Proof/WellFormed.lean ====
section
/-! DEFINITION. Which terms of `Instr` the spec's operand rules allow. Every term is executable or stops by name; a
well-formed one is one the spec gives an encoding and an operand meaning to. -/

namespace Sys2Proof

/-- K_BRG_LO and K_BRG_HI, the only actions that use the argument byte (R177). -/
def Action.usesArg : Action → Bool
  | .brgLo | .brgHi => true
  | .chresetA | .chresetB | .fmt | .rx8Dis | .miscClr | .clkBrg | .brgEn | .extCtsOnly | .rstLatch | .rxEn | .intDisAll
  | .rstTxcrc | .intEnAll | .mie | .txintDis | .txintEn | .rstExt | .rstHius => false

/-- The tags a register read may name: SEL_STATUS and SEL_PENDING (R61, R180: no read of the modem-control register). -/
def RegTag.readable : RegTag → Bool
  | .selStatus | .selPending => true
  | .selMc | .act _ => false

/-- The tag and argument a CTL word may carry: an action, and ARG = 0 but for the divisor halves (R114, R177). -/
def RegTag.controls (a : Byte) : RegTag → Bool
  | .act k => k.usesArg || a == 0
  | .selStatus | .selPending | .selMc => false

/-- The operand checks: a payload length fits LEN's 16 bits (R112); a pending set is a non-zero 3-bit set (R246); a
register read names a readable selector; a control action names an action. -/
def Instr.wf : Instr → Bool
  | .writeInt _ xs | .writePoll _ xs => decide (xs.length < 65536)
  | .process _ bits => bits != 0 && decide (bits.toNat < 8)
  | .getReg _ tag => tag.readable
  | .ctl _ a tag => tag.controls a
  | .probe _ | .initInt _ | .initPoll _ | .openPort _ | .closePort _ | .flush _ | .writePolled _ _ | .readPolled _
  | .setAttr _ | .fcAssert _ | .fcNegate _ | .rbInit _ | .rbIsEmpty _ | .rbIsFull _ | .rbEnq _ _ | .rbDeq _
  | .assertRts _ | .negateRts _ | .assertDtr _ | .negateDtr _ | .mcw _ _ | .alloc _ | .channelReset _
  | .portInitializer _ | .registerVector _ | .rxPhase _ | .txPhase _ | .extPhase _ | .eoi _ | .isrEntry _ | .kick _
  | .wait _ | .setReg _ _ _ | .getData _ | .setData _ _ | .up _ _ => true

end Sys2Proof
end

