-- ==== Sys2Proof/Decode.lean ====
section
/-! DEFINITION. The decoder and the encoder of the command and micro-operation words (R110 to R115), over byte strings in
stream order (R86). `decode` reads every row of the opcode table; which of them the host may issue is R116's check, made by
the machine. -/

namespace Sys2Proof

/-- Why a byte string is no instruction. -/
inductive DecodeError where
  /-- fewer bytes than the word, or than LEN says the payload has (R111) -/
  | truncated
  /-- OP names no row of R113 or R114 -/
  | illegalOp (op : Byte)
  /-- a field that must be zero is not (R110, R114) -/
  | reservedField (op : Byte)
  /-- AUX is none of the register tags of R115 -/
  | unnamedTag (aux : Byte)
  deriving DecidableEq, Repr

/-- The tag code of an action (R115). -/
def Action.code : Action → Byte
  | .chresetA => 0x10
  | .chresetB => 0x11
  | .fmt => 0x12
  | .rx8Dis => 0x13
  | .miscClr => 0x14
  | .clkBrg => 0x15
  | .brgLo => 0x16
  | .brgHi => 0x17
  | .brgEn => 0x18
  | .extCtsOnly => 0x19
  | .rstLatch => 0x1A
  | .rxEn => 0x1B
  | .intDisAll => 0x1C
  | .rstTxcrc => 0x1D
  | .intEnAll => 0x1E
  | .mie => 0x1F
  | .txintDis => 0x20
  | .txintEn => 0x21
  | .rstExt => 0x22
  | .rstHius => 0x23

/-- The code of a register tag (R115). -/
def RegTag.code : RegTag → Byte
  | .selStatus => 0x00
  | .selPending => 0x01
  | .selMc => 0x02
  | .act k => k.code

/-- The register tag of an AUX byte; 0x03–0x0F and 0x24–0xFF name nothing (R115). -/
def RegTag.ofCode (c : Byte) : Option RegTag :=
  match c.toNat with
  | 0x00 => some .selStatus
  | 0x01 => some .selPending
  | 0x02 => some .selMc
  | 0x10 => some (.act .chresetA)
  | 0x11 => some (.act .chresetB)
  | 0x12 => some (.act .fmt)
  | 0x13 => some (.act .rx8Dis)
  | 0x14 => some (.act .miscClr)
  | 0x15 => some (.act .clkBrg)
  | 0x16 => some (.act .brgLo)
  | 0x17 => some (.act .brgHi)
  | 0x18 => some (.act .brgEn)
  | 0x19 => some (.act .extCtsOnly)
  | 0x1A => some (.act .rstLatch)
  | 0x1B => some (.act .rxEn)
  | 0x1C => some (.act .intDisAll)
  | 0x1D => some (.act .rstTxcrc)
  | 0x1E => some (.act .intEnAll)
  | 0x1F => some (.act .mie)
  | 0x20 => some (.act .txintDis)
  | 0x21 => some (.act .txintEn)
  | 0x22 => some (.act .rstExt)
  | 0x23 => some (.act .rstHius)
  | _ => none

/-- The OP byte of an instruction (R113, R114). It is also the name events and fault records give an operation (log 13). -/
def Instr.op : Instr → Byte
  | .probe _ => 0x01
  | .initInt _ => 0x02
  | .initPoll _ => 0x03
  | .openPort _ => 0x04
  | .closePort _ => 0x05
  | .flush _ => 0x06
  | .writeInt _ _ => 0x07
  | .writePoll _ _ => 0x08
  | .writePolled _ _ => 0x09
  | .readPolled _ => 0x0A
  | .setAttr _ => 0x0B
  | .fcAssert _ => 0x0C
  | .fcNegate _ => 0x0D
  | .rbInit _ => 0x80
  | .rbIsEmpty _ => 0x81
  | .rbIsFull _ => 0x82
  | .rbEnq _ _ => 0x83
  | .rbDeq _ => 0x84
  | .assertRts _ => 0x88
  | .negateRts _ => 0x89
  | .assertDtr _ => 0x8A
  | .negateDtr _ => 0x8B
  | .mcw _ _ => 0x8C
  | .alloc _ => 0x90
  | .channelReset _ => 0x91
  | .portInitializer _ => 0x92
  | .registerVector _ => 0x93
  | .rxPhase _ => 0x98
  | .txPhase _ => 0x99
  | .extPhase _ => 0x9A
  | .eoi _ => 0x9B
  | .process _ _ => 0x9C
  | .isrEntry _ => 0x9D
  | .kick _ => 0x9E
  | .wait _ => 0x9F
  | .getReg _ _ => 0xA0
  | .setReg _ _ _ => 0xA1
  | .getData _ => 0xA2
  | .setData _ _ => 0xA3
  | .ctl _ _ _ => 0xA4
  | .up _ _ => 0xA8

/-- A word whose bits 31:16 must be zero: format P, and format M with neither ARG nor AUX. -/
def decodeBare (op b2 b3 : Byte) (i : Instr) : Except DecodeError Instr :=
  if b2 = 0 ∧ b3 = 0 then .ok i else .error (.reservedField op)

/-- A word with a byte operand in bits 23:16 and zero in 31:24: format B, and format M with ARG alone. -/
def decodeByte (op b3 : Byte) (i : Instr) : Except DecodeError Instr :=
  if b3 = 0 then .ok i else .error (.reservedField op)

/-- A word whose AUX is a register tag (R115). -/
def decodeTagged (b3 : Byte) (i : RegTag → Instr) : Except DecodeError Instr :=
  match RegTag.ofCode b3 with
  | some t => .ok (i t)
  | none => .error (.unnamedTag b3)

/-- LEN of a format-S word, its bits 31:16 (R110). -/
def lenField (b2 b3 : Byte) : Nat := b2.toNat + 256 * b3.toNat

/-- The payload of a format-S command and the bytes after it (R111). -/
def decodeStream (b2 b3 : Byte) (rest : List Byte) (i : List Byte → Instr) : Except DecodeError (Instr × List Byte) :=
  let n := lenField b2 b3
  if n ≤ rest.length then .ok (i (rest.take n), rest.drop n) else .error .truncated

/-- The rows without a payload, by OP (R113, R114). -/
def decodeFixed (op p b2 b3 : Byte) : Except DecodeError Instr :=
  match op.toNat with
  | 0x01 => decodeBare op b2 b3 (.probe p)
  | 0x02 => decodeBare op b2 b3 (.initInt p)
  | 0x03 => decodeBare op b2 b3 (.initPoll p)
  | 0x04 => decodeBare op b2 b3 (.openPort p)
  | 0x05 => decodeBare op b2 b3 (.closePort p)
  | 0x06 => decodeBare op b2 b3 (.flush p)
  | 0x09 => decodeByte op b3 (.writePolled p b2)
  | 0x0A => decodeBare op b2 b3 (.readPolled p)
  | 0x0B => decodeBare op b2 b3 (.setAttr p)
  | 0x0C => decodeBare op b2 b3 (.fcAssert p)
  | 0x0D => decodeBare op b2 b3 (.fcNegate p)
  | 0x80 => decodeBare op b2 b3 (.rbInit p)
  | 0x81 => decodeBare op b2 b3 (.rbIsEmpty p)
  | 0x82 => decodeBare op b2 b3 (.rbIsFull p)
  | 0x83 => decodeByte op b3 (.rbEnq p b2)
  | 0x84 => decodeBare op b2 b3 (.rbDeq p)
  | 0x88 => decodeBare op b2 b3 (.assertRts p)
  | 0x89 => decodeBare op b2 b3 (.negateRts p)
  | 0x8A => decodeBare op b2 b3 (.assertDtr p)
  | 0x8B => decodeBare op b2 b3 (.negateDtr p)
  | 0x8C => decodeByte op b3 (.mcw p b2)
  | 0x90 => decodeBare op b2 b3 (.alloc p)
  | 0x91 => decodeBare op b2 b3 (.channelReset p)
  | 0x92 => decodeBare op b2 b3 (.portInitializer p)
  | 0x93 => decodeBare op b2 b3 (.registerVector p)
  | 0x98 => decodeBare op b2 b3 (.rxPhase p)
  | 0x99 => decodeBare op b2 b3 (.txPhase p)
  | 0x9A => decodeBare op b2 b3 (.extPhase p)
  | 0x9B => decodeBare op b2 b3 (.eoi p)
  | 0x9C => decodeByte op b3 (.process p b2)
  | 0x9D => decodeBare op b2 b3 (.isrEntry p)
  | 0x9E => decodeBare op b2 b3 (.kick p)
  | 0x9F => decodeBare op b2 b3 (.wait p)
  | 0xA0 => if b2 = 0 then decodeTagged b3 (.getReg p) else .error (.reservedField op)
  | 0xA1 => decodeTagged b3 (.setReg p b2)
  | 0xA2 => decodeBare op b2 b3 (.getData p)
  | 0xA3 => decodeByte op b3 (.setData p b2)
  | 0xA4 => decodeTagged b3 (.ctl p b2)
  | 0xA8 => decodeByte op b3 (.up p b2)
  | _ => .error (.illegalOp op)

/-- One instruction from the front of a byte stream, and the bytes after it (R86, R110, R111). Total on any bytes. -/
def decode : List Byte → Except DecodeError (Instr × List Byte)
  | op :: p :: b2 :: b3 :: rest =>
    match op.toNat with
    | 0x07 => decodeStream b2 b3 rest (.writeInt p)
    | 0x08 => decodeStream b2 b3 rest (.writePoll p)
    | _ =>
      match decodeFixed op p b2 b3 with
      | .ok i => .ok (i, rest)
      | .error e => .error e
  | _ => .error .truncated

/-- The bytes of the two halves of LEN (R110, R86). -/
def lenBytes (n : Nat) : List Byte := [BitVec.ofNat 8 n, BitVec.ofNat 8 (n / 256)]

/-- The words of an instruction in stream order, written from the formats of R110 and the tables of R113 to R115. -/
def encode (i : Instr) : List Byte :=
  match i with
  | .probe p | .initInt p | .initPoll p | .openPort p | .closePort p | .flush p | .readPolled p | .setAttr p
  | .fcAssert p | .fcNegate p | .rbInit p | .rbIsEmpty p | .rbIsFull p | .rbDeq p | .assertRts p | .negateRts p
  | .assertDtr p | .negateDtr p | .alloc p | .channelReset p | .portInitializer p | .registerVector p | .rxPhase p
  | .txPhase p | .extPhase p | .eoi p | .isrEntry p | .kick p | .wait p | .getData p => [i.op, p, 0, 0]
  | .writePolled p b | .rbEnq p b | .mcw p b | .process p b | .setData p b | .up p b => [i.op, p, b, 0]
  | .writeInt p xs | .writePoll p xs => i.op :: p :: (lenBytes xs.length ++ xs)
  | .getReg p t => [i.op, p, 0, t.code]
  | .setReg p v t | .ctl p v t => [i.op, p, v, t.code]

/-- The four bytes of a command word in stream order (R86). -/
def wordBytes (w : Word) : List Byte :=
  [w.extractLsb' 0 8, w.extractLsb' 8 8, w.extractLsb' 16 8, w.extractLsb' 24 8]

/-- The command word of four stream bytes (R86). -/
def bytesWord (b0 b1 b2 b3 : Byte) : Word := b3 ++ b2 ++ b1 ++ b0

/-- Bits 31:16 of a command word: LEN in format S (R110). -/
def wordLen (w : Word) : Nat := (w.extractLsb' 16 16).toNat

/-- Bits 15:8 of a command word: PORT (R110, R112). -/
def wordPort (w : Word) : Nat := (w.extractLsb' 8 8).toNat

/-- Bits 7:0 of a command word: OP (R110). -/
def wordOp (w : Word) : Byte := w.extractLsb' 0 8

/-- Whether OP has format S, so that LEN payload bytes follow (R111). -/
def hasPayload (op : Byte) : Bool := op == 0x07 || op == 0x08

/-- The table word of `nbits` bits with value `w`, every bit above them zero (the payload too). -/
def tableWord (nbits w : Nat) : Word := BitVec.ofNat 32 (w % 2 ^ nbits)

/-- The payload of zeros a format-S table word is followed by; no other format has one (R111). -/
def zeroPayload (w : Word) : List Byte := if hasPayload (wordOp w) then List.replicate (wordLen w) 0 else []

/-- The instruction the decoder reads from a table word, its payload bytes zero. -/
def decodeTableWord (nbits w : Nat) : Option Instr :=
  let v := tableWord nbits w
  match decode (wordBytes v ++ zeroPayload v) with
  | .ok r => some r.1
  | .error _ => none

end Sys2Proof
end

