-- ==== Sys2Proof/Config.lean ====
section
/-! DEFINITION. What a launch fixes before block reset: the implementation parameters of R11, the port configurations of
R31 and the host programs of R49. Also the free values: what the environment answers where a run's script says nothing. -/

namespace Sys2Proof

/-- A bus address: opaque, only equality is used (R81, D40). DESIGN CHOICE: named by a number, log 2. -/
structure Addr where
  id : Nat
  deriving DecidableEq, Repr, Inhabited

/-- An interrupt vector identifier: opaque, only equality is used (R11, D40). DESIGN CHOICE: named by a number, log 2. -/
structure Vec where
  id : Nat
  deriving DecidableEq, Repr, Inhabited

/-- A register selector value: opaque (R81, D8). DESIGN CHOICE: named by a number, log 2. -/
structure Sel where
  id : Nat
  deriving DecidableEq, Repr, Inhabited

/-- The flow-control strategy (R31, R220). -/
inductive Strategy where
  | none | rtscts | dtrcts
  deriving DecidableEq, Repr, Inhabited

/-- The operation table a port is bound to (R31). -/
inductive Mode where
  | interrupt | polled
  deriving DecidableEq, Repr, Inhabited

/-- `cfg[p]`, the immutable configuration of one port (R31). -/
structure PortCfg where
  ctrlPrimary : Addr
  ctrlOwn     : Addr
  dataAddr    : Addr
  vector      : Vec
  clockHz     : Nat
  baud        : Nat
  strategy    : Strategy
  mode        : Mode
  deriving DecidableEq, Repr, Inhabited

/-- One host command as it arrives on the host interface: a command word and the payload bytes after it (R84, R110). -/
structure Command where
  word    : Word
  payload : List Byte
  deriving DecidableEq, Repr, Inhabited

/-- One entry of CHIP_MAP (R178): the selector, the value an action that ignores its argument writes, and where the value
function of a divisor half differs from the identity (log 3). -/
structure ChipEntry where
  sel  : Sel
  val  : Byte
  diff : List (Byte × Byte)
  deriving DecidableEq, Repr, Inhabited

/-- The implementation parameters (R11). CHAN_A, CHAN_B and BAUD_DIV are functions: each is held as the list of arguments
at which it differs from the spec's default, so that State stays plain data (log 3). NPORTS is the number of ports. -/
structure Params where
  rbCap      : Nat
  selStatus  : Sel
  selPending : Sel
  selMc      : Sel
  chip       : Vector ChipEntry 20
  pTbe       : Byte
  pRca       : Byte
  pCts       : Byte
  chanAOver  : List (Byte × BitVec 3)
  chanBOver  : List (Byte × BitVec 3)
  baudOver   : List ((Nat × Nat) × Option (BitVec 16))
  mcRts      : Byte
  mcDtr      : Byte
  mcTxen     : Byte
  mcTx8      : Byte
  deriving DecidableEq, Repr

/-- What the launch fixes (R346): the parameters, and for each port its configuration and its program. -/
structure Launch where
  par   : Params
  ports : List (PortCfg × List Command)
  deriving DecidableEq, Repr

/-- ENV's choice at a step boundary (R17, R20, R320, R51): which TASK steps, which vector is offered, whether `sys_up`
rises, or nothing. -/
inductive Choice where
  | idle
  | task (p : Nat)
  | irq (v : Vec)
  | sysUp
  deriving DecidableEq, Repr, Inhabited

/-- FREE VALUE: ENV's answer to the n-th bus read of a run, where no script gives it (R10, R19, I9; log 4). -/
opaque Config.envByte : Nat → Byte

/-- FREE VALUE: whether the n-th allocation of a run succeeds, where no script says it (R200, I7; log 4). -/
opaque Config.envAlloc : Nat → Bool

/-- FREE VALUE: ENV's n-th scheduling choice of a run, where no script gives it (R20, R325, I12, I13, I14; log 5). -/
opaque Config.envChoice : Nat → Choice

/-- The parameters of R11 at the spec's defaults, with C = 4 as in the spec's vectors. The opaque selectors and values,
for which the spec gives none, are numbered freely. DESIGN CHOICE: log 1. -/
def Params.default : Params where
  rbCap      := 4
  selStatus  := ⟨0⟩
  selPending := ⟨1⟩
  selMc      := ⟨2⟩
  chip       := Vector.replicate 20 ⟨⟨3⟩, 0, []⟩
  pTbe       := 0x04
  pRca       := 0x01
  pCts       := 0x20
  chanAOver  := []
  chanBOver  := []
  baudOver   := []
  mcRts      := 0x02
  mcDtr      := 0x80
  mcTxen     := 0x08
  mcTx8      := 0x60

/-- The port of the spec's Program 1 (95_test_vectors.md §4): channel A, NONE, INTERRUPT, 3 686 400 Hz, 9600 baud. -/
def PortCfg.default : PortCfg where
  ctrlPrimary := ⟨0⟩
  ctrlOwn     := ⟨0⟩
  dataAddr    := ⟨1⟩
  vector      := ⟨5⟩
  clockHz     := 3686400
  baud        := 9600
  strategy    := .none
  mode        := .interrupt

/-- The launch `State.reset` stands for: one port and no program. DESIGN CHOICE: log 1, log 21. -/
def Launch.default : Launch where
  par   := .default
  ports := [(.default, [])]

end Sys2Proof
end

