-- ==== Sys2Proof/Machine/State.lean ====
section
/-! DEFINITION. Everything the block holds (10_state.md): the per-port records, the global state, the parameters the launch
gave it, and the model's own fields for the environment's answers. Plain data throughout. -/

namespace Sys2Proof.Machine

open Sys2Proof

/-- How far a port has got through initialization (R37). -/
inductive Life where
  | uninit | initializing | ready | failed
  deriving DecidableEq, Repr, Inhabited

/-- The value of `ie.ext_src` when it is not ⊥ (R44). -/
inductive ExtSrc where
  | ctsOnly
  deriving DecidableEq, Repr, Inhabited

/-- The interrupt-enable image (R44); `none` is ⊥. -/
structure IeImage where
  rx     : Option Bool
  tx     : Option Bool
  ext    : Option Bool
  mie    : Option Bool
  extSrc : Option ExtSrc
  deriving DecidableEq, Repr, Inhabited

/-- The transmit Ring Buffer (R43); a `none` slot is ⊥. -/
structure Ring where
  buf   : List (Option Byte)
  head  : Nat
  tail  : Nat
  count : Nat
  deriving DecidableEq, Repr, Inhabited

/-- A command's result (R45): an integer, or ERR_NOMEM. NONE is the integer −1. -/
inductive Res where
  | int (i : Int)
  | errNomem
  deriving DecidableEq, Repr, Inhabited

/-- The `result` of a micro-operation, as the next statement of the calling pseudocode reads it (log 9). -/
inductive MicroResult where
  /-- no result -/
  | empty
  /-- of RB_IS_EMPTY, RB_IS_FULL, ALLOC -/
  | bool (b : Bool)
  /-- of GET_REG, GET_DATA -/
  | byte (v : Byte)
  /-- of RB_ENQ -/
  | ok
  | overflow
  /-- of RB_DEQ -/
  | deq (b : Byte)
  | underflow
  /-- of KICK -/
  | kicked
  | busy
  deriving DecidableEq, Repr, Inhabited

/-- One statement of the pseudocode of a command or of the interrupt activation. A position of the micro-PC (R48, R53) is
the list of the statements from it on (log 6). -/
inductive Stmt where
  /-- the position `start` of R49: the command's own checks -/
  | start
  /-- a micro-operation -/
  | op (i : Instr)
  /-- R206, R207: `if not ALLOC(p) then return ERR_NOMEM` -/
  | allocTest
  /-- R195 step 6: the divisor, and its two halves -/
  | baud
  /-- R206, R207: `atomic { RB_INIT(p); tx_active <- false; life <- READY }` -/
  | initReady
  /-- `return r` (R14) -/
  | ret (r : Res)
  /-- R280: `if e then exit loop`, else wait and test again -/
  | flushTest
  /-- R283: the head of the loop at byte k -/
  | writeByte (k : Nat)
  /-- R283: `if not full then exit loop`, else KICK -/
  | fullTest (k : Nat)
  /-- R283: `if KICK(p) = BUSY then wait(p)`, then test again -/
  | kickTest (k : Nat)
  /-- R283: `atomic { r <- RB_ENQ(p, x[k]); if r = OVERFLOW then raise F_OVERFLOW }` -/
  | enqueue (k : Nat)
  /-- R285: POLLED_PUT of byte k -/
  | pollByte (k : Nat)
  /-- R287: `if TBE(s) then exit loop`, else wait and read again; then the data write of b -/
  | putTest (b : Byte)
  /-- R289: `if RCA(s)` read the data register, else return NONE -/
  | readTest
  /-- R289: `return c` -/
  | retByte
  /-- R252: `for a in A_list`, and the return when the list is done -/
  | isrNext
  /-- R253: what one read of the pending register leads to -/
  | serviceTest (a : Nat)
  deriving DecidableEq, Repr, Inhabited

/-- The task micro-PC (R48). -/
inductive TaskPc where
  | idle
  | inCmd (cmd : Instr) (pos : List Stmt)
  deriving DecidableEq, Repr, Inhabited

/-- The record of one port: its configuration (R31) and program (R49), its runtime fields (R36), and the latch of the last
micro-operation's result (log 9). -/
structure Port where
  cfg      : PortCfg
  prog     : List Command
  life     : Life
  mc       : Option Byte
  txActive : Option Bool
  rb       : Option Ring
  ie       : IeImage
  upq      : List Byte
  res      : Option Res
  tpc      : TaskPc
  hpc      : Nat
  lat      : MicroResult
  deriving DecidableEq, Repr, Inhabited

/-- Which context owns the processor (R52). -/
inductive Cpu where
  | task | isr
  deriving DecidableEq, Repr, Inhabited

/-- The ISR micro-PC (R53). -/
structure IsrPc where
  v     : Vec
  aList : List Nat
  i     : Nat
  stage : List Stmt
  deriving DecidableEq, Repr, Inhabited

/-- The fault codes 0x01 to 0x0C, in the order of R301. -/
inductive FaultCode where
  | illegalOp | reserved | badPort | portUninit | portFailed | alreadyInit | mode | noStrategy
  | undefRead | overflow | underflow | baud
  deriving DecidableEq, Repr, Inhabited

/-- The fault record (R54): code, port, and operation by its OP byte (log 13). -/
structure FaultRec where
  code : FaultCode
  p    : Nat
  op   : Byte
  deriving DecidableEq, Repr, Inhabited

/-- The events of the trace (R61). The tag of a register write is its register tag: `.selMc` is what the spec spells MCW,
`.act k` the name of the control action. -/
inductive Event where
  | rdReg (addr : Addr) (sel : Sel) (v : Byte)
  | wrReg (addr : Addr) (sel : Sel) (v : Byte) (tag : RegTag)
  | rdData (addr : Addr) (v : Byte)
  | wrData (addr : Addr) (v : Byte)
  | up (p : Nat) (v : Byte)
  | yield (p : Nat)
  | spin (p : Nat)
  | alloc (p : Nat) (ok : Bool)
  | vreg (v : Vec)
  | irq (v : Vec)
  | iend (v : Vec)
  | ret (p : Nat) (op : Byte) (r : Res)
  | fault (code : FaultCode) (p : Nat) (op : Byte)
  deriving DecidableEq, Repr, Inhabited

/-- The environment's side of a run, the model's own (log 4): scripted answers, oldest first, and how many of each kind
have been drawn. Where a script is empty the free values of Config answer. -/
structure Env where
  bytes   : List Byte
  allocs  : List Bool
  sched   : List Choice
  nBytes  : Nat
  nAllocs : Nat
  nSched  : Nat
  deriving DecidableEq, Repr, Inhabited

/-- The whole machine: parameters (R11), ports (R36), global state (R50 to R54, R60), and the model's own fields `cur`
(log 22), `isrLat` (log 9), `pbits` (log 11), `offer` (log 12) and `env` (log 4). -/
structure State where
  par    : Params
  ports  : List Port
  vreg   : List Vec
  sysUp  : Bool
  cpu    : Cpu
  ipc    : Option IsrPc
  fault  : Option FaultRec
  trace  : List Event
  cur    : Nat
  isrLat : MicroResult
  pbits  : BitVec 3
  offer  : Option Vec
  env    : Env
  deriving DecidableEq, Repr

/-- Why the machine stops. -/
inductive Fault where
  /-- Raised by `step` in a state whose fault record is set: no agent is enabled any more (R300). Safe: the machine has
  halted, and the record and the trace were written by the step that raised. -/
  | halted (f : FaultRec)
  deriving DecidableEq, Repr

/-- Why an instruction or a command has no meaning here. -/
inductive Refusal where
  /-- Raised by an arm of `exec` that is not modelled; no arm is. Safe. -/
  | notModelled (mnemonic : String)
  /-- Raised by a micro-operation whose port is not configured: R112 makes the handle invalid, and no rule says what the
  micro-operation does then (log 15). Safe. -/
  | portNotConfigured
  /-- Raised by GET_REG on a tag that names no readable selector (R61, R180; log 16). Safe. -/
  | notReadable
  /-- Raised by CTL on a tag that names a selector and no action (R115, R177; log 16). Safe. -/
  | notAnAction
  /-- Raised by `step` on a program command that names another port: WF7 (R12) refuses the configuration (log 19). Safe. -/
  | foreignPort
  /-- Raised by `step` on a program command whose payload is not LEN bytes (R111): no launch holds it (log 19). Safe. -/
  | malformedCommand
  /-- Raised by `step` at a micro-PC position that is in no pseudocode of the agent (log 20). Safe. -/
  | brokenMicroPc
  deriving DecidableEq, Repr

/-- The runtime fields of a port after block reset (R65). -/
def Port.reset (c : PortCfg × List Command) : Port where
  cfg      := c.1
  prog     := c.2
  life     := .uninit
  mc       := none
  txActive := none
  rb       := none
  ie       := ⟨none, none, none, none, none⟩
  upq      := []
  res      := none
  tpc      := .idle
  hpc      := 0
  lat      := .empty

/-- No scripted answer and nothing drawn yet (log 4). -/
def Env.reset : Env := ⟨[], [], [], 0, 0, 0⟩

/-- The state after block reset under a launch (R65, R340). -/
def resetOf (l : Launch) : State where
  par    := l.par
  ports  := l.ports.map Port.reset
  vreg   := []
  sysUp  := false
  cpu    := .task
  ipc    := none
  fault  := none
  trace  := []
  cur    := 0
  isrLat := .empty
  pbits  := 0
  offer  := none
  env    := .reset

/-- The machine right after block reset, under the default launch (R65; log 1). -/
def State.reset : State := resetOf Launch.default

/-- NPORTS (R11): the number of configured ports. -/
def State.nports (s : State) : Nat := s.ports.length

/-- The record of port p; of a port that is not configured, an unused one no meaning reads. -/
def State.port (s : State) (p : Nat) : Port := s.ports.getD p default

/-- Replace the record of port p. -/
def State.setPort (s : State) (p : Nat) (q : Port) : State := { s with ports := s.ports.set p q }

end Sys2Proof.Machine
end

