-- ==== Sys2Proof/Machine/Operands.lean ====
section
/-! DEFINITION. Operand forms: the port handle and payload of an instruction (R112), the location a register tag stands for
(R175 to R178), the value an action writes (R178), the baud divisor (R196), and the well-formed launches (R12). -/

namespace Sys2Proof

/-- The PORT field (R112). -/
def Instr.port : Instr → Byte
  | .probe p | .initInt p | .initPoll p | .openPort p | .closePort p | .flush p | .writeInt p _ | .writePoll p _
  | .writePolled p _ | .readPolled p | .setAttr p | .fcAssert p | .fcNegate p | .rbInit p | .rbIsEmpty p | .rbIsFull p
  | .rbEnq p _ | .rbDeq p | .assertRts p | .negateRts p | .assertDtr p | .negateDtr p | .mcw p _ | .alloc p
  | .channelReset p | .portInitializer p | .registerVector p | .rxPhase p | .txPhase p | .extPhase p | .eoi p
  | .process p _ | .isrEntry p | .kick p | .wait p | .getReg p _ | .setReg p _ _ | .getData p | .setData p _
  | .ctl p _ _ | .up p _ => p

/-- The payload of a format-S command; the empty one of any other instruction (R112). -/
def Instr.payload : Instr → List Byte
  | .writeInt _ xs | .writePoll _ xs => xs
  | .probe _ | .initInt _ | .initPoll _ | .openPort _ | .closePort _ | .flush _ | .writePolled _ _ | .readPolled _
  | .setAttr _ | .fcAssert _ | .fcNegate _ | .rbInit _ | .rbIsEmpty _ | .rbIsFull _ | .rbEnq _ _ | .rbDeq _
  | .assertRts _ | .negateRts _ | .assertDtr _ | .negateDtr _ | .mcw _ _ | .alloc _ | .channelReset _
  | .portInitializer _ | .registerVector _ | .rxPhase _ | .txPhase _ | .extPhase _ | .eoi _ | .process _ _ | .isrEntry _
  | .kick _ | .wait _ | .getReg _ _ | .setReg _ _ _ | .getData _ | .setData _ _ | .ctl _ _ _ | .up _ _ => []

/-- A channel-A port (R32): its two control addresses are equal. -/
def PortCfg.isChannelA (c : PortCfg) : Bool := c.ctrlPrimary == c.ctrlOwn

/-- `out_int_driven(p)`, the capability flag (R35). -/
def PortCfg.outIntDriven (c : PortCfg) : Bool := c.mode == .interrupt

/-- The place of an action in CHIP_MAP, in the order of R178. -/
def Action.idx : Action → Fin 20
  | .chresetA => 0
  | .chresetB => 1
  | .fmt => 2
  | .rx8Dis => 3
  | .miscClr => 4
  | .clkBrg => 5
  | .brgLo => 6
  | .brgHi => 7
  | .brgEn => 8
  | .extCtsOnly => 9
  | .rstLatch => 10
  | .rxEn => 11
  | .intDisAll => 12
  | .rstTxcrc => 13
  | .intEnAll => 14
  | .mie => 15
  | .txintDis => 16
  | .txintEn => 17
  | .rstExt => 18
  | .rstHius => 19

/-- The address an action is written to: PRIMARY for K_MIE, OWN for every other (R178). -/
def Action.addr (c : PortCfg) : Action → Addr
  | .mie => c.ctrlPrimary
  | .chresetA | .chresetB | .fmt | .rx8Dis | .miscClr | .clkBrg | .brgLo | .brgHi | .brgEn | .extCtsOnly | .rstLatch
  | .rxEn | .intDisAll | .rstTxcrc | .intEnAll | .txintDis | .txintEn | .rstExt | .rstHius => c.ctrlOwn

/-- The selector CHIP_MAP gives an action (R178). -/
def Params.chipSel (par : Params) (k : Action) : Sel := (par.chip.get k.idx).sel

/-- The value function of an action (R178): a divisor half is the identity but where the launch says otherwise; every
other action ignores its argument. -/
def Params.chipVal (par : Params) (k : Action) (a : Byte) : Byte :=
  if k.usesArg then ((par.chip.get k.idx).diff.lookup a).getD a else (par.chip.get k.idx).val

/-- The address a register tag is accessed at: the pending register at the primary address, status and modem control at the
port's own (R175, R176, R181), an action where R178 says. -/
def RegTag.addr (c : PortCfg) : RegTag → Addr
  | .selPending => c.ctrlPrimary
  | .selStatus | .selMc => c.ctrlOwn
  | .act k => k.addr c

/-- The selector a register tag stands for (R115, R178). -/
def Params.tagSel (par : Params) : RegTag → Sel
  | .selStatus => par.selStatus
  | .selPending => par.selPending
  | .selMc => par.selMc
  | .act k => par.chipSel k

/-- The default divisor function (R196): `floor(c / (32 b)) − 2`, undefined at b = 0 and outside 0..65535. -/
def baudDivDefault (c b : Nat) : Option (BitVec 16) :=
  let q := c / (32 * b)
  if b = 0 then none else if q < 2 then none else if 65535 < q - 2 then none else some (BitVec.ofNat 16 (q - 2))

/-- `BAUD_DIV(c, b)` (R196): the default but where the launch says otherwise; `none` is undefined. -/
def Params.baudDiv (par : Params) (c b : Nat) : Option (BitVec 16) :=
  (par.baudOver.lookup (c, b)).getD (baudDivDefault c b)

/-- Exactly one bit of a byte is set. -/
def singleBit (m : Byte) : Bool := m != 0 && m &&& (m - 1) == 0

/-- WF1 to WF3 (R12). WF4 holds by the types of CHAN_A and CHAN_B. -/
def Params.wf (par : Params) : Bool :=
  decide (1 ≤ par.rbCap)
    && singleBit par.mcRts && singleBit par.mcDtr && singleBit par.mcTxen
    && par.mcRts != par.mcDtr && par.mcRts != par.mcTxen && par.mcDtr != par.mcTxen
    && par.mcRts &&& par.mcTx8 == 0 && par.mcDtr &&& par.mcTx8 == 0 && par.mcTxen &&& par.mcTx8 == 0
    && par.pTbe != 0 && par.pRca != 0 && par.pCts != 0

/-- WF5 and WF6 (R12), of two different ports: no two channel-B ports share a primary address, and two interrupt-mode ports
that share one have the same vector. -/
def PortCfg.compatible (a b : PortCfg) : Bool :=
  a.ctrlPrimary != b.ctrlPrimary
    || ((a.isChannelA || b.isChannelA) && (a.mode != .interrupt || b.mode != .interrupt || a.vector == b.vector))

/-- A command the host interface can carry: LEN payload bytes in format S and none in any other (R110, R111). -/
def Command.wf (c : Command) : Bool :=
  if hasPayload (wordOp c.word) then c.payload.length == wordLen c.word else c.payload.isEmpty

/-- WF7 (R12) for the program of port p: a word's PORT field is p, or it is no configured port. -/
def progWf (n p : Nat) (prog : List Command) : Bool :=
  prog.all fun c => c.wf && (decide (n ≤ wordPort c.word) || wordPort c.word == p)

/-- WF7 of every port, counting from p. -/
def progsWf (n : Nat) : Nat → List (PortCfg × List Command) → Bool
  | _, [] => true
  | p, c :: cs => progWf n p c.2 && progsWf n (p + 1) cs

/-- WF5 and WF6 of every pair of ports. -/
def cfgsWf : List (PortCfg × List Command) → Bool
  | [] => true
  | c :: cs => (cs.all fun d => c.1.compatible d.1) && cfgsWf cs

/-- The well-formed launches (R11, R12): 1 ≤ NPORTS ≤ 256 and WF1 to WF7. -/
def Launch.wf (l : Launch) : Bool :=
  decide (1 ≤ l.ports.length ∧ l.ports.length ≤ 256) && l.par.wf && cfgsWf l.ports && progsWf l.ports.length 0 l.ports

/-- The initial state of a launch; an ill-formed one has none (R12, R340). -/
def Launch.boot (l : Launch) : Option Machine.State := if l.wf then some (Machine.resetOf l) else none

end Sys2Proof
end

