-- ==== Sys2Proof/Machine/Assembler.lean ====
section
/-! DEFINITION. The spec's assembly language (R120) and its pseudo-instructions (R121), as terms: what each line's text is
called, which host command it stands for under the port's mode, and the command word and payload it assembles to. -/

namespace Sys2Proof

/-- One line of assembly. The port is written pN; the last five forms are the pseudo-instructions. -/
inductive Asm where
  | probe (n : Byte)
  | initInt (n : Byte)
  | initPoll (n : Byte)
  | openPort (n : Byte)
  | closePort (n : Byte)
  | flush (n : Byte)
  | writeInt (n : Byte) (xs : List Byte)
  | writePoll (n : Byte) (xs : List Byte)
  | putc (n : Byte) (b : Byte)
  | getc (n : Byte)
  | setattr (n : Byte)
  | fcAssert (n : Byte)
  | fcNegate (n : Byte)
  | init (n : Byte)
  | write (n : Byte) (xs : List Byte)
  | read (n : Byte)
  | lastclose (n : Byte)
  | writePolled (n : Byte) (b : Byte)
  deriving DecidableEq, Repr

/-- The mnemonic a line begins with (R120, R121). -/
def Asm.mnemonic : Asm → String
  | .probe _ => "probe"
  | .initInt _ => "init.int"
  | .initPoll _ => "init.poll"
  | .openPort _ => "open"
  | .closePort _ => "close"
  | .flush _ => "flush"
  | .writeInt _ _ => "write.int"
  | .writePoll _ _ => "write.poll"
  | .putc _ _ => "putc"
  | .getc _ => "getc"
  | .setattr _ => "setattr"
  | .fcAssert _ => "fc.assert"
  | .fcNegate _ => "fc.negate"
  | .init _ => "init"
  | .write _ _ => "write"
  | .read _ => "read"
  | .lastclose _ => "lastclose"
  | .writePolled _ _ => "write_polled"

/-- The host command a line stands for; `mode n` is `cfg[n].mode` (R121). -/
def Asm.expand (mode : Byte → Mode) : Asm → Instr
  | .probe n => .probe n
  | .initInt n => .initInt n
  | .initPoll n => .initPoll n
  | .openPort n => .openPort n
  | .closePort n => .closePort n
  | .flush n => .flush n
  | .writeInt n xs => .writeInt n xs
  | .writePoll n xs => .writePoll n xs
  | .putc n b => .writePolled n b
  | .getc n => .readPolled n
  | .setattr n => .setAttr n
  | .fcAssert n => .fcAssert n
  | .fcNegate n => .fcNegate n
  | .init n =>
    match mode n with
    | .interrupt => .initInt n
    | .polled => .initPoll n
  | .write n xs =>
    match mode n with
    | .interrupt => .writeInt n xs
    | .polled => .writePoll n xs
  | .read n => .readPolled n
  | .lastclose n => .flush n
  | .writePolled n b => .writePolled n b

/-- The command word and payload of an instruction's bytes (R86, R110). -/
def Command.ofBytes : List Byte → Command
  | b0 :: b1 :: b2 :: b3 :: rest => ⟨bytesWord b0 b1 b2 b3, rest⟩
  | _ => default

/-- The bytes a command is carried as (R86). -/
def Command.bytes (c : Command) : List Byte := wordBytes c.word ++ c.payload

/-- What a line assembles to (R120). -/
def Asm.assemble (mode : Byte → Mode) (a : Asm) : Command := Command.ofBytes (encode (a.expand mode))

end Sys2Proof
end

