-- ==== Sys2Proof/Machine/Flags.lean ====
section
/-! DEFINITION. The block has no condition codes (R16). Its only status flags are the named predicates of a status byte and
the channel-local pending sets (R47, R176), each a function of a byte the bus has just returned and of the parameters. -/

namespace Sys2Proof

/-- `TBE(s)`: transmit-buffer-empty (R47). -/
def Params.tbe (par : Params) (s : Byte) : Bool := s &&& par.pTbe != 0

/-- `RCA(s)`: receive-character-available (R47). -/
def Params.rca (par : Params) (s : Byte) : Bool := s &&& par.pRca != 0

/-- `CTS(s)`: CTS-asserted (R47). -/
def Params.cts (par : Params) (s : Byte) : Bool := s &&& par.pCts != 0

/-- `CHAN_A(P)`, the channel-A pending set (R176): the default `(P >> 3) & 7` but where the launch says otherwise. -/
def Params.chanA (par : Params) (p : Byte) : BitVec 3 := (par.chanAOver.lookup p).getD (p.extractLsb' 3 3)

/-- `CHAN_B(P)`, the channel-B pending set (R176): the default `P & 7` but where the launch says otherwise. -/
def Params.chanB (par : Params) (p : Byte) : BitVec 3 := (par.chanBOver.lookup p).getD (p.extractLsb' 0 3)

/-- Bit EXT of a pending set, bit 0 (R47). -/
def pendExt (bits : BitVec 3) : Bool := bits.getLsbD 0

/-- Bit TX of a pending set, bit 1 (R47). It selects nothing (R246). -/
def pendTx (bits : BitVec 3) : Bool := bits.getLsbD 1

/-- Bit RX of a pending set, bit 2 (R47). -/
def pendRx (bits : BitVec 3) : Bool := bits.getLsbD 2

end Sys2Proof
end

