-- ==== Sys2Proof/Machine/Ops.lean ====
section
/-! DEFINITION. The shared operations: the trace, taking a fault, the environment's draws, the register bus and what is
derived from it, the micro-PCs, the checks of a host command and its return, and the entry to and the return from an
interrupt activation. -/

namespace Sys2Proof.Machine

open Sys2Proof

/-! ### The trace and taking a fault -/

/-- Append an event (R60). -/
def emit (e : Event) (s : State) : State := { s with trace := s.trace ++ [e] }

/-- `raise F(info)` (R300): the FAULT event, and the fault record. Everything done before stays; that no agent is enabled
afterwards is `step`'s. -/
def raise (c : FaultCode) (p : Nat) (op : Byte) (s : State) : State :=
  { s with trace := s.trace ++ [.fault c p op], fault := some ⟨c, p, op⟩ }

/-- The numbers of R301. -/
def FaultCode.code : FaultCode → Byte
  | .illegalOp => 0x01
  | .reserved => 0x02
  | .badPort => 0x03
  | .portUninit => 0x04
  | .portFailed => 0x05
  | .alreadyInit => 0x06
  | .mode => 0x07
  | .noStrategy => 0x08
  | .undefRead => 0x09
  | .overflow => 0x0A
  | .underflow => 0x0B
  | .baud => 0x0C

/-- A piece of pseudocode that may raise: the state it leaves, and its value unless it raised. -/
structure Flow (α : Type) where
  out : Option α
  st  : State

/-- A value without a fault. -/
def Flow.pure {α : Type} (a : α) (s : State) : Flow α := ⟨some a, s⟩

/-- The pseudocode after a `raise` never happens (R300). -/
def Flow.andThen {α β : Type} (f : Flow α) (k : α → State → Flow β) : Flow β :=
  match f.out with
  | some a => k a f.st
  | none => ⟨none, f.st⟩

/-- A `raise` inside pseudocode. -/
def Flow.raise {α : Type} (c : FaultCode) (p : Nat) (op : Byte) (s : State) : Flow α := ⟨none, Machine.raise c p op s⟩

/-! ### The environment's draws (R10, R19; log 4) -/

/-- ENV's answer to the next bus read: the script's, else the free value of this draw. -/
def nextByte (s : State) : Byte :=
  match s.env.bytes with
  | b :: _ => b
  | [] => Config.envByte s.env.nBytes

/-- The answer is used up. -/
def takeByte (s : State) : State :=
  { s with env := { s.env with bytes := s.env.bytes.tail, nBytes := s.env.nBytes + 1 } }

/-- ENV's answer to the next allocation: the script's, else the free value of this draw. -/
def nextAlloc (s : State) : Bool :=
  match s.env.allocs with
  | b :: _ => b
  | [] => Config.envAlloc s.env.nAllocs

/-- The answer is used up. -/
def takeAlloc (s : State) : State :=
  { s with env := { s.env with allocs := s.env.allocs.tail, nAllocs := s.env.nAllocs + 1 } }

/-- ENV's next scheduling choice: the script's, else the free value of this choice. -/
def nextChoice (s : State) : Choice :=
  match s.env.sched with
  | c :: _ => c
  | [] => Config.envChoice s.env.nSched

/-- The choice is used up. -/
def takeChoice (s : State) : State :=
  { s with env := { s.env with sched := s.env.sched.tail, nSched := s.env.nSched + 1 } }

/-! ### The register bus (R170 to R173) -/

/-- `BusRdReg(addr, sel)` (R170): the state after it; its value is `nextByte`. -/
def busRdReg (addr : Addr) (sel : Sel) (s : State) : State := emit (.rdReg addr sel (nextByte s)) (takeByte s)

/-- `BusWrReg(addr, sel, v)` (R171), recorded with the tag that made it. -/
def busWrReg (addr : Addr) (sel : Sel) (v : Byte) (tag : RegTag) (s : State) : State := emit (.wrReg addr sel v tag) s

/-- `BusRdData(addr)` (R172): the state after it; its value is `nextByte`. -/
def busRdData (addr : Addr) (s : State) : State := emit (.rdData addr (nextByte s)) (takeByte s)

/-- `BusWrData(addr, v)` (R173). -/
def busWrData (addr : Addr) (v : Byte) (s : State) : State := emit (.wrData addr v) s

/-- `ReadStatus(p)` (R175): the state after it; the status byte is `nextByte`. -/
def readStatus (p : Nat) (s : State) : State := busRdReg (s.port p).cfg.ctrlOwn s.par.selStatus s

/-- The read of port p's data register: the state after it. -/
def readData (p : Nat) (s : State) : State := busRdData (s.port p).cfg.dataAddr s

/-- The write of port p's data register. -/
def writeData (p : Nat) (v : Byte) (s : State) : State := busWrData (s.port p).cfg.dataAddr v s

/-- The effect of a control action on the interrupt-enable image (R179). -/
def IeImage.apply (k : Action) (ie : IeImage) : IeImage :=
  match k with
  | .chresetA | .chresetB => ⟨none, none, none, none, none⟩
  | .extCtsOnly => { ie with extSrc := some .ctsOnly }
  | .intDisAll => { ie with rx := some false, tx := some false, ext := some false }
  | .intEnAll => { ie with rx := some true, tx := some true, ext := some true }
  | .mie => { ie with mie := some true }
  | .txintDis => { ie with tx := some false }
  | .txintEn => { ie with tx := some true }
  | .fmt | .rx8Dis | .miscClr | .clkBrg | .brgLo | .brgHi | .brgEn | .rstLatch | .rxEn | .rstTxcrc | .rstExt | .rstHius =>
    ie

/-- `Ctl(p, K, a)` (R177): one register write, and the image effect. -/
def ctlOp (p : Nat) (k : Action) (a : Byte) (s : State) : State :=
  let q := s.port p
  (busWrReg (k.addr q.cfg) (s.par.chipSel k) (s.par.chipVal k a) (.act k) s).setPort p { q with ie := q.ie.apply k }

/-- `MCW(p, v)` (R181): the shadow byte and the register together. -/
def mcwOp (p : Nat) (v : Byte) (s : State) : State :=
  let q := s.port p
  busWrReg q.cfg.ctrlOwn s.par.selMc v .selMc (s.setPort p { q with mc := some v })

/-! ### Small updates of a port -/

/-- `port[p].tx_active <- b`. -/
def setTxActive (p : Nat) (b : Bool) (s : State) : State := s.setPort p { s.port p with txActive := some b }

/-- `port[p].rb <- r`. -/
def setRb (p : Nat) (r : Ring) (s : State) : State := s.setPort p { s.port p with rb := some r }

/-- `port[p].life <- l`. -/
def setLife (p : Nat) (l : Life) (s : State) : State := s.setPort p { s.port p with life := l }

/-- `port[p].tpc <- t`. -/
def setTpc (p : Nat) (t : TaskPc) (s : State) : State := s.setPort p { s.port p with tpc := t }

/-- Where a micro-operation leaves its result: the ISR's latch in interrupt context, else TASK(p)'s (log 9). -/
def setLat (p : Nat) (r : MicroResult) (s : State) : State :=
  match s.cpu with
  | .isr => { s with isrLat := r }
  | .task => s.setPort p { s.port p with lat := r }

/-- Leave the result of a piece of pseudocode, if it did not raise. -/
def Flow.toLat {α : Type} (p : Nat) (g : α → MicroResult) (f : Flow α) : State :=
  match f.out with
  | some a => setLat p (g a) f.st
  | none => f.st

/-! ### The micro-PCs -/

/-- Enter the pseudocode of a composite micro-operation `i`: its statements come before the rest of the running agent's
position (log 6). An idle TASK takes `i` as the command in flight (log 25). -/
def pushStmts (i : Instr) (p : Nat) (l : List Stmt) (s : State) : State :=
  match s.cpu with
  | .isr => { s with ipc := s.ipc.map fun c => { c with stage := l ++ c.stage } }
  | .task =>
    match (s.port p).tpc with
    | .idle => setTpc p (.inCmd i l) s
    | .inCmd c pos => setTpc p (.inCmd c (l ++ pos)) s

/-! ### The checks of a host command -/

/-- R116 checks 1 and 2: the fault of a word whose OP is not a host command's, or with a reserved field that is not zero. -/
def hostWordFault (w : Word) : Option FaultCode :=
  let op := (wordOp w).toNat
  if op = 0 ∨ 0x0D < op then some .illegalOp
  else if op = 0x07 ∨ op = 0x08 then none
  else if op = 0x09 then (if w.extractLsb' 24 8 = 0 then none else some .reserved)
  else if w.extractLsb' 16 16 = 0 then none else some .reserved

/-- The life check (R310). -/
def lifeFault (q : Port) : Option FaultCode :=
  match q.life with
  | .failed => some .portFailed
  | .uninit | .initializing => some .portUninit
  | .ready => none

/-- The mode check (R297). -/
def modeFault (m : Mode) (q : Port) : Option FaultCode := if q.cfg.mode = m then none else some .mode

/-- The strategy check (R228, R229, R308). -/
def strategyFault (q : Port) : Option FaultCode := if q.cfg.strategy = .none then some .noStrategy else none

/-- The checks of INIT_INT and INIT_POLL (R205). -/
def initFault (m : Mode) (q : Port) : Option FaultCode :=
  match q.life with
  | .failed => some .portFailed
  | .initializing | .ready => some .alreadyInit
  | .uninit => modeFault m q

/-- The first failing check of a list of two (R270, R311). -/
def firstFault (a b : Option FaultCode) : Option FaultCode :=
  match a with
  | some c => some c
  | none => b

/-- A host command on a configured port: F_BAD_PORT on any other, with the issuing TASK's port (R116, R302). -/
def onHost (p : Byte) (op : Byte) (s : State) (f : State) : Host.Outcome State Fault Refusal :=
  if p.toNat < s.nports then .next f else .next (raise .badPort s.cur op s)

/-- A micro-operation on a configured port (R112; log 15). That one run outside the commands and activations that use it runs its
own rule's pseudocode there too is the model's choice (DESIGN CHOICE, log 35). -/
def onPort (p : Byte) (s : State) (f : State) : Host.Outcome State Fault Refusal :=
  if p.toNat < s.nports then .next f else .refused .portNotConfigured

/-- Begin a host command: the first failing check raises (R270); else the command is at the first statement of its
pseudocode. -/
def beginCmd (i : Instr) (p : Nat) (chk : Option FaultCode) (body : List Stmt) (s : State) : State :=
  match chk with
  | some c => raise c p i.op s
  | none => setTpc p (.inCmd i body) s

/-- `return r` (R14, R48): the result, the micro-PC back to IDLE, the RET event. -/
def returnOp (p : Nat) (op : Byte) (r : Res) (s : State) : State :=
  emit (.ret p op r) (s.setPort p { s.port p with res := some r, tpc := .idle })

/-! ### Block reset (R340) -/

/-- The launch a state carries (R346). -/
def State.launch (s : State) : Launch := ⟨s.par, s.ports.map fun q => (q.cfg, q.prog)⟩

/-- Block reset of a running machine (R340): every field at its reset value, the launch kept. It comes from outside the
block; no step makes it. -/
def State.blockReset (s : State) : State := resetOf s.launch

/-! ### Entering and leaving an interrupt activation -/

/-- `A_list` of R252: the READY interrupt-mode channel-A ports on vector v, ascending. -/
def aListOf (v : Vec) (s : State) : List Nat :=
  (List.range s.nports).filter fun a =>
    let q := s.port a
    q.cfg.vector == v && q.cfg.isChannelA && q.cfg.mode == .interrupt && q.life == .ready

/-- `partnerB(a)` (R33): the lowest-numbered READY interrupt-mode channel-B port on a's chip. -/
def partnerB (a : Nat) (s : State) : Option Nat :=
  (List.range s.nports).find? fun b =>
    let q := s.port b
    q.cfg.ctrlPrimary == (s.port a).cfg.ctrlOwn && !q.cfg.isChannelA && q.cfg.mode == .interrupt && q.life == .ready

/-- ISR entry (R252, R326): the context, the micro-PC's initial position and IRQ(v). Nothing is saved. -/
def enterIsr (v : Vec) (s : State) : State :=
  { s with cpu := .isr, ipc := some ⟨v, aListOf v s, 0, [.isrNext]⟩, trace := s.trace ++ [.irq v] }

/-- The return from the activation (R252, R327): IEND(v), and the context back to TASK. Nothing is restored. -/
def leaveIsr (v : Vec) (s : State) : State :=
  { s with cpu := .task, ipc := none, trace := s.trace ++ [.iend v] }

end Sys2Proof.Machine
end

