-- ==== Sys2Proof/Machine/FlowControl.lean ====
section
/-! DEFINITION. The flow-control arbiter (43_flow_control.md): the four line micro-operations, the strategy conditions, and
the host commands FC_ASSERT and FC_NEGATE. -/

namespace Sys2Proof.Machine

open Sys2Proof

/-! ### Lines -/

/-- The read-modify-write of the shadow byte (R221 to R224): ⊥ raises under the micro-operation's name. -/
def lineOp (p : Nat) (op : Byte) (f : Byte → Byte) (s : State) : Flow Unit :=
  match (s.port p).mc with
  | none => .raise .undefRead p op s
  | some m => .pure () (mcwOp p (f m) s)

/-- ASSERT_RTS (R221). -/
def assertRtsOp (p : Nat) (s : State) : Flow Unit :=
  lineOp p (Instr.assertRts 0).op (fun m => m ||| s.par.mcRts) s

/-- NEGATE_RTS (R222). -/
def negateRtsOp (p : Nat) (s : State) : Flow Unit :=
  lineOp p (Instr.negateRts 0).op (fun m => m &&& ~~~s.par.mcRts) s

/-- ASSERT_DTR (R223). -/
def assertDtrOp (p : Nat) (s : State) : Flow Unit :=
  lineOp p (Instr.assertDtr 0).op (fun m => m ||| s.par.mcDtr) s

/-- NEGATE_DTR (R224). -/
def negateDtrOp (p : Nat) (s : State) : Flow Unit :=
  lineOp p (Instr.negateDtr 0).op (fun m => m &&& ~~~s.par.mcDtr) s

/-- ASSERT_RTS (R221). -/
def execAssertRts (p : Byte) (s : State) : Host.Outcome State Fault Refusal :=
  onPort p s (assertRtsOp p.toNat s).st

/-- NEGATE_RTS (R222). -/
def execNegateRts (p : Byte) (s : State) : Host.Outcome State Fault Refusal :=
  onPort p s (negateRtsOp p.toNat s).st

/-- ASSERT_DTR (R223). -/
def execAssertDtr (p : Byte) (s : State) : Host.Outcome State Fault Refusal :=
  onPort p s (assertDtrOp p.toNat s).st

/-- NEGATE_DTR (R224). -/
def execNegateDtr (p : Byte) (s : State) : Host.Outcome State Fault Refusal :=
  onPort p s (negateDtrOp p.toNat s).st

/-! ### The arbiter -/

/-- `NegRTS_cond(p)` (R225): the engine negates RTS only when RTS/CTS does not own it. -/
def negRtsCond (p : Nat) (s : State) : Flow Unit :=
  if (s.port p).cfg.strategy = .rtscts then .pure () s else negateRtsOp p s

/-- `DtrCond(p)` (R227). -/
def dtrCond (c : PortCfg) : Bool := c.strategy != .dtrcts

/-! ### The strategy callbacks -/

/-- The micro-operation a strategy binds to assert-local-ready (R228); NONE binds none. -/
def assertCallback (p : Byte) : Strategy → List Stmt
  | .rtscts => [.op (.assertRts p)]
  | .dtrcts => [.op (.assertDtr p)]
  | .none => []

/-- The micro-operation a strategy binds to negate-local-ready (R229); NONE binds none. -/
def negateCallback (p : Byte) : Strategy → List Stmt
  | .rtscts => [.op (.negateRts p)]
  | .dtrcts => [.op (.negateDtr p)]
  | .none => []

/-- FC_ASSERT (R228): the checks, then the strategy's callback and `return 0`. -/
def execFcAssert (p : Byte) (s : State) : Host.Outcome State Fault Refusal :=
  let q := s.port p.toNat
  onHost p (Instr.fcAssert p).op s
    (beginCmd (.fcAssert p) p.toNat (firstFault (lifeFault q) (strategyFault q))
      (assertCallback p q.cfg.strategy ++ [.ret (.int 0)]) s)

/-- FC_NEGATE (R229): the checks, then the strategy's callback and `return 0`. -/
def execFcNegate (p : Byte) (s : State) : Host.Outcome State Fault Refusal :=
  let q := s.port p.toNat
  onHost p (Instr.fcNegate p).op s
    (beginCmd (.fcNegate p) p.toNat (firstFault (lifeFault q) (strategyFault q))
      (negateCallback p q.cfg.strategy ++ [.ret (.int 0)]) s)

end Sys2Proof.Machine
end

