-- ==== Sys2Proof/Machine/Lifecycle.lean ====
section
/-! DEFINITION. The lifecycle and I/O host commands and the wait primitive (45_lifecycle_io.md). A command's meaning makes
its checks (R270) and puts the port at the first statement of its pseudocode; each further statement is a TASK step of its
own (R20, R48), run by Machine/Sequencer.lean. PROBE has no check but the decoding's, so its meaning is its `return`. -/

namespace Sys2Proof.Machine

open Sys2Proof

/-- PROBE (R271): the decode checks only; 1 in every life state. -/
def execProbe (p : Byte) (s : State) : Host.Outcome State Fault Refusal :=
  onHost p (Instr.probe p).op s (returnOp p.toNat (Instr.probe p).op (.int 1) s)

/-- OPEN (R272). -/
def execOpen (p : Byte) (s : State) : Host.Outcome State Fault Refusal :=
  let q := s.port p.toNat
  onHost p (Instr.openPort p).op s
    (beginCmd (.openPort p) p.toNat (lifeFault q)
      ((if dtrCond q.cfg then [.op (.assertDtr p)] else []) ++ [.ret (.int 0)]) s)

/-- The statements of CLOSE after its checks (R273); FLUSH ends with them too (R280). -/
def closeBody (c : PortCfg) (p : Byte) : List Stmt :=
  (if dtrCond c then [.op (.negateDtr p)] else []) ++ [.ret (.int 0)]

/-- CLOSE (R273). -/
def execClose (p : Byte) (s : State) : Host.Outcome State Fault Refusal :=
  let q := s.port p.toNat
  onHost p (Instr.closePort p).op s (beginCmd (.closePort p) p.toNat (lifeFault q) (closeBody q.cfg p) s)

/-- FLUSH (R280): test, wait and test again; then the close. -/
def execFlush (p : Byte) (s : State) : Host.Outcome State Fault Refusal :=
  let q := s.port p.toNat
  onHost p (Instr.flush p).op s
    (beginCmd (.flush p) p.toNat (lifeFault q) ([.op (.rbIsEmpty p), .flushTest] ++ closeBody q.cfg p) s)

/-- WRITE_INT (R283): the loop over the payload from byte 0. -/
def execWriteInt (p : Byte) (xs : List Byte) (s : State) : Host.Outcome State Fault Refusal :=
  let q := s.port p.toNat
  onHost p (Instr.writeInt p xs).op s
    (beginCmd (.writeInt p xs) p.toNat (firstFault (lifeFault q) (modeFault .interrupt q)) [.writeByte 0] s)

/-- WRITE_POLL (R285): the loop over the payload from byte 0. -/
def execWritePoll (p : Byte) (xs : List Byte) (s : State) : Host.Outcome State Fault Refusal :=
  let q := s.port p.toNat
  onHost p (Instr.writePoll p xs).op s
    (beginCmd (.writePoll p xs) p.toNat (firstFault (lifeFault q) (modeFault .polled q)) [.pollByte 0] s)

/-- POLLED_PUT(p, b) (R287): the status read and the test of TBE. -/
def polledPut (p b : Byte) : List Stmt := [.op (.getReg p .selStatus), .putTest b]

/-- WRITE_POLLED (R287), in both modes. -/
def execWritePolled (p b : Byte) (s : State) : Host.Outcome State Fault Refusal :=
  onHost p (Instr.writePolled p b).op s
    (beginCmd (.writePolled p b) p.toNat (lifeFault (s.port p.toNat)) (polledPut p b ++ [.ret (.int 0)]) s)

/-- READ_POLLED (R289): one status read, and its test. -/
def execReadPolled (p : Byte) (s : State) : Host.Outcome State Fault Refusal :=
  let q := s.port p.toNat
  onHost p (Instr.readPolled p).op s
    (beginCmd (.readPolled p) p.toNat (firstFault (lifeFault q) (modeFault .polled q))
      [.op (.getReg p .selStatus), .readTest] s)

/-- SET_ATTR (R291): the checks, then `return 0`. -/
def execSetAttr (p : Byte) (s : State) : Host.Outcome State Fault Refusal :=
  onHost p (Instr.setAttr p).op s
    (beginCmd (.setAttr p) p.toNat (lifeFault (s.port p.toNat)) [.ret (.int 0)] s)

/-- WAIT (R296): a yield once multitasking runs, a spin before. -/
def execWait (p : Byte) (s : State) : Host.Outcome State Fault Refusal :=
  onPort p s (emit (if s.sysUp then .yield p.toNat else .spin p.toNat) s)

/-! ### The operation table (R293) -/

/-- The slots of the operation table. -/
inductive Slot where
  | probe | openSlot | closeSlot | read | write | init | writePolled | setAttributes
  deriving DecidableEq, Repr

/-- The OP byte of the host command a slot is bound to in a mode (R293); `read` is absent in interrupt mode. -/
def Slot.bound : Mode → Slot → Option Byte
  | _, .probe => some (Instr.probe 0).op
  | _, .openSlot => some (Instr.openPort 0).op
  | _, .closeSlot => some (Instr.flush 0).op
  | .interrupt, .read => none
  | .polled, .read => some (Instr.readPolled 0).op
  | .interrupt, .write => some (Instr.writeInt 0 []).op
  | .polled, .write => some (Instr.writePoll 0 []).op
  | .interrupt, .init => some (Instr.initInt 0).op
  | .polled, .init => some (Instr.initPoll 0).op
  | _, .writePolled => some (Instr.writePolled 0 0).op
  | _, .setAttributes => some (Instr.setAttr 0).op

end Sys2Proof.Machine
end

