-- ==== Sys2Proof/Machine/PortInit.lean ====
section
/-! DEFINITION. Port initialization (42_port_init.md): ALLOC, CHANNEL_RESET, PORT_INITIALIZER, REGISTER_VECTOR, and the host
commands INIT_INT and INIT_POLL. -/

namespace Sys2Proof.Machine

open Sys2Proof

/-- ALLOC (R200): ENV's draw, the ALLOC event, and the life state it leads to, whatever the port's life was (log 33). -/
def allocOp (p : Nat) (s : State) : State :=
  let ok := nextAlloc s
  setLat p (.bool ok)
    (setLife p (if ok then .initializing else .failed) (emit (.alloc p ok) (takeAlloc s)))

/-- ALLOC (R200). R200's pseudocode has no guard, while R37 and R209 say that no operation moves `life` back: that a lone one on a
port that is not UNINIT still runs it, from READY or FAILED too, is the model's choice (DESIGN CHOICE, log 33). -/
def execAlloc (p : Byte) (s : State) : Host.Outcome State Fault Refusal :=
  onPort p s (allocOp p.toNat s)

/-- A control action without an argument, as a statement. -/
def ctlStmt (p : Byte) (k : Action) : Stmt := .op (.ctl p 0 (.act k))

/-- The statements of CHANNEL_RESET (R191): the settle read, then the reset of the port's channel. -/
def channelResetBody (c : PortCfg) (p : Byte) : List Stmt :=
  [.op (.getReg p .selStatus), ctlStmt p (if c.isChannelA then .chresetA else .chresetB)]

/-- CHANNEL_RESET (R191): its two bus accesses are TASK steps of their own (R190). -/
def execChannelReset (p : Byte) (s : State) : Host.Outcome State Fault Refusal :=
  onPort p s (pushStmts (.channelReset p) p.toNat (channelResetBody (s.port p.toNat).cfg p) s)

/-- The statements of PORT_INITIALIZER (R195), in its order; step 6 is the statement `baud`. -/
def initializerBody (par : Params) (p : Byte) : List Stmt :=
  [.op (.channelReset p),
   ctlStmt p .fmt,
   ctlStmt p .rx8Dis,
   .op (.mcw p par.mcTx8),
   ctlStmt p .miscClr,
   ctlStmt p .clkBrg,
   .baud,
   ctlStmt p .brgEn,
   ctlStmt p .extCtsOnly,
   ctlStmt p .rstLatch,
   ctlStmt p .rxEn,
   .op (.mcw p (par.mcTx8 ||| par.mcTxen)),
   ctlStmt p .intDisAll,
   ctlStmt p .rstTxcrc]

/-- PORT_INITIALIZER (R195): its bus accesses are TASK steps of their own (R190). -/
def execPortInitializer (p : Byte) (s : State) : Host.Outcome State Fault Refusal :=
  onPort p s (pushStmts (.portInitializer p) p.toNat (initializerBody s.par p) s)

/-- The two writes of step 6 (R195, R85): the divisor's low byte, then its high byte. -/
def brgBody (p : Byte) (d : BitVec 16) : List Stmt :=
  [.op (.ctl p (d.extractLsb' 0 8) (.act .brgLo)), .op (.ctl p (d.extractLsb' 8 8) (.act .brgHi))]

/-- REGISTER_VECTOR (R199): the set grows at most, the event is always recorded. -/
def registerVectorOp (p : Nat) (s : State) : State :=
  let v := (s.port p).cfg.vector
  emit (.vreg v) { s with vreg := if v ∈ s.vreg then s.vreg else s.vreg ++ [v] }

/-- REGISTER_VECTOR (R199). R199 gives it a channel-A port; that a lone one on a channel-B port registers that port's vector in
the same way is the model's choice (DESIGN CHOICE, log 30). -/
def execRegisterVector (p : Byte) (s : State) : Host.Outcome State Fault Refusal :=
  onPort p s (registerVectorOp p.toNat s)

/-- The statements of INIT_INT (R206) after a successful allocation. -/
def initIntBody (c : PortCfg) (p : Byte) : List Stmt :=
  [.op (.portInitializer p), .initReady]
    ++ (if c.strategy = .rtscts then [] else [.op (.negateRts p)])
    ++ (if c.isChannelA then [.op (.registerVector p)] else [])
    ++ [ctlStmt p .intEnAll, ctlStmt p .mie, .ret (.int 0)]

/-- INIT_INT (R205, R206). -/
def execInitInt (p : Byte) (s : State) : Host.Outcome State Fault Refusal :=
  let q := s.port p.toNat
  onHost p (Instr.initInt p).op s
    (beginCmd (.initInt p) p.toNat (initFault .interrupt q)
      ([.op (.alloc p), .allocTest] ++ initIntBody q.cfg p) s)

/-- INIT_POLL (R205, R207): no RTS negate, no vector registration, no interrupt enabling. -/
def execInitPoll (p : Byte) (s : State) : Host.Outcome State Fault Refusal :=
  let q := s.port p.toNat
  onHost p (Instr.initPoll p).op s
    (beginCmd (.initPoll p) p.toNat (initFault .polled q)
      [.op (.alloc p), .allocTest, .op (.portInitializer p), .initReady, .ret (.int 0)] s)

end Sys2Proof.Machine
end

