-- ==== Sys2Proof/Machine/RingBuffer.lean ====
section
/-! DEFINITION. The Ring Buffer (40_ring_buffer.md): the five operations on a ring, and the micro-operations RB_INIT,
RB_IS_EMPTY, RB_IS_FULL, RB_ENQ and RB_DEQ. -/

namespace Sys2Proof.Machine

open Sys2Proof

/-! ### The ring itself (R43) -/

/-- An empty ring of capacity C, every slot ⊥ (R150). -/
def Ring.empty (c : Nat) : Ring := ⟨List.replicate c none, 0, 0, 0⟩

/-- `empty ⇔ count = 0` (R43, R151). -/
def Ring.isEmpty (r : Ring) : Bool := r.count == 0

/-- `full ⇔ count = C` (R43, R152). -/
def Ring.isFull (c : Nat) (r : Ring) : Bool := r.count == c

/-- Enqueue (R153); `none` is OVERFLOW. -/
def Ring.enq (c : Nat) (b : Byte) (r : Ring) : Option Ring :=
  if r.count = c then none
  else some ⟨r.buf.set r.tail (some b), r.head, (r.tail + 1) % c, r.count + 1⟩

/-- What a dequeue finds (R154). -/
inductive DeqResult where
  | underflow
  /-- the slot at `head` holds ⊥ (R304); the invariant of R43 excludes it -/
  | undef
  | ok (b : Byte) (r : Ring)
  deriving DecidableEq, Repr

/-- Dequeue (R154): the slot at `head` goes back to ⊥. -/
def Ring.deq (c : Nat) (r : Ring) : DeqResult :=
  if r.count = 0 then .underflow
  else
    match r.buf.getD r.head none with
    | some b => .ok b ⟨r.buf.set r.head none, (r.head + 1) % c, r.tail, r.count - 1⟩
    | none => .undef

/-- The queue a ring stands for, head first: slots `(head + k) mod C`, k < count (R43). -/
def Ring.queue (c : Nat) (r : Ring) : List (Option Byte) :=
  (List.range r.count).map fun k => r.buf.getD ((r.head + k) % c) none

/-- The invariants of R43. -/
def Ring.wf (c : Nat) (r : Ring) : Bool :=
  decide (r.buf.length = c ∧ r.head < c ∧ r.tail < c ∧ r.count ≤ c ∧ r.tail = (r.head + r.count) % c)
    && (r.queue c).all Option.isSome

/-! ### On the port's ring -/

/-- RB_IS_EMPTY (R151). -/
def rbIsEmptyOp (p : Nat) (s : State) : Flow Bool :=
  match (s.port p).rb with
  | none => .raise .undefRead p (Instr.rbIsEmpty 0).op s
  | some r => .pure r.isEmpty s

/-- RB_IS_FULL (R152). -/
def rbIsFullOp (p : Nat) (s : State) : Flow Bool :=
  match (s.port p).rb with
  | none => .raise .undefRead p (Instr.rbIsFull 0).op s
  | some r => .pure (r.isFull s.par.rbCap) s

/-- RB_ENQ (R153): true is OK, false is OVERFLOW. -/
def rbEnqOp (p : Nat) (b : Byte) (s : State) : Flow Bool :=
  match (s.port p).rb with
  | none => .raise .undefRead p (Instr.rbEnq 0 0).op s
  | some r =>
    match r.enq s.par.rbCap b with
    | none => .pure false s
    | some r' => .pure true (setRb p r' s)

/-- RB_DEQ (R154): `none` is UNDERFLOW. A ⊥ slot raises as a read of ⊥ (R304; log 27). -/
def rbDeqOp (p : Nat) (s : State) : Flow (Option Byte) :=
  match (s.port p).rb with
  | none => .raise .undefRead p (Instr.rbDeq 0).op s
  | some r =>
    match r.deq s.par.rbCap with
    | .underflow => .pure none s
    | .undef => .raise .undefRead p (Instr.rbDeq 0).op s
    | .ok b r' => .pure (some b) (setRb p r' s)

/-! ### The micro-operations -/

/-- RB_INIT (R150). -/
def execRbInit (p : Byte) (s : State) : Host.Outcome State Fault Refusal :=
  onPort p s (setRb p.toNat (.empty s.par.rbCap) s)

/-- RB_IS_EMPTY (R151). -/
def execRbIsEmpty (p : Byte) (s : State) : Host.Outcome State Fault Refusal :=
  onPort p s ((rbIsEmptyOp p.toNat s).toLat p.toNat .bool)

/-- RB_IS_FULL (R152). -/
def execRbIsFull (p : Byte) (s : State) : Host.Outcome State Fault Refusal :=
  onPort p s ((rbIsFullOp p.toNat s).toLat p.toNat .bool)

/-- RB_ENQ (R153). -/
def execRbEnq (p b : Byte) (s : State) : Host.Outcome State Fault Refusal :=
  onPort p s ((rbEnqOp p.toNat b s).toLat p.toNat fun ok => if ok then .ok else .overflow)

/-- RB_DEQ (R154). -/
def execRbDeq (p : Byte) (s : State) : Host.Outcome State Fault Refusal :=
  onPort p s ((rbDeqOp p.toNat s).toLat p.toNat fun d =>
    match d with
    | some b => .deq b
    | none => .underflow)

end Sys2Proof.Machine
end

