-- ==== Sys2Proof/Machine/ProcessEngine.lean ====
section
/-! DEFINITION. The interrupt and process engine (44_process_engine.md): RX_PHASE, TX_PHASE, EXT_PHASE, EOI, PROCESS, UP,
ISR_ENTRY and KICK. The pending set PROCESS passes to its phases is the field `pbits` (log 11). -/

namespace Sys2Proof.Machine

open Sys2Proof

/-- UP (R249): one byte to the upstream sequence. -/
def upOp (p : Nat) (c : Byte) (s : State) : State :=
  emit (.up p c) (s.setPort p { s.port p with upq := (s.port p).upq ++ [c] })

/-- UP (R249). -/
def execUp (p c : Byte) (s : State) : Host.Outcome State Fault Refusal :=
  onPort p s (upOp p.toNat c s)

/-- One turn of RX_PHASE's loop (R241): the status read, and with RCA true the data read, the hand-off and the loop again.
Unbounded, so each turn is a step (log 10). -/
def rxTurn (p : Byte) (s : State) : State :=
  let s1 := readStatus p.toNat s
  if s.par.rca (nextByte s) then
    pushStmts (.rxPhase p) p.toNat [.op (.rxPhase p)] (upOp p.toNat (nextByte s1) (readData p.toNat s1))
  else s1

/-- RX_PHASE (R241): with the RX bit clear it makes no bus access. -/
def execRxPhase (p : Byte) (s : State) : Host.Outcome State Fault Refusal :=
  onPort p s (if pendRx s.pbits then rxTurn p s else s)

/-- TX_PHASE (R242): a single pass with one status read. -/
def txPhaseOp (p : Nat) (s : State) : Flow Unit :=
  let v := nextByte s
  let s1 := readStatus p s
  if !s.par.tbe v then .pure () s1
  else if !s.par.cts v then .pure () (ctlOp p .txintDis 0 s1)
  else
    (rbIsEmptyOp p s1).andThen fun e s2 =>
      if e then
        (negRtsCond p (setTxActive p false s2)).andThen fun _ s3 => .pure () (ctlOp p .txintDis 0 s3)
      else
        (rbDeqOp p s2).andThen fun d s3 =>
          match d with
          | none => .raise .underflow p (Instr.txPhase 0).op s3
          | some b => .pure () (ctlOp p .txintEn 0 (writeData p b s3))

/-- TX_PHASE (R242), one step (log 10). -/
def execTxPhase (p : Byte) (s : State) : Host.Outcome State Fault Refusal :=
  onPort p s (txPhaseOp p.toNat s).st

/-- EXT_PHASE (R244): the source is cleared, then the status re-read and discarded. -/
def execExtPhase (p : Byte) (s : State) : Host.Outcome State Fault Refusal :=
  onPort p s (if pendExt s.pbits then readStatus p.toNat (ctlOp p.toNat .rstExt 0 s) else s)

/-- EOI (R245). -/
def execEoi (p : Byte) (s : State) : Host.Outcome State Fault Refusal :=
  onPort p s (ctlOp p.toNat .rstHius 0 s)

/-- PROCESS (R246) with the pending set ARG[2:0]: the four phases in their order (log 17). -/
def execProcess (p bits : Byte) (s : State) : Host.Outcome State Fault Refusal :=
  onPort p s
    (pushStmts (.process p bits) p.toNat [.op (.rxPhase p), .op (.txPhase p), .op (.extPhase p), .op (.eoi p)]
      { s with pbits := bits.extractLsb' 0 3 })

/-- ISR_ENTRY (R252, R320) on the vector ENV offers. Without an enabled offer there is no activation: the offer is dropped.
The PORT field is not used (log 12). -/
def execIsrEntry (_p : Byte) (s : State) : Host.Outcome State Fault Refusal :=
  let s1 : State := { s with offer := none }
  match s.offer with
  | some v => .next (if s.fault = none ∧ s.cpu = .task ∧ v ∈ s.vreg then enterIsr v s1 else s1)
  | none => .next s1

/-- KICK (R256): the test of `tx_active`, the RTS assert and the whole transmit phase in one step. True is KICKED. The
inlined ASSERT_RTS raises under its own name on ⊥ (log 14). -/
def kickOp (p : Nat) (s : State) : Flow Bool :=
  match (s.port p).txActive with
  | none => .raise .undefRead p (Instr.kick 0).op s
  | some true => .pure false s
  | some false =>
    (assertRtsOp p s).andThen fun _ s1 =>
      (txPhaseOp p (setTxActive p true s1)).andThen fun _ s2 => .pure true s2

/-- KICK (R256). R256 gives it an interrupt-mode READY port; that a lone one on any other port runs the same pseudocode is the
model's choice (DESIGN CHOICE, log 31). -/
def execKick (p : Byte) (s : State) : Host.Outcome State Fault Refusal :=
  onPort p s ((kickOp p.toNat s).toLat p.toNat fun k => if k then .kicked else .busy)

end Sys2Proof.Machine
end

