-- ==== Sys2Proof/Machine/RegisterAccess.lean ====
section
/-! DEFINITION. The register bus micro-operations (41_register_access.md): GET_REG, SET_REG, GET_DATA, SET_DATA, CTL, MCW. -/

namespace Sys2Proof.Machine

open Sys2Proof

/-- GET_REG (R170) at the location the tag names (R175, R176). A tag that names no readable selector stops by name: the
modem-control register is write-only (R180) and an action is no register read (R61; log 16). R176 defines the pending read
for a channel-A port only; that a lone one on a channel-B port reads at that port's primary address is the model's choice
(DESIGN CHOICE, log 29). -/
def execGetReg (p : Byte) (tag : RegTag) (s : State) : Host.Outcome State Fault Refusal :=
  if tag.readable then
    onPort p s
      (setLat p.toNat (.byte (nextByte s)) (busRdReg (tag.addr (s.port p.toNat).cfg) (s.par.tagSel tag) s))
  else .refused .notReadable

/-- SET_REG (R171): the bus write alone. It changes no field but the trace, whatever the tag (log 28). R171's address is in no
field of the word; that it is the one the tag has for the port is the model's choice (DESIGN CHOICE, log 32). -/
def execSetReg (p v : Byte) (tag : RegTag) (s : State) : Host.Outcome State Fault Refusal :=
  onPort p s (busWrReg (tag.addr (s.port p.toNat).cfg) (s.par.tagSel tag) v tag s)

/-- GET_DATA (R172). -/
def execGetData (p : Byte) (s : State) : Host.Outcome State Fault Refusal :=
  onPort p s (setLat p.toNat (.byte (nextByte s)) (readData p.toNat s))

/-- SET_DATA (R173). -/
def execSetData (p v : Byte) (s : State) : Host.Outcome State Fault Refusal :=
  onPort p s (writeData p.toNat v s)

/-- CTL (R177): the named control action of the tag. A tag that names a selector names no action (R115; log 16). -/
def execCtl (p a : Byte) (tag : RegTag) (s : State) : Host.Outcome State Fault Refusal :=
  match tag with
  | .act k => onPort p s (ctlOp p.toNat k a s)
  | .selStatus | .selPending | .selMc => .refused .notAnAction

/-- MCW (R181). -/
def execMcw (p v : Byte) (s : State) : Host.Outcome State Fault Refusal :=
  onPort p s (mcwOp p.toNat v s)

end Sys2Proof.Machine
end

