-- ==== Sys2Proof/Machine/Dispatch.lean ====
section
/-! DEFINITION. The meaning of every instruction, one arm for each constructor. -/

namespace Sys2Proof.Machine

open Sys2Proof

def exec (i : Instr) (s : State) : Host.Outcome State Fault Refusal :=
  match i with
  | .probe p => Sys2Proof.Machine.execProbe p s
  | .initInt p => Sys2Proof.Machine.execInitInt p s
  | .initPoll p => Sys2Proof.Machine.execInitPoll p s
  | .openPort p => Sys2Proof.Machine.execOpen p s
  | .closePort p => Sys2Proof.Machine.execClose p s
  | .flush p => Sys2Proof.Machine.execFlush p s
  | .writeInt p xs => Sys2Proof.Machine.execWriteInt p xs s
  | .writePoll p xs => Sys2Proof.Machine.execWritePoll p xs s
  | .writePolled p b => Sys2Proof.Machine.execWritePolled p b s
  | .readPolled p => Sys2Proof.Machine.execReadPolled p s
  | .setAttr p => Sys2Proof.Machine.execSetAttr p s
  | .fcAssert p => Sys2Proof.Machine.execFcAssert p s
  | .fcNegate p => Sys2Proof.Machine.execFcNegate p s
  | .rbInit p => Sys2Proof.Machine.execRbInit p s
  | .rbIsEmpty p => Sys2Proof.Machine.execRbIsEmpty p s
  | .rbIsFull p => Sys2Proof.Machine.execRbIsFull p s
  | .rbEnq p b => Sys2Proof.Machine.execRbEnq p b s
  | .rbDeq p => Sys2Proof.Machine.execRbDeq p s
  | .assertRts p => Sys2Proof.Machine.execAssertRts p s
  | .negateRts p => Sys2Proof.Machine.execNegateRts p s
  | .assertDtr p => Sys2Proof.Machine.execAssertDtr p s
  | .negateDtr p => Sys2Proof.Machine.execNegateDtr p s
  | .mcw p v => Sys2Proof.Machine.execMcw p v s
  | .alloc p => Sys2Proof.Machine.execAlloc p s
  | .channelReset p => Sys2Proof.Machine.execChannelReset p s
  | .portInitializer p => Sys2Proof.Machine.execPortInitializer p s
  | .registerVector p => Sys2Proof.Machine.execRegisterVector p s
  | .rxPhase p => Sys2Proof.Machine.execRxPhase p s
  | .txPhase p => Sys2Proof.Machine.execTxPhase p s
  | .extPhase p => Sys2Proof.Machine.execExtPhase p s
  | .eoi p => Sys2Proof.Machine.execEoi p s
  | .process p bits => Sys2Proof.Machine.execProcess p bits s
  | .isrEntry p => Sys2Proof.Machine.execIsrEntry p s
  | .kick p => Sys2Proof.Machine.execKick p s
  | .wait p => Sys2Proof.Machine.execWait p s
  | .getReg p tag => Sys2Proof.Machine.execGetReg p tag s
  | .setReg p v tag => Sys2Proof.Machine.execSetReg p v tag s
  | .getData p => Sys2Proof.Machine.execGetData p s
  | .setData p v => Sys2Proof.Machine.execSetData p v s
  | .ctl p a tag => Sys2Proof.Machine.execCtl p a tag s
  | .up p c => Sys2Proof.Machine.execUp p c s

end Sys2Proof.Machine
end

