-- ==== Sys2Proof/Machine/Sequencer.lean ====
section
/-! DEFINITION. The agents' sequencing: what one TASK step does at each position of a command's pseudocode (R20, R48), the
decoding of the next command of a port's program (R49, R116), and what one ISR step does inside an activation (R252, R253).
Every micro-operation is run by `exec`. -/

namespace Sys2Proof.Machine

open Sys2Proof

/-- A step that raises leaves the micro-PC of its agent where it was (R300): `tpc` of port p, and `ipc`. -/
def holdPc (p : Nat) (s : State) (r : Host.Outcome State Fault Refusal) : Host.Outcome State Fault Refusal :=
  match r with
  | .next t => if t.fault = none then .next t else .next { setTpc p (s.port p).tpc t with ipc := s.ipc }
  | .fault f => .fault f
  | .refused f => .refused f

/-- The status byte or data byte the last micro-operation of TASK(p) left; a latch with no byte is read by no reachable
position. -/
def MicroResult.toByte : MicroResult → Option Byte
  | .byte v => some v
  | .empty | .bool _ | .ok | .overflow | .deq _ | .underflow | .kicked | .busy => none

/-- The truth value the last micro-operation left. -/
def MicroResult.toBool : MicroResult → Option Bool
  | .bool b => some b
  | .empty | .byte _ | .ok | .overflow | .deq _ | .underflow | .kicked | .busy => none

/-- One statement of command `cmd` in flight on port p, `rest` the statements after it. `s` is the state with the position
already at `rest`. A test whose latch has no value of its kind is at no reachable position. F_BAUD at step 6 records the command in
flight: INIT_INT or INIT_POLL in a run of a launch (R306); that in a lone PORT_INITIALIZER it records that word's own OP, 0x92, is
the model's choice (DESIGN CHOICE, log 34). -/
def taskStmt (p : Nat) (cmd : Instr) (st : Stmt) (rest : List Stmt) (s : State) : Host.Outcome State Fault Refusal :=
  let pb : Byte := BitVec.ofNat 8 p
  let goto (l : List Stmt) : Host.Outcome State Fault Refusal := .next (setTpc p (.inCmd cmd l) s)
  match st with
  | .start => exec cmd s
  | .op i => exec i s
  | .allocTest =>
    match (s.port p).lat.toBool with
    | some true => .next s
    | some false => .next (returnOp p cmd.op .errNomem s)
    | none => .refused .brokenMicroPc
  | .baud =>
    match s.par.baudDiv (s.port p).cfg.clockHz (s.port p).cfg.baud with
    | some d => goto (brgBody pb d ++ rest)
    | none => .next (raise .baud p cmd.op s)
  | .initReady =>
    match exec (.rbInit pb) s with
    | .next t => .next (setLife p .ready (setTxActive p false t))
    | .fault f => .fault f
    | .refused f => .refused f
  | .ret r => .next (returnOp p cmd.op r s)
  | .flushTest =>
    match (s.port p).lat.toBool with
    | some true => .next s
    | some false => goto ([.op (.wait pb), .op (.rbIsEmpty pb), .flushTest] ++ rest)
    | none => .refused .brokenMicroPc
  | .writeByte k =>
    if k < cmd.payload.length then goto ([.op (.rbIsFull pb), .fullTest k] ++ rest)
    else goto ([.op (.kick pb), .ret (.int cmd.payload.length)] ++ rest)
  | .fullTest k =>
    match (s.port p).lat.toBool with
    | some true => goto ([.op (.kick pb), .kickTest k] ++ rest)
    | some false => goto (.enqueue k :: rest)
    | none => .refused .brokenMicroPc
  | .kickTest k =>
    if (s.port p).lat = .busy then goto ([.op (.wait pb), .op (.rbIsFull pb), .fullTest k] ++ rest)
    else goto ([.op (.rbIsFull pb), .fullTest k] ++ rest)
  | .enqueue k =>
    match exec (.rbEnq pb (cmd.payload.getD k 0)) s with
    | .next t =>
      if t.fault = none then
        if (t.port p).lat = .overflow then .next (raise .overflow p cmd.op t)
        else .next (setTpc p (.inCmd cmd (.writeByte (k + 1) :: rest)) t)
      else .next t
    | .fault f => .fault f
    | .refused f => .refused f
  | .pollByte k =>
    if k < cmd.payload.length then goto (polledPut pb (cmd.payload.getD k 0) ++ .pollByte (k + 1) :: rest)
    else .next (returnOp p cmd.op (.int cmd.payload.length) s)
  | .putTest b =>
    match (s.port p).lat.toByte with
    | some v => if s.par.tbe v then goto (.op (.setData pb b) :: rest) else goto (.op (.wait pb) :: polledPut pb b ++ rest)
    | none => .refused .brokenMicroPc
  | .readTest =>
    match (s.port p).lat.toByte with
    | some v => if s.par.rca v then goto ([.op (.getData pb), .retByte] ++ rest) else .next (returnOp p cmd.op (.int (-1)) s)
    | none => .refused .brokenMicroPc
  | .retByte =>
    match (s.port p).lat.toByte with
    | some v => .next (returnOp p cmd.op (.int v.toNat) s)
    | none => .refused .brokenMicroPc
  | .isrNext => .refused .brokenMicroPc
  | .serviceTest _ => .refused .brokenMicroPc

/-- The decode step of R49 on the next command of port p's program: R116's checks 1 to 3 on the word, then IN(cmd, start) and
`hpc + 1`. The command's own checks are the statement at `start`, in the TASK's next step. A decode fault leaves `hpc` and
`tpc` as they were (R302). -/
def issue (p : Nat) (c : Command) (s : State) : Host.Outcome State Fault Refusal :=
  match hostWordFault c.word with
  | some f => .next (raise f p (wordOp c.word) s)
  | none =>
    match decode c.bytes with
    | .ok (i, []) =>
      if s.nports ≤ i.port.toNat then .next (raise .badPort p i.op s)
      else if i.port.toNat = p then
        .next (s.setPort p { s.port p with tpc := .inCmd i [.start], hpc := (s.port p).hpc + 1 })
      else .refused .foreignPort
    | .ok (_, _ :: _) => .refused .malformedCommand
    | .error _ => .refused .malformedCommand

/-- One step of TASK(p) (R20, R48, R49); nothing happens when TASK(p) has nothing to do. -/
def stepTask (p : Nat) (s : State) : Host.Outcome State Fault Refusal :=
  if s.nports ≤ p then .next s
  else
    let s1 : State := { s with cur := p }
    match (s.port p).tpc with
    | .idle =>
      match (s.port p).prog[(s.port p).hpc]? with
      | some c => issue p c s1
      | none => .next s
    | .inCmd _ [] => .next (setTpc p .idle s1)
    | .inCmd cmd (st :: rest) => holdPc p s (taskStmt p cmd st rest (setTpc p (.inCmd cmd rest) s1))

/-- One read of the pending register and its two channel-local sets (R253): the statements that follow, or the exit. -/
def serviceTest (a : Nat) (c : IsrPc) (rest : List Stmt) (v : Byte) (s : State) : State :=
  let pa := s.par.chanA v
  let b := partnerB a s
  let pb : BitVec 3 := match b with
    | none => 0
    | some _ => s.par.chanB v
  if pa = 0 ∧ pb = 0 then { s with ipc := some { c with i := c.i + 1, stage := rest } }
  else
    let ofA := if pa = 0 then [] else [.op (.process (BitVec.ofNat 8 a) (pa.setWidth 8))]
    let ofB := match b with
      | none => []
      | some b => if pb = 0 then [] else [.op (.process (BitVec.ofNat 8 b) (pb.setWidth 8))]
    { s with ipc := some { c with
        stage := ofA ++ ofB ++ [.op (.getReg (BitVec.ofNat 8 a) .selPending), .serviceTest a] ++ rest } }

/-- One step of the activation at statement `st`, `rest` the statements after it (R252, R253). -/
def isrStmt (c : IsrPc) (st : Stmt) (rest : List Stmt) (s : State) : Host.Outcome State Fault Refusal :=
  match st with
  | .op i => exec i { s with ipc := some { c with stage := rest } }
  | .isrNext =>
    match c.aList[c.i]? with
    | some a =>
      .next { s with ipc := some { c with
        stage := [.op (.getReg (BitVec.ofNat 8 a) .selPending), .serviceTest a, .isrNext] } }
    | none => .next (leaveIsr c.v s)
  | .serviceTest a =>
    match s.isrLat.toByte with
    | some v => .next (serviceTest a c rest v s)
    | none => .refused .brokenMicroPc
  | .start | .allocTest | .baud | .initReady | .ret _ | .flushTest | .writeByte _ | .fullTest _ | .kickTest _ | .enqueue _
  | .pollByte _ | .putTest _ | .readTest | .retByte => .refused .brokenMicroPc

/-- A step of the activation that raises leaves `ipc` where it was (R300). -/
def holdIpc (s : State) (r : Host.Outcome State Fault Refusal) : Host.Outcome State Fault Refusal :=
  match r with
  | .next t => if t.fault = none then .next t else .next { t with ipc := s.ipc }
  | .fault f => .fault f
  | .refused f => .refused f

/-- One ISR step (R17, R252). -/
def stepIsr (s : State) : Host.Outcome State Fault Refusal :=
  match s.ipc with
  | some c =>
    match c.stage with
    | st :: rest => holdIpc s (isrStmt c st rest s)
    | [] => .refused .brokenMicroPc
  | none => .refused .brokenMicroPc

end Sys2Proof.Machine
end

