-- ==== Sys2Proof/Machine/Step.lean ====
section
/-! DEFINITION. One step of the whole block, and where the next instruction word is placed for it. -/

namespace Sys2Proof.Machine

open Sys2Proof

/-- One step. In a halted state no agent is enabled (R300). Else ENV makes its choice (R20, R325; log 5): `sys_up` may rise
at any step boundary (R51); while an activation runs only the ISR steps (R18, R99); else a TASK steps, or the offered vector
is entered when R320 enables it. -/
def step (s : State) : Host.Outcome State Fault Refusal :=
  match s.fault with
  | some f => .fault (.halted f)
  | none =>
    let c := nextChoice s
    let s1 := takeChoice s
    match c with
    | .sysUp => .next { s1 with sysUp := true }
    | .task p =>
      match s.cpu with
      | .task => stepTask p s1
      | .isr => stepIsr s1
    | .irq v =>
      match s.cpu with
      | .task => exec (.isrEntry 0) { s1 with offer := some v }
      | .isr => stepIsr s1
    | .idle =>
      match s.cpu with
      | .task => .next s1
      | .isr => stepIsr s1

/-- The port a placed word runs on: its PORT field, or port 0 where that is no configured port. -/
def State.wordTask (s : State) (w : Word) : Nat := if wordPort w < s.nports then wordPort w else 0

/-- Task context, no fault, and ENV's next choice (log 21). -/
def State.choosing (c : Choice) (s : State) : State :=
  { s with cpu := .task, ipc := none, fault := none, env := { s.env with sched := c :: s.env.sched } }

/-- The program of a port up to its next command, and the word with a payload of zeros as that command (log 21). -/
def Port.progWith (q : Port) (w : Word) : List Command :=
  q.prog.take q.hpc ++ List.replicate (q.hpc - q.prog.length) default ++ [⟨w, zeroPayload w⟩]

/-- A word whose decode step raises, as the next command of its port's program, the port idle and chosen next (log 21). -/
def State.withUndecoded (w : Word) (s : State) : State :=
  let p := s.wordTask w
  let q := s.port p
  State.choosing (.task p) (s.setPort p { q with prog := q.progWith w, tpc := .idle })

/-- A host command of a configured port, put in its program and its decode step done (R49): IN(i, start), and the port chosen
next (log 21). -/
def State.withCommand (w : Word) (i : Instr) (s : State) : State :=
  let p := s.wordTask w
  let q := s.port p
  State.choosing (.task p) (s.setPort p { q with prog := q.progWith w, hpc := q.hpc + 1, tpc := .inCmd i [.start] })

/-- The micro-operation at the position of its port's micro-PC, and the port chosen next (log 21). -/
def State.withMicroOp (w : Word) (i : Instr) (s : State) : State :=
  let p := s.wordTask w
  State.choosing (.task p) (s.setPort p { s.port p with tpc := .inCmd i [.op i] })

/-- The word placed so that the next step runs its instruction (log 21): a host command decoded at the start of its
pseudocode, a micro-operation in the micro-PC, ISR_ENTRY as ENV's offer of the port's own vector. A host word that does not
decode, or whose port is not configured, is placed for the decode step that raises. -/
def State.withFetchWord (s : State) (nbits w : Nat) : State :=
  let v := tableWord nbits w
  match hostWordFault v, decodeTableWord nbits w with
  | some _, some (.isrEntry _) => State.choosing (.irq (s.port (s.wordTask v)).cfg.vector) s
  | some _, some i => State.withMicroOp v i s
  | none, some i => if wordPort v < s.nports then State.withCommand v i s else State.withUndecoded v s
  | _, none => State.withUndecoded v s

end Sys2Proof.Machine
end

