-- ==== Sys2Proof/Safety.lean ====
section
/-! DEFINITION. What claims about runs are stated in: halted and final states, the events a step adds, the launch a state
carries, and the invariant of the machine: which positions the micro-PCs can be at, and what the state holds there. -/

namespace Sys2Proof.Machine

open Sys2Proof

/-! ### Ends of a run -/

/-- A halted state (R300). -/
def State.halted (s : State) : Bool := s.fault.isSome

/-- A final state (R298). -/
def State.final (s : State) : Bool :=
  s.fault == none && s.cpu == .task && s.ports.all fun q => q.tpc == .idle && q.hpc == q.prog.length

/-! ### Events -/

/-- The events of the trace of `t` after the first `s.trace.length`: what a step from `s` to `t` added (R60). -/
def newEvents (s t : State) : List Event := t.trace.drop s.trace.length

/-- A write of the data register at an address (R173). -/
def Event.isWrData (a : Addr) : Event → Bool
  | .wrData b _ => a == b
  | .rdReg _ _ _ | .wrReg _ _ _ _ | .rdData _ _ | .up _ _ | .yield _ | .spin _ | .alloc _ _ | .vreg _ | .irq _ | .iend _
  | .ret _ _ _ | .fault _ _ _ => false

/-- Any write of a data register (R173). -/
def Event.isAnyWrData : Event → Bool
  | .wrData _ _ => true
  | .rdReg _ _ _ | .wrReg _ _ _ _ | .rdData _ _ | .up _ _ | .yield _ | .spin _ | .alloc _ _ | .vreg _ | .irq _ | .iend _
  | .ret _ _ _ | .fault _ _ _ => false

/-- The write of a named control action (R177). -/
def Event.isCtl (k : Action) : Event → Bool
  | .wrReg _ _ _ (.act k') => k == k'
  | .wrReg _ _ _ .selStatus | .wrReg _ _ _ .selPending | .wrReg _ _ _ .selMc | .rdReg _ _ _ | .rdData _ _ | .wrData _ _
  | .up _ _ | .yield _ | .spin _ | .alloc _ _ | .vreg _ | .irq _ | .iend _ | .ret _ _ _ | .fault _ _ _ => false

/-- The value of a modem-control write, recorded with tag MCW at an address (R181). -/
def Event.mcwValue (a : Addr) : Event → Option Byte
  | .wrReg b _ v .selMc => if a = b then some v else none
  | .wrReg _ _ _ .selStatus | .wrReg _ _ _ .selPending | .wrReg _ _ _ (.act _) | .rdReg _ _ _ | .rdData _ _ | .wrData _ _
  | .up _ _ | .yield _ | .spin _ | .alloc _ _ | .vreg _ | .irq _ | .iend _ | .ret _ _ _ | .fault _ _ _ => none

/-- The event of a named control action with argument a on a port (R177). -/
def ctlEvent (par : Params) (c : PortCfg) (k : Action) (a : Byte) : Event :=
  .wrReg (k.addr c) (par.chipSel k) (par.chipVal k a) (.act k)

/-- The event of a modem-control write (R181). -/
def mcwEvent (par : Params) (c : PortCfg) (v : Byte) : Event := .wrReg c.ctrlOwn par.selMc v .selMc

/-! ### Runs -/

/-- k steps of the machine. -/
def run : Nat → State → Host.Outcome State Fault Refusal
  | 0, s => .next s
  | k + 1, s =>
    match step s with
    | .next t => run k t
    | .fault f => .fault f
    | .refused f => .refused f

/-- The next n choices of the environment are TASK(p), and `cs` are the ones after them. -/
def chosen (p n : Nat) (cs : List Choice) (s : State) : Prop := s.env.sched = List.replicate n (.task p) ++ cs

/-- The environment's side after n scheduling choices and m bus answers. -/
def envAfter (n m : Nat) (cs : List Choice) (s : State) : Env :=
  { s.env with sched := cs, nSched := s.env.nSched + n, bytes := s.env.bytes.drop m, nBytes := s.env.nBytes + m }

/-- TASK(p) is idle, in task context and without a fault, and `i` is the next command of its program (R49). -/
structure AboutToRun (i : Instr) (s : State) : Prop where
  noFault : s.fault = none
  task    : s.cpu = .task
  isPort  : i.port.toNat < s.nports
  idle    : (s.port i.port.toNat).tpc = .idle
  command : (s.port i.port.toNat).prog[(s.port i.port.toNat).hpc]? = some (Command.ofBytes (encode i))

/-! ### Guarded use of a ring (R155) -/

/-- One use of a ring: an enqueue or a dequeue. -/
inductive RingUse where
  | enq (b : Byte)
  | deq
  deriving DecidableEq, Repr

/-- The bytes accepted and the bytes returned so far, and the ring. -/
structure RingRun where
  accepted : List Byte
  returned : List Byte
  ring     : Ring
  deriving DecidableEq, Repr

/-- One guarded use: an enqueue only after a false RB_IS_FULL, a dequeue only after a false RB_IS_EMPTY. -/
def RingRun.use (c : Nat) (x : RingRun) : RingUse → RingRun
  | .enq b =>
    if x.ring.isFull c then x
    else
      match x.ring.enq c b with
      | some r => ⟨x.accepted ++ [b], x.returned, r⟩
      | none => x
  | .deq =>
    if x.ring.isEmpty then x
    else
      match x.ring.deq c with
      | .ok b r => ⟨x.accepted, x.returned ++ [b], r⟩
      | .underflow => x
      | .undef => x

/-- A sequence of guarded uses from a freshly constructed ring (R150). -/
def ringUses (c : Nat) (us : List RingUse) : RingRun := us.foldl (RingRun.use c) ⟨[], [], .empty c⟩

/-! ### The invariant -/

/-- Every constructed ring meets R43. -/
def ringsOk (s : State) : Bool :=
  s.ports.all fun q =>
    match q.rb with
    | some r => r.wf s.par.rbCap
    | none => true

/-- On a READY port none of `mc`, `tx_active` and `rb` is ⊥ (R304). -/
def readyDefined (q : Port) : Bool := q.life != .ready || (q.mc.isSome && q.txActive.isSome && q.rb.isSome)

/-- A port's ring has room. -/
def hasRoom (cap : Nat) (q : Port) : Bool :=
  match q.rb with
  | some r => !r.isFull cap
  | none => false

/-- A micro-operation of the initializer's or of a command's pseudocode that stands alone, at life state `l`. -/
def aloneAt (l : Life) : Instr → Bool
  | .channelReset _ => l == .initializing
  | .getReg _ .selStatus => l == .initializing
  | .ctl _ _ (.act _) => l == .initializing || l == .ready
  | .assertRts _ | .negateRts _ | .assertDtr _ | .negateDtr _ | .registerVector _ | .kick _ | .wait _ | .setData _ _ =>
    l == .ready
  | .getReg _ .selPending | .getReg _ .selMc | .getReg _ (.act _) | .ctl _ _ .selStatus | .ctl _ _ .selPending
  | .ctl _ _ .selMc | .probe _ | .initInt _ | .initPoll _ | .openPort _ | .closePort _ | .flush _ | .writeInt _ _
  | .writePoll _ _ | .writePolled _ _ | .readPolled _ | .setAttr _ | .fcAssert _ | .fcNegate _ | .rbInit _
  | .rbIsEmpty _ | .rbIsFull _ | .rbEnq _ _ | .rbDeq _ | .mcw _ _ | .alloc _ | .portInitializer _ | .rxPhase _
  | .txPhase _ | .extPhase _ | .eoi _ | .process _ _ | .isrEntry _ | .setReg _ _ _ | .getData _ | .up _ _ => false

/-- The statements a TASK of port p can have before it, given the life state and whether `mc` has been written: every
micro-operation is port p's own, every test follows the micro-operation whose result it reads, `initReady` follows the
modem-control writes, and the list ends with a `return`. -/
def posOk (p : Nat) : Life → Bool → List Stmt → Bool
  | l, m, .op (.alloc q) :: .allocTest :: rest => q.toNat == p && l == .uninit && posOk p .initializing m rest
  | l, m, .op (.rbIsEmpty q) :: .flushTest :: rest => q.toNat == p && l == .ready && posOk p l m rest
  | l, _, .op (.rbIsFull q) :: .fullTest _ :: rest => q.toNat == p && l == .ready && rest.isEmpty
  | l, m, .op (.getReg q .selStatus) :: .putTest _ :: rest => q.toNat == p && l == .ready && posOk p l m rest
  | l, _, .op (.getReg q .selStatus) :: .readTest :: rest => q.toNat == p && l == .ready && rest.isEmpty
  | l, _, .op (.getData q) :: .retByte :: rest => q.toNat == p && l == .ready && rest.isEmpty
  | l, _, .op (.portInitializer q) :: rest => q.toNat == p && l == .initializing && posOk p l true rest
  | l, _, .op (.mcw q _) :: rest => q.toNat == p && l == .initializing && posOk p l true rest
  | l, m, .op i :: rest => i.port.toNat == p && aloneAt l i && posOk p l m rest
  | l, m, .baud :: rest => l == .initializing && posOk p l m rest
  | l, m, .initReady :: rest => l == .initializing && m && posOk p .ready true rest
  | l, _, .ret _ :: rest => l == .ready && rest.isEmpty
  | l, _, .writeByte _ :: rest => l == .ready && rest.isEmpty
  | l, _, .kickTest _ :: rest => l == .ready && rest.isEmpty
  | l, _, .pollByte _ :: rest => l == .ready && rest.isEmpty
  | _, _, _ => false

/-- The micro-PC of TASK(p) together with what the port holds there: at a test the latch holds a result of its kind, the
test of RB_IS_FULL answered false and the enqueue find room, an allocation that failed is at its test. -/
def taskOk (cap p : Nat) (q : Port) : Bool :=
  match q.tpc with
  | .idle => q.life != .initializing
  | .inCmd cmd pos =>
    cmd.port.toNat == p && decide (cmd.op.toNat ≤ 0x0D) &&
    match pos with
    | .start :: rest => q.life != .initializing && rest.isEmpty
    | .allocTest :: rest =>
      (q.lat == .bool true && q.life == .initializing && posOk p .initializing q.mc.isSome rest)
        || (q.lat == .bool false && q.life == .failed)
    | .flushTest :: rest => q.life == .ready && q.lat.toBool.isSome && posOk p .ready true rest
    | .fullTest _ :: rest =>
      q.life == .ready && (q.lat == .bool true || (q.lat == .bool false && hasRoom cap q)) && rest.isEmpty
    | .enqueue _ :: rest => q.life == .ready && hasRoom cap q && rest.isEmpty
    | .putTest _ :: rest => q.life == .ready && q.lat.toByte.isSome && posOk p .ready true rest
    | .readTest :: rest => q.life == .ready && q.lat.toByte.isSome && rest.isEmpty
    | .retByte :: rest => q.life == .ready && q.lat.toByte.isSome && rest.isEmpty
    | pos => posOk p q.life q.mc.isSome pos

/-- A READY interrupt-mode port, the only kind an activation services (R252). -/
def serviced (s : State) (p : Nat) : Bool :=
  decide (p < s.nports) && (s.port p).life == .ready && (s.port p).cfg.mode == .interrupt

/-- The statements an activation can have before it: the phases of PROCESS on serviced ports, each pending read followed by
its test, and the loop over A_list last. -/
def stageOk (s : State) : List Stmt → Bool
  | [.isrNext] => true
  | .op (.getReg q .selPending) :: .serviceTest a :: rest => q.toNat == a && serviced s a && stageOk s rest
  | .op (.process q _) :: rest | .op (.rxPhase q) :: rest | .op (.txPhase q) :: rest | .op (.extPhase q) :: rest
  | .op (.eoi q) :: rest => serviced s q.toNat && stageOk s rest
  | _ => false

/-- The ISR micro-PC (R53): there exactly in interrupt context, at a position of the activation's pseudocode, its list of
ports serviced ones. -/
def isrOk (s : State) : Bool :=
  match s.cpu, s.ipc with
  | .task, none => true
  | .isr, some c =>
    c.aList.all (serviced s) &&
    match c.stage with
    | .serviceTest a :: rest => serviced s a && s.isrLat.toByte.isSome && stageOk s rest
    | l => stageOk s l
  | .task, some _ => false
  | .isr, none => false

/-- The invariant of the machine. It rules out states no run of a well-formed launch reaches. -/
structure Inv (s : State) : Prop where
  launch : s.launch.wf = true
  rings  : ringsOk s = true
  ready  : (s.ports.all readyDefined) = true
  tasks  : ∀ p, p < s.nports → taskOk s.par.rbCap p (s.port p) = true
  isr    : isrOk s = true

end Sys2Proof.Machine
end

