-- ==== Sys2Proof/Certificates/Slice0/Obligations.lean ====
section
/-! DEFINITION. The statements about the model, each a proposition for the provers. A record update in a conclusion names
every field the step changes; the fields it does not name are unchanged, so each such equality states the frame too. -/

open Sys2Proof Sys2Proof.Machine

/-! ### Reset and launch -/

/-- R65: the reset state of every launch, and what block reset of a running machine leaves. -/
def Obligations.ResetGivesSpecValues : Prop :=
  ∀ (l : Launch) (u s : State), s = resetOf l ∨ (s = State.blockReset u ∧ u.launch = l) →
    s.launch = l ∧ s.vreg = [] ∧ s.sysUp = false ∧ s.cpu = .task ∧ s.ipc = none ∧ s.fault = none ∧ s.trace = []
      ∧ ∀ q ∈ s.ports, q.life = .uninit ∧ q.mc = none ∧ q.txActive = none ∧ q.rb = none
          ∧ q.ie = ⟨none, none, none, none, none⟩ ∧ q.upq = [] ∧ q.res = none ∧ q.tpc = .idle ∧ q.hpc = 0

/-- R11, R12: a launch has an initial state exactly when NPORTS is 1 to 256 and WF1 to WF7 hold (WF4 by type), each command
carrying LEN payload bytes in format S and none in another (R111); and that state is its reset state. The model's choice: log
3, 19. -/
def Obligations.LaunchBootsIffWellFormed : Prop :=
  ∀ l : Launch,
    (∀ s, l.boot = some s → s = resetOf l)
    ∧ ((∃ s, l.boot = some s) ↔
      (1 ≤ l.ports.length ∧ l.ports.length ≤ 256)
      ∧ 1 ≤ l.par.rbCap
      ∧ ((∃ i < 8, l.par.mcRts = 1#8 <<< i) ∧ (∃ i < 8, l.par.mcDtr = 1#8 <<< i) ∧ (∃ i < 8, l.par.mcTxen = 1#8 <<< i)
        ∧ l.par.mcRts ≠ l.par.mcDtr ∧ l.par.mcRts ≠ l.par.mcTxen ∧ l.par.mcDtr ≠ l.par.mcTxen
        ∧ l.par.mcRts &&& l.par.mcTx8 = 0 ∧ l.par.mcDtr &&& l.par.mcTx8 = 0 ∧ l.par.mcTxen &&& l.par.mcTx8 = 0)
      ∧ (l.par.pTbe ≠ 0 ∧ l.par.pRca ≠ 0 ∧ l.par.pCts ≠ 0)
      ∧ (∀ (p q : Nat) (c d : PortCfg × List Command), p ≠ q → l.ports[p]? = some c → l.ports[q]? = some d →
          c.1.ctrlPrimary ≠ c.1.ctrlOwn → d.1.ctrlPrimary ≠ d.1.ctrlOwn → c.1.ctrlPrimary ≠ d.1.ctrlPrimary)
      ∧ (∀ (p q : Nat) (c d : PortCfg × List Command), p ≠ q → l.ports[p]? = some c → l.ports[q]? = some d →
          c.1.mode = .interrupt → d.1.mode = .interrupt →
          c.1.ctrlPrimary = d.1.ctrlPrimary → c.1.vector = d.1.vector)
      ∧ (∀ (p : Nat) (c : PortCfg × List Command) (w : Command), l.ports[p]? = some c → w ∈ c.2 →
          wordPort w.word < l.ports.length → wordPort w.word = p)
      ∧ (∀ (p : Nat) (c : PortCfg × List Command) (w : Command), l.ports[p]? = some c → w ∈ c.2 →
          (wordOp w.word = 0x07 ∨ wordOp w.word = 0x08 → w.payload.length = wordLen w.word)
          ∧ (wordOp w.word ≠ 0x07 → wordOp w.word ≠ 0x08 → w.payload = [])))

/-! ### Encoding -/

/-- R122: the spec's encoding examples, as words and as bytes. -/
def Obligations.ExampleWordsDecode : Prop :=
  decodeTableWord 32 0x00000104 = some (.openPort 1)
  ∧ decodeTableWord 32 0x00410009 = some (.writePolled 0 0x41)
  ∧ decode [0x07, 0x02, 0x02, 0x00, 0x48, 0x49] = .ok (.writeInt 2 [0x48, 0x49], [])
  ∧ bytesWord 0x07 0x02 0x02 0x00 = 0x00020207
  ∧ decodeTableWord 32 0x0000030A = some (.readPolled 3)
  ∧ decodeTableWord 32 0x00000007 = some (.writeInt 0 [])

/-- Decoding the encoding of a well-formed instruction gives it back, and leaves the bytes after it. -/
def Obligations.DecodeEncodeRoundTrip : Prop :=
  ∀ (i : Instr) (rest : List Byte), i.wf = true → decode (encode i ++ rest) = .ok (i, rest)

/-- Every byte string that decodes is the encoding of what it decodes to, followed by the bytes left over: no two byte
strings stand for one instruction, and no bit of a word is dropped. -/
def Obligations.DecodedBytesAreTheEncoding : Prop :=
  ∀ (bs rest : List Byte) (i : Instr), decode bs = .ok (i, rest) → bs = encode i ++ rest

/-- R120, R121: the word and the payload each line of assembly stands for. -/
def Obligations.AssembledWords : Prop :=
  ∀ (mode : Byte → Mode) (n b : Byte) (xs : List Byte), xs.length < 65536 →
    let nn : Word := n.setWidth 32 <<< 8
    let len : Word := BitVec.ofNat 32 xs.length <<< 16
    let bb : Word := b.setWidth 32 <<< 16
    Asm.assemble mode (.probe n) = ⟨nn ||| 0x01, []⟩
    ∧ Asm.assemble mode (.initInt n) = ⟨nn ||| 0x02, []⟩
    ∧ Asm.assemble mode (.initPoll n) = ⟨nn ||| 0x03, []⟩
    ∧ Asm.assemble mode (.openPort n) = ⟨nn ||| 0x04, []⟩
    ∧ Asm.assemble mode (.closePort n) = ⟨nn ||| 0x05, []⟩
    ∧ Asm.assemble mode (.flush n) = ⟨nn ||| 0x06, []⟩
    ∧ Asm.assemble mode (.writeInt n xs) = ⟨len ||| nn ||| 0x07, xs⟩
    ∧ Asm.assemble mode (.writePoll n xs) = ⟨len ||| nn ||| 0x08, xs⟩
    ∧ Asm.assemble mode (.putc n b) = ⟨bb ||| nn ||| 0x09, []⟩
    ∧ Asm.assemble mode (.getc n) = ⟨nn ||| 0x0A, []⟩
    ∧ Asm.assemble mode (.setattr n) = ⟨nn ||| 0x0B, []⟩
    ∧ Asm.assemble mode (.fcAssert n) = ⟨nn ||| 0x0C, []⟩
    ∧ Asm.assemble mode (.fcNegate n) = ⟨nn ||| 0x0D, []⟩
    ∧ Asm.assemble mode (.init n) = Asm.assemble mode (if mode n = .interrupt then .initInt n else .initPoll n)
    ∧ Asm.assemble mode (.write n xs) = Asm.assemble mode (if mode n = .interrupt then .writeInt n xs else .writePoll n xs)
    ∧ Asm.assemble mode (.read n) = Asm.assemble mode (.getc n)
    ∧ Asm.assemble mode (.lastclose n) = Asm.assemble mode (.flush n)
    ∧ Asm.assemble mode (.writePolled n b) = Asm.assemble mode (.putc n b)

/-! ### Fetching -/

/-- R49: when TASK(p) is idle and its next command decodes to a host command of its port, its step is the decode step alone:
the micro-PC at IN(cmd, start) and `hpc` past the command. R48: at `start` its step is `exec` of the decoded command with the
position moved past it; if it raises, the micro-PC stays at `start` (R300). Each uses up ENV's choice. The granularity is the
model's (log 5, 6, 7). -/
def Obligations.StepRunsNextCommand : Prop :=
  (∀ (s : State) (p : Nat) (c : Command) (i : Instr), s.fault = none → s.cpu = .task → nextChoice s = .task p →
    p < s.nports → (s.port p).tpc = .idle → (s.port p).prog[(s.port p).hpc]? = some c →
    decode c.bytes = .ok (i, []) → 0x01 ≤ i.op.toNat → i.op.toNat ≤ 0x0D → i.port.toNat = p →
    step s = .next { s with
        ports := s.ports.set p { s.port p with tpc := .inCmd i [.start], hpc := (s.port p).hpc + 1 }
        cur := p
        env := { s.env with sched := s.env.sched.tail, nSched := s.env.nSched + 1 } })
  ∧ (∀ (s : State) (p : Nat) (cmd : Instr) (rest : List Stmt), s.fault = none → s.cpu = .task → nextChoice s = .task p →
    p < s.nports → (s.port p).tpc = .inCmd cmd (.start :: rest) →
    ∀ r, r = exec cmd { takeChoice s with
        ports := s.ports.set p { s.port p with tpc := .inCmd cmd rest }, cur := p } →
    (∀ t, r = .next t → t.fault = none → step s = .next t)
    ∧ (∀ t, r = .next t → t.fault ≠ none →
        step s = .next { t with ports := t.ports.set p { t.port p with tpc := .inCmd cmd (.start :: rest) }, ipc := s.ipc }))

/-- R48: at a micro-operation of its pseudocode a TASK's step is `exec` of it with the position moved past it; if it raises,
the micro-PC stays where it was (R300). The same for the ISR (R53). The granularity is the model's (log 5, 6). -/
def Obligations.StepRunsMicroOperation : Prop :=
  (∀ (s : State) (p : Nat) (cmd i : Instr) (rest : List Stmt), s.fault = none → s.cpu = .task → nextChoice s = .task p →
    p < s.nports → (s.port p).tpc = .inCmd cmd (.op i :: rest) →
    ∀ r, r = exec i { takeChoice s with
        ports := s.ports.set p { s.port p with tpc := .inCmd cmd rest }, cur := p } →
    (∀ t, r = .next t → t.fault = none → step s = .next t)
    ∧ (∀ t, r = .next t → t.fault ≠ none →
        step s = .next { t with ports := t.ports.set p { t.port p with tpc := .inCmd cmd (.op i :: rest) }, ipc := s.ipc })
    ∧ (∀ f, r = .refused f → step s = .refused f))
  ∧ (∀ (s : State) (c : IsrPc) (i : Instr) (rest : List Stmt), s.fault = none → s.cpu = .isr → nextChoice s ≠ .sysUp →
    s.ipc = some c → c.stage = .op i :: rest →
    ∀ r, r = exec i { takeChoice s with ipc := some { c with stage := rest } } →
    (∀ t, r = .next t → t.fault = none → step s = .next t)
    ∧ (∀ t, r = .next t → t.fault ≠ none → step s = .next { t with ipc := s.ipc })
    ∧ (∀ f, r = .refused f → step s = .refused f))

/-- R116, R302: the decode faults, in their order, each with the issuing TASK's port and the raw OP byte; nothing else
changes, `hpc` and `tpc` included. -/
def Obligations.DecodeFaults : Prop :=
  ∀ (s : State) (p : Nat) (c : Command), s.fault = none → s.cpu = .task → nextChoice s = .task p →
    p < s.nports → (s.port p).tpc = .idle → (s.port p).prog[(s.port p).hpc]? = some c → c.wf = true →
    let op : Byte := c.word.extractLsb' 0 8
    let illegal : Prop := op.toNat = 0 ∨ 0x0D < op.toNat
    let formatP : Prop := op ≠ 0x07 ∧ op ≠ 0x08 ∧ op ≠ 0x09
    let reserved : Prop := (formatP ∧ c.word.extractLsb' 16 16 ≠ 0) ∨ (op = 0x09 ∧ c.word.extractLsb' 24 8 ≠ 0)
    let badPort : Prop := s.nports ≤ (c.word.extractLsb' 8 8).toNat
    let faulted (f : FaultCode) : State :=
      { s with
        trace := s.trace ++ [.fault f p op]
        fault := some ⟨f, p, op⟩
        cur := p
        env := { s.env with sched := s.env.sched.tail, nSched := s.env.nSched + 1 } }
    (illegal → step s = .next (faulted .illegalOp))
    ∧ (¬illegal → reserved → step s = .next (faulted .reserved))
    ∧ (¬illegal → ¬reserved → badPort → step s = .next (faulted .badPort))

/-- In a halted state no agent steps, whatever ENV chooses (R300); that `step` then answers the fault `halted` with the record
is the model's (log 18). -/
def Obligations.HaltedMachineStops : Prop :=
  ∀ (s : State) (f : FaultRec), s.fault = some f → step s = .fault (.halted f)

/-! ### Ring Buffer -/

/-- R150, R151, R152, R157: RB_INIT's ring, and what the two tests answer; on a ring that was never constructed they raise
F_UNDEF_READ. -/
def Obligations.RingInitAndTests : Prop :=
  (∀ (s : State) (p : Byte), p.toNat < s.nports →
    exec (.rbInit p) s = .next { s with
      ports := s.ports.set p.toNat
        { s.port p.toNat with rb := some ⟨List.replicate s.par.rbCap none, 0, 0, 0⟩ } })
  ∧ (∀ (s : State) (p : Byte) (r : Ring), p.toNat < s.nports → (s.port p.toNat).rb = some r →
    exec (.rbIsEmpty p) s = .next (setLat p.toNat (.bool (decide (r.count = 0))) s)
    ∧ exec (.rbIsFull p) s = .next (setLat p.toNat (.bool (decide (r.count = s.par.rbCap))) s)
    ∧ (1 ≤ s.par.rbCap → ¬(r.isEmpty = true ∧ r.isFull s.par.rbCap = true)))
  ∧ (∀ (s : State) (p : Byte), p.toNat < s.nports → (s.port p.toNat).rb = none →
    let raised (op : Byte) : State :=
      { s with trace := s.trace ++ [.fault .undefRead p.toNat op], fault := some ⟨.undefRead, p.toNat, op⟩ }
    exec (.rbIsEmpty p) s = .next (raised 0x81) ∧ exec (.rbIsFull p) s = .next (raised 0x82))

/-- R153, R154: enqueue and dequeue, with OVERFLOW and UNDERFLOW as results; on a ring that was never constructed they raise
F_UNDEF_READ. -/
def Obligations.RingEnqueueDequeue : Prop :=
  (∀ (s : State) (p b : Byte), p.toNat < s.nports → (s.port p.toNat).rb = none →
    let raised (op : Byte) : State :=
      { s with trace := s.trace ++ [.fault .undefRead p.toNat op], fault := some ⟨.undefRead, p.toNat, op⟩ }
    exec (.rbEnq p b) s = .next (raised 0x83) ∧ exec (.rbDeq p) s = .next (raised 0x84))
  ∧ ∀ (s : State) (p b : Byte) (r : Ring), p.toNat < s.nports → (s.port p.toNat).rb = some r →
    (r.count ≠ s.par.rbCap →
      exec (.rbEnq p b) s = .next (setLat p.toNat .ok { s with
        ports := s.ports.set p.toNat { s.port p.toNat with
          rb := some ⟨r.buf.set r.tail (some b), r.head, (r.tail + 1) % s.par.rbCap, r.count + 1⟩ } }))
    ∧ (r.count = s.par.rbCap → exec (.rbEnq p b) s = .next (setLat p.toNat .overflow s))
    ∧ (r.count ≠ 0 → ∀ c, r.buf.getD r.head none = some c →
      exec (.rbDeq p) s = .next (setLat p.toNat (.deq c) { s with
        ports := s.ports.set p.toNat { s.port p.toNat with
          rb := some ⟨r.buf.set r.head none, (r.head + 1) % s.par.rbCap, r.tail, r.count - 1⟩ } }))
    ∧ (r.count = 0 → exec (.rbDeq p) s = .next (setLat p.toNat .underflow s))

/-- R155: the FIFO law over every sequence of guarded uses of a fresh ring of capacity C ≥ 1. -/
def Obligations.RingFifoLaw : Prop :=
  ∀ (c : Nat) (us : List RingUse), 1 ≤ c →
    let x := ringUses c us
    x.ring.wf c = true
    ∧ x.returned <+: x.accepted
    ∧ x.accepted.map some = x.returned.map some ++ x.ring.queue c
    ∧ x.returned.length ≤ x.accepted.length

/-! ### Register bus -/

/-- R170, R172, R175, R176: the bus reads draw ENV's answer, record it and leave it as the result. R176 gives the pending read
for a channel-A port; on a channel-B port it is the model's (log 29). The latch of the result is the model's (log 9). -/
def Obligations.BusReads : Prop :=
  ∀ (s : State) (p : Byte), p.toNat < s.nports →
    let q := s.port p.toNat
    let v := nextByte s
    let read (e : Event) : State :=
      setLat p.toNat (.byte v) { s with
        trace := s.trace ++ [e]
        env := { s.env with bytes := s.env.bytes.tail, nBytes := s.env.nBytes + 1 } }
    exec (.getReg p .selStatus) s = .next (read (.rdReg q.cfg.ctrlOwn s.par.selStatus v))
    ∧ exec (.getReg p .selPending) s = .next (read (.rdReg q.cfg.ctrlPrimary s.par.selPending v))
    ∧ exec (.getData p) s = .next (read (.rdData q.cfg.dataAddr v))

/-- R171, R173: the bus writes change nothing but the trace. That SET_REG accepts every tag is the model's (log 16), and that it
leaves `mc` alone under the modem-control tag too (log 28), and so is the address it writes at (log 32). -/
def Obligations.BusWrites : Prop :=
  ∀ (s : State) (p v : Byte), p.toNat < s.nports →
    let q := s.port p.toNat
    let wrote (e : Event) : State := { s with trace := s.trace ++ [e] }
    exec (.setData p v) s = .next (wrote (.wrData q.cfg.dataAddr v))
    ∧ exec (.setReg p v .selMc) s = .next (wrote (.wrReg q.cfg.ctrlOwn s.par.selMc v .selMc))
    ∧ exec (.setReg p v .selStatus) s = .next (wrote (.wrReg q.cfg.ctrlOwn s.par.selStatus v .selStatus))
    ∧ exec (.setReg p v .selPending) s = .next (wrote (.wrReg q.cfg.ctrlPrimary s.par.selPending v .selPending))
    ∧ ∀ k : Action, exec (.setReg p v (.act k)) s
        = .next (wrote (.wrReg (if k = .mie then q.cfg.ctrlPrimary else q.cfg.ctrlOwn) (s.par.chipSel k) v (.act k)))

/-- R177, R178, R179: a named control action is one register write at its role's address, and its effect on the
interrupt-enable image; a divisor half's value is its argument where the launch says nothing else, and any other action
ignores its argument. That the launch says it by a list of differences is the model's (log 3). -/
def Obligations.ControlActions : Prop :=
  ∀ (s : State) (p a : Byte) (k : Action), p.toNat < s.nports →
    let q := s.port p.toNat
    let reset : Bool := k = .chresetA ∨ k = .chresetB
    let line (old : Option Bool) : Option Bool :=
      if reset then none else if k = .intDisAll then some false else if k = .intEnAll then some true else old
    exec (.ctl p a (.act k)) s = .next { s with
      ports := s.ports.set p.toNat { q with
        ie := {
          rx := line q.ie.rx
          tx := if k = .txintDis then some false else if k = .txintEn then some true else line q.ie.tx
          ext := line q.ie.ext
          mie := if reset then none else if k = .mie then some true else q.ie.mie
          extSrc := if reset then none else if k = .extCtsOnly then some .ctsOnly else q.ie.extSrc } }
      trace := s.trace ++ [.wrReg (if k = .mie then q.cfg.ctrlPrimary else q.cfg.ctrlOwn) (s.par.chipSel k)
        (s.par.chipVal k a) (.act k)] }
    ∧ (k ≠ .brgLo → k ≠ .brgHi → s.par.chipVal k a = s.par.chipVal k 0)
    ∧ (k = .brgLo ∨ k = .brgHi →
      ((s.par.chip.get k.idx).diff.lookup a = none → s.par.chipVal k a = a)
      ∧ ∀ v, (s.par.chip.get k.idx).diff.lookup a = some v → s.par.chipVal k a = v)

/-- R181, R40: the modem-control write changes the shadow byte and the register together. -/
def Obligations.ModemControlWrite : Prop :=
  ∀ (s : State) (p v : Byte), p.toNat < s.nports →
    exec (.mcw p v) s = .next { s with
      ports := s.ports.set p.toNat { s.port p.toNat with mc := some v }
      trace := s.trace ++ [.wrReg (s.port p.toNat).cfg.ctrlOwn s.par.selMc v .selMc] }

/-- The forms that stop by name (log 15, log 16, the model's choice): a register read through a tag that names no readable
selector (R180), a control action through a tag that names none (R115), and a micro-operation but ISR_ENTRY on a port that is
not configured (R112). -/
def Obligations.FormsThatStop : Prop :=
  (∀ (s : State) (p : Byte) (tag : RegTag), tag ≠ .selStatus → tag ≠ .selPending →
    exec (.getReg p tag) s = .refused .notReadable)
  ∧ (∀ (s : State) (p a : Byte) (tag : RegTag), (∀ k, tag ≠ .act k) → exec (.ctl p a tag) s = .refused .notAnAction)
  ∧ (∀ (s : State) (i : Instr), i.wf = true → 0x80 ≤ i.op.toNat → (∀ p, i ≠ .isrEntry p) → s.nports ≤ i.port.toNat →
    exec i s = .refused .portNotConfigured)

/-! ### Initialization -/

/-- R200: the allocation draw, its event, and the life state it leads to. On a port that is not UNINIT, where R37 and R209 say
that no operation moves `life` back, it is the model's choice (log 33). -/
def Obligations.AllocationDraw : Prop :=
  ∀ (s : State) (p : Byte), p.toNat < s.nports →
    let ok := nextAlloc s
    exec (.alloc p) s = .next (setLat p.toNat (.bool ok) { s with
      ports := s.ports.set p.toNat { s.port p.toNat with life := if ok then .initializing else .failed }
      trace := s.trace ++ [.alloc p.toNat ok]
      env := { s.env with allocs := s.env.allocs.tail, nAllocs := s.env.nAllocs + 1 } })

/-- R191, R195: in task context CHANNEL_RESET and PORT_INITIALIZER enter their pseudocode, in the spec's order, before the
rest of the running command's. The granularity is the model's (log 6). -/
def Obligations.InitializersEnter : Prop :=
  ∀ (s : State) (p : Byte) (cmd : Instr) (rest : List Stmt), p.toNat < s.nports → s.cpu = .task →
    (s.port p.toNat).tpc = .inCmd cmd rest →
    let q := s.port p.toNat
    let ctl (k : Action) : Stmt := .op (.ctl p 0 (.act k))
    let entered (l : List Stmt) : State :=
      { s with ports := s.ports.set p.toNat { q with tpc := .inCmd cmd (l ++ rest) } }
    exec (.channelReset p) s = .next (entered
      [.op (.getReg p .selStatus), ctl (if q.cfg.ctrlPrimary = q.cfg.ctrlOwn then .chresetA else .chresetB)])
    ∧ exec (.portInitializer p) s = .next (entered
      [.op (.channelReset p), ctl .fmt, ctl .rx8Dis, .op (.mcw p s.par.mcTx8), ctl .miscClr, ctl .clkBrg, .baud,
       ctl .brgEn, ctl .extCtsOnly, ctl .rstLatch, ctl .rxEn, .op (.mcw p (s.par.mcTx8 ||| s.par.mcTxen)),
       ctl .intDisAll, ctl .rstTxcrc])

/-- R195, R41, R85: PORT_INITIALIZER run without interruption takes 19 TASK steps; its 16 bus events in order, low divisor
byte first, `mc` at TX8 | TXEN, and the interrupt-enable image it leaves. The granularity is the model's (log 6, 8). -/
def Obligations.PortInitializerRuns : Prop :=
  ∀ (s : State) (p : Byte) (cmd : Instr) (rest : List Stmt) (d : BitVec 16) (cs : List Choice),
    p.toNat < s.nports → s.fault = none → s.cpu = .task → chosen p.toNat 19 cs s →
    (s.port p.toNat).tpc = .inCmd cmd (.op (.portInitializer p) :: rest) →
    s.par.baudDiv (s.port p.toNat).cfg.clockHz (s.port p.toNat).cfg.baud = some d →
    let q := s.port p.toNat
    let v := nextByte s
    let ctl (k : Action) : Event := ctlEvent s.par q.cfg k 0
    run 19 s = .next { s with
      cur := p.toNat
      ports := s.ports.set p.toNat { q with
        mc := some (s.par.mcTx8 ||| s.par.mcTxen)
        ie := ⟨some false, some false, some false, none, some .ctsOnly⟩
        tpc := .inCmd cmd rest
        lat := .byte v }
      trace := s.trace ++ [.rdReg q.cfg.ctrlOwn s.par.selStatus v,
        ctl (if q.cfg.ctrlPrimary = q.cfg.ctrlOwn then .chresetA else .chresetB), ctl .fmt, ctl .rx8Dis,
        mcwEvent s.par q.cfg s.par.mcTx8, ctl .miscClr, ctl .clkBrg,
        ctlEvent s.par q.cfg .brgLo (d.extractLsb' 0 8), ctlEvent s.par q.cfg .brgHi (d.extractLsb' 8 8),
        ctl .brgEn, ctl .extCtsOnly, ctl .rstLatch, ctl .rxEn, mcwEvent s.par q.cfg (s.par.mcTx8 ||| s.par.mcTxen),
        ctl .intDisAll, ctl .rstTxcrc]
      env := envAfter 19 1 cs s }

/-- R306, R196: at step 6 an undefined divisor raises F_BAUD under the command in flight, and the position stays; the divisor
function is the default where the launch says nothing else, and the default is undefined at baud 0 and wherever the formula
leaves 0..65535. The granularity is the model's (log 6), and so are the launch's list of differences (log 3) and the OP recorded
where the command in flight is neither INIT_INT nor INIT_POLL (log 34). -/
def Obligations.UndefinedBaudFaults : Prop :=
  (∀ (s : State) (p : Nat) (cmd : Instr) (rest : List Stmt), p < s.nports → s.fault = none → s.cpu = .task →
    nextChoice s = .task p → (s.port p).tpc = .inCmd cmd (.baud :: rest) →
    s.par.baudDiv (s.port p).cfg.clockHz (s.port p).cfg.baud = none →
    step s = .next { s with
      cur := p
      trace := s.trace ++ [.fault .baud p cmd.op]
      fault := some ⟨.baud, p, cmd.op⟩
      env := { s.env with sched := s.env.sched.tail, nSched := s.env.nSched + 1 } })
  ∧ (∀ c b : Nat, baudDivDefault c b =
      if b = 0 ∨ c / (32 * b) < 2 ∨ 65537 < c / (32 * b) then none else some (BitVec.ofNat 16 (c / (32 * b) - 2)))
  ∧ (∀ (par : Params) (c b : Nat), (par.baudOver.lookup (c, b) = none → par.baudDiv c b = baudDivDefault c b)
      ∧ ∀ d, par.baudOver.lookup (c, b) = some d → par.baudDiv c b = d)

/-- R199, R50: registration adds the vector to the set at most once, and always records VREG. R199 gives it a channel-A port; on
a channel-B port it is the model's choice (log 30). -/
def Obligations.VectorRegistration : Prop :=
  ∀ (s : State) (p : Byte), p.toNat < s.nports →
    let v := (s.port p.toNat).cfg.vector
    (v ∈ s.vreg → exec (.registerVector p) s = .next { s with trace := s.trace ++ [.vreg v] })
    ∧ (v ∉ s.vreg →
      exec (.registerVector p) s = .next { s with vreg := s.vreg ++ [v], trace := s.trace ++ [.vreg v] })

/-- R205, R206, R207: the checks of INIT_INT and INIT_POLL in their order, and the pseudocode each enters when they pass. The
granularity is the model's (log 6, 7). -/
def Obligations.InitCommandsBegin : Prop :=
  ∀ (s : State) (p : Byte) (i : Instr) (m : Mode) (body : List Stmt), p.toNat < s.nports →
    (i = .initInt p ∧ m = .interrupt
        ∧ body = [.op (.alloc p), .allocTest, .op (.portInitializer p), .initReady]
          ++ (if (s.port p.toNat).cfg.strategy ≠ .rtscts then [.op (.negateRts p)] else [])
          ++ (if (s.port p.toNat).cfg.ctrlPrimary = (s.port p.toNat).cfg.ctrlOwn then [.op (.registerVector p)] else [])
          ++ [.op (.ctl p 0 (.act .intEnAll)), .op (.ctl p 0 (.act .mie)), .ret (.int 0)]
      ∨ i = .initPoll p ∧ m = .polled
        ∧ body = [.op (.alloc p), .allocTest, .op (.portInitializer p), .initReady, .ret (.int 0)]) →
    let q := s.port p.toNat
    let faulted (f : FaultCode) : State :=
      { s with trace := s.trace ++ [.fault f p.toNat i.op], fault := some ⟨f, p.toNat, i.op⟩ }
    (q.life = .failed → exec i s = .next (faulted .portFailed))
    ∧ (q.life = .initializing ∨ q.life = .ready → exec i s = .next (faulted .alreadyInit))
    ∧ (q.life = .uninit → q.cfg.mode ≠ m → exec i s = .next (faulted .mode))
    ∧ (q.life = .uninit → q.cfg.mode = m →
      exec i s = .next { s with ports := s.ports.set p.toNat { q with tpc := .inCmd i body } })

/-- R206: INIT_INT run without interruption from its decode step to its return, under every strategy and channel. The
granularity is the model's (log 6, 7, 8). -/
def Obligations.InitIntRuns : Prop :=
  ∀ (s : State) (p : Byte) (d : BitVec 16) (cs : List Choice), AboutToRun (.initInt p) s →
    let q := s.port p.toNat
    let negates : Bool := q.cfg.strategy ≠ .rtscts
    let chanA : Bool := q.cfg.ctrlPrimary = q.cfg.ctrlOwn
    let n := 27 + (if negates then 1 else 0) + (if chanA then 1 else 0)
    chosen p.toNat n cs s → q.life = .uninit → q.cfg.mode = .interrupt → nextAlloc s = true →
    s.par.baudDiv q.cfg.clockHz q.cfg.baud = some d →
    let v := nextByte s
    let ctl (k : Action) : Event := ctlEvent s.par q.cfg k 0
    let m1 : Byte := s.par.mcTx8 ||| s.par.mcTxen
    let m2 : Byte := if negates then m1 &&& ~~~s.par.mcRts else m1
    run n s = .next { s with
      cur := p.toNat
      vreg := if chanA ∧ q.cfg.vector ∉ s.vreg then s.vreg ++ [q.cfg.vector] else s.vreg
      ports := s.ports.set p.toNat { q with
        life := .ready
        mc := some m2
        txActive := some false
        rb := some ⟨List.replicate s.par.rbCap none, 0, 0, 0⟩
        ie := ⟨some true, some true, some true, some true, some .ctsOnly⟩
        res := some (.int 0)
        hpc := q.hpc + 1
        lat := .byte v }
      trace := s.trace ++ [.alloc p.toNat true, .rdReg q.cfg.ctrlOwn s.par.selStatus v,
        ctl (if chanA then .chresetA else .chresetB), ctl .fmt, ctl .rx8Dis, mcwEvent s.par q.cfg s.par.mcTx8,
        ctl .miscClr, ctl .clkBrg, ctlEvent s.par q.cfg .brgLo (d.extractLsb' 0 8),
        ctlEvent s.par q.cfg .brgHi (d.extractLsb' 8 8), ctl .brgEn, ctl .extCtsOnly, ctl .rstLatch, ctl .rxEn,
        mcwEvent s.par q.cfg m1, ctl .intDisAll, ctl .rstTxcrc]
        ++ (if negates then [mcwEvent s.par q.cfg m2] else [])
        ++ (if chanA then [.vreg q.cfg.vector] else [])
        ++ [ctl .intEnAll, ctl .mie, .ret p.toNat 0x02 (.int 0)]
      env := { envAfter n 1 cs s with allocs := s.env.allocs.tail, nAllocs := s.env.nAllocs + 1 } }

/-- R207: INIT_POLL run without interruption from its decode step to its return: no RTS negate, no vector, no enables. The
granularity is the model's (log 6, 7, 8). -/
def Obligations.InitPollRuns : Prop :=
  ∀ (s : State) (p : Byte) (d : BitVec 16) (cs : List Choice), AboutToRun (.initPoll p) s →
    let q := s.port p.toNat
    chosen p.toNat 25 cs s → q.life = .uninit → q.cfg.mode = .polled → nextAlloc s = true →
    s.par.baudDiv q.cfg.clockHz q.cfg.baud = some d →
    let v := nextByte s
    let ctl (k : Action) : Event := ctlEvent s.par q.cfg k 0
    let m1 : Byte := s.par.mcTx8 ||| s.par.mcTxen
    run 25 s = .next { s with
      cur := p.toNat
      ports := s.ports.set p.toNat { q with
        life := .ready
        mc := some m1
        txActive := some false
        rb := some ⟨List.replicate s.par.rbCap none, 0, 0, 0⟩
        ie := ⟨some false, some false, some false, none, some .ctsOnly⟩
        res := some (.int 0)
        hpc := q.hpc + 1
        lat := .byte v }
      trace := s.trace ++ [.alloc p.toNat true, .rdReg q.cfg.ctrlOwn s.par.selStatus v,
        ctl (if q.cfg.ctrlPrimary = q.cfg.ctrlOwn then .chresetA else .chresetB), ctl .fmt, ctl .rx8Dis,
        mcwEvent s.par q.cfg s.par.mcTx8, ctl .miscClr, ctl .clkBrg, ctlEvent s.par q.cfg .brgLo (d.extractLsb' 0 8),
        ctlEvent s.par q.cfg .brgHi (d.extractLsb' 8 8), ctl .brgEn, ctl .extCtsOnly, ctl .rstLatch, ctl .rxEn,
        mcwEvent s.par q.cfg m1, ctl .intDisAll, ctl .rstTxcrc, .ret p.toNat 0x03 (.int 0)]
      env := { envAfter 25 1 cs s with allocs := s.env.allocs.tail, nAllocs := s.env.nAllocs + 1 } }

/-- R200, R206, R207, R309: when the allocation fails, either command returns ERR_NOMEM and leaves the port FAILED with no
runtime field written and no bus access made. The granularity is the model's (log 6, 7, 8). -/
def Obligations.FailedAllocationReturnsErrNomem : Prop :=
  ∀ (s : State) (p : Byte) (i : Instr) (m : Mode) (cs : List Choice),
    (i = .initInt p ∧ m = .interrupt ∨ i = .initPoll p ∧ m = .polled) → AboutToRun i s → chosen p.toNat 4 cs s →
    (s.port p.toNat).life = .uninit → (s.port p.toNat).cfg.mode = m → nextAlloc s = false →
    run 4 s = .next { s with
      cur := p.toNat
      ports := s.ports.set p.toNat { s.port p.toNat with
        life := .failed
        res := some .errNomem
        hpc := (s.port p.toNat).hpc + 1
        lat := .bool false }
      trace := s.trace ++ [.alloc p.toNat false, .ret p.toNat i.op .errNomem]
      env := { envAfter 4 0 cs s with allocs := s.env.allocs.tail, nAllocs := s.env.nAllocs + 1 } }

/-! ### Flow control -/

/-- R221 to R224: the four line micro-operations; on a shadow byte that was never written each raises F_UNDEF_READ under its
own name. -/
def Obligations.LineOperations : Prop :=
  (∀ (s : State) (p : Byte) (i : Instr), p.toNat < s.nports → (s.port p.toNat).mc = none →
    i = .assertRts p ∨ i = .negateRts p ∨ i = .assertDtr p ∨ i = .negateDtr p →
    exec i s = .next { s with
      trace := s.trace ++ [.fault .undefRead p.toNat i.op], fault := some ⟨.undefRead, p.toNat, i.op⟩ })
  ∧ ∀ (s : State) (p m : Byte), p.toNat < s.nports → (s.port p.toNat).mc = some m →
    let wrote (v : Byte) : State :=
      { s with
        ports := s.ports.set p.toNat { s.port p.toNat with mc := some v }
        trace := s.trace ++ [.wrReg (s.port p.toNat).cfg.ctrlOwn s.par.selMc v .selMc] }
    exec (.assertRts p) s = .next (wrote (m ||| s.par.mcRts))
    ∧ exec (.negateRts p) s = .next (wrote (m &&& ~~~s.par.mcRts))
    ∧ exec (.assertDtr p) s = .next (wrote (m ||| s.par.mcDtr))
    ∧ exec (.negateDtr p) s = .next (wrote (m &&& ~~~s.par.mcDtr))

/-- R230: under well-formed masks each line micro-operation changes at most its one bit of `mc`, and a second one right after
the first leaves the pattern as it is, though it writes the register again. -/
def Obligations.OneBitLaw : Prop :=
  ∀ (s t u : State) (p m m' m'' mask : Byte) (i : Instr), s.par.wf = true → p.toNat < s.nports →
    ((i = .assertRts p ∨ i = .negateRts p) ∧ mask = s.par.mcRts
      ∨ (i = .assertDtr p ∨ i = .negateDtr p) ∧ mask = s.par.mcDtr) →
    exec i s = .next t → exec i t = .next u →
    (s.port p.toNat).mc = some m → (t.port p.toNat).mc = some m' → (u.port p.toNat).mc = some m'' →
    (∃ n < 8, mask = 1#8 <<< n)
    ∧ (m ^^^ m' = 0 ∨ m ^^^ m' = mask)
    ∧ m' &&& s.par.mcTxen = m &&& s.par.mcTxen
    ∧ m'' = m'
    ∧ u.trace = t.trace ++ [mcwEvent s.par (s.port p.toNat).cfg m'']

/-- R228, R229, R308: on a READY port FC_ASSERT and FC_NEGATE enter the strategy's callback, and under NONE raise
F_NO_STRATEGY; run without interruption from their decode step they make its one modem-control write and return 0 (R299). The
granularity is the model's (log 6, 7). -/
def Obligations.StrategyCommandsBegin : Prop :=
  (∀ (s : State) (p : Byte), p.toNat < s.nports → (s.port p.toNat).life = .ready →
    let q := s.port p.toNat
    let entered (i op : Instr) : State :=
      { s with ports := s.ports.set p.toNat { q with tpc := .inCmd i [.op op, .ret (.int 0)] } }
    let faulted (i : Instr) : State :=
      { s with trace := s.trace ++ [.fault .noStrategy p.toNat i.op], fault := some ⟨.noStrategy, p.toNat, i.op⟩ }
    (q.cfg.strategy = .rtscts →
      exec (.fcAssert p) s = .next (entered (.fcAssert p) (.assertRts p))
      ∧ exec (.fcNegate p) s = .next (entered (.fcNegate p) (.negateRts p)))
    ∧ (q.cfg.strategy = .dtrcts →
      exec (.fcAssert p) s = .next (entered (.fcAssert p) (.assertDtr p))
      ∧ exec (.fcNegate p) s = .next (entered (.fcNegate p) (.negateDtr p)))
    ∧ (q.cfg.strategy = .none →
      exec (.fcAssert p) s = .next (faulted (.fcAssert p)) ∧ exec (.fcNegate p) s = .next (faulted (.fcNegate p))))
  ∧ (∀ (s : State) (p m : Byte) (i : Instr) (f : Byte → Byte) (cs : List Choice),
    let q := s.port p.toNat
    (i = .fcAssert p ∧ (q.cfg.strategy = .rtscts ∧ f = (fun m => m ||| s.par.mcRts)
          ∨ q.cfg.strategy = .dtrcts ∧ f = fun m => m ||| s.par.mcDtr)
      ∨ i = .fcNegate p ∧ (q.cfg.strategy = .rtscts ∧ f = (fun m => m &&& ~~~s.par.mcRts)
          ∨ q.cfg.strategy = .dtrcts ∧ f = fun m => m &&& ~~~s.par.mcDtr)) →
    AboutToRun i s → chosen p.toNat 4 cs s → q.life = .ready → q.mc = some m →
    run 4 s = .next { s with
      cur := p.toNat
      ports := s.ports.set p.toNat { q with mc := some (f m), res := some (.int 0), hpc := q.hpc + 1 }
      trace := s.trace ++ [mcwEvent s.par q.cfg (f m), .ret p.toNat i.op (.int 0)]
      env := envAfter 4 0 cs s })

/-! ### Process engine -/

/-- R241: RX_PHASE. With the RX bit clear it does nothing; with it set one turn of the loop reads the status, and where RCA
holds reads the data register, hands the byte up and comes again. The granularity is the model's (log 10). -/
def Obligations.ReceivePhase : Prop :=
  ∀ (s : State) (p : Byte), p.toNat < s.nports →
    let q := s.port p.toNat
    let v := nextByte s
    let s1 : State := { takeByte s with trace := s.trace ++ [.rdReg q.cfg.ctrlOwn s.par.selStatus v] }
    let c := nextByte s1
    (s.pbits.getLsbD 2 = false → exec (.rxPhase p) s = .next s)
    ∧ (s.pbits.getLsbD 2 = true → v &&& s.par.pRca = 0 → exec (.rxPhase p) s = .next s1)
    ∧ (s.pbits.getLsbD 2 = true → v &&& s.par.pRca ≠ 0 → s.cpu = .isr → ∀ k, s.ipc = some k →
      exec (.rxPhase p) s = .next { takeByte s1 with
        ports := s.ports.set p.toNat { q with upq := q.upq ++ [c] }
        trace := s.trace ++ [.rdReg q.cfg.ctrlOwn s.par.selStatus v, .rdData q.cfg.dataAddr c, .up p.toNat c]
        ipc := some { k with stage := .op (.rxPhase p) :: k.stage } })

/-- R242, R225: the four branches of TX_PHASE on one status read. -/
def Obligations.TransmitPhase : Prop :=
  ∀ (s : State) (p : Byte) (r : Ring), p.toNat < s.nports → (s.port p.toNat).rb = some r →
    let q := s.port p.toNat
    let v := nextByte s
    let read : Event := .rdReg q.cfg.ctrlOwn s.par.selStatus v
    let tbe : Prop := v &&& s.par.pTbe ≠ 0
    let cts : Prop := v &&& s.par.pCts ≠ 0
    let ie (b : Bool) : IeImage := { q.ie with tx := some b }
    let left (q' : Port) (es : List Event) : State :=
      { takeByte s with ports := s.ports.set p.toNat q', trace := s.trace ++ read :: es }
    (¬tbe → exec (.txPhase p) s = .next { takeByte s with trace := s.trace ++ [read] })
    ∧ (tbe → ¬cts →
      exec (.txPhase p) s = .next (left { q with ie := ie false } [ctlEvent s.par q.cfg .txintDis 0]))
    ∧ (tbe → cts → r.count = 0 → q.cfg.strategy = .rtscts →
      exec (.txPhase p) s = .next (left { q with txActive := some false, ie := ie false }
        [ctlEvent s.par q.cfg .txintDis 0]))
    ∧ (tbe → cts → r.count = 0 → q.cfg.strategy ≠ .rtscts → ∀ m, q.mc = some m →
      exec (.txPhase p) s = .next (left
        { q with txActive := some false, mc := some (m &&& ~~~s.par.mcRts), ie := ie false }
        [mcwEvent s.par q.cfg (m &&& ~~~s.par.mcRts), ctlEvent s.par q.cfg .txintDis 0]))
    ∧ (tbe → cts → r.count ≠ 0 → ∀ b, r.buf.getD r.head none = some b →
      exec (.txPhase p) s = .next (left
        { q with
          rb := some ⟨r.buf.set r.head none, (r.head + 1) % s.par.rbCap, r.tail, r.count - 1⟩
          ie := ie true }
        [.wrData q.cfg.dataAddr b, ctlEvent s.par q.cfg .txintEn 0]))

/-- R243: the at-most-one-byte law, on every port whose ring meets R43. -/
def Obligations.AtMostOneByte : Prop :=
  ∀ (s t : State) (p : Byte) (r : Ring), (s.port p.toNat).rb = some r → r.wf s.par.rbCap = true →
    exec (.txPhase p) s = .next t →
    let es := newEvents s t
    let v := nextByte s
    (es.filter Event.isAnyWrData).length ≤ 1
    ∧ ((es.filter Event.isAnyWrData).length = 1 ↔ s.par.tbe v = true ∧ s.par.cts v = true ∧ r.count ≠ 0)
    ∧ (s.par.cts v = false → es.filter Event.isAnyWrData = [])
    ∧ (s.par.tbe v = true → s.par.cts v = false → (es.filter (Event.isCtl .txintDis)).length = 1)
    ∧ (s.par.tbe v = false → es = [.rdReg (s.port p.toNat).cfg.ctrlOwn s.par.selStatus v])

/-- R244, R245, R249: EXT_PHASE, EOI and UP. -/
def Obligations.ExternalPhaseEoiAndUp : Prop :=
  ∀ (s : State) (p c : Byte), p.toNat < s.nports →
    let q := s.port p.toNat
    (s.pbits.getLsbD 0 = false → exec (.extPhase p) s = .next s)
    ∧ (s.pbits.getLsbD 0 = true →
      exec (.extPhase p) s = .next { takeByte s with
        trace := s.trace ++ [ctlEvent s.par q.cfg .rstExt 0, .rdReg q.cfg.ctrlOwn s.par.selStatus (nextByte s)] })
    ∧ exec (.eoi p) s = .next { s with trace := s.trace ++ [ctlEvent s.par q.cfg .rstHius 0] }
    ∧ exec (.up p c) s = .next { s with
        ports := s.ports.set p.toNat { q with upq := q.upq ++ [c] }
        trace := s.trace ++ [.up p.toNat c] }

/-- R246: inside an activation PROCESS enters its four phases in their order, the transmit phase and the end of interrupt
whatever the bits are, and passes the pending set on. The phases as statements are the model's (log 6, log 11), and so is an
argument that is no non-zero set of three bits: it runs, its bits above 2 ignored (log 17). -/
def Obligations.ProcessEntersItsPhases : Prop :=
  ∀ (s : State) (p bits : Byte) (k : IsrPc), p.toNat < s.nports → s.cpu = .isr → s.ipc = some k →
    exec (.process p bits) s = .next { s with
      pbits := bits.extractLsb' 0 3
      ipc := some { k with
        stage := [.op (.rxPhase p), .op (.txPhase p), .op (.extPhase p), .op (.eoi p)] ++ k.stage } }

/-- R252, R320, R326: an offered vector enters an activation exactly when R320 enables it, with A_list the READY
interrupt-mode channel-A ports on the vector, ascending; nothing is saved. Through `step`, when ENV offers it (log 5, log 12);
and R51: when ENV chooses so `sys_up` rises, in either context, and nothing else changes. -/
def Obligations.InterruptEntry : Prop :=
  (∀ (s : State) (p : Byte) (v : Vec), s.offer = some v →
    (s.fault = none → s.cpu = .task → v ∈ s.vreg →
      exec (.isrEntry p) s = .next { s with
        offer := none
        cpu := .isr
        ipc := some ⟨v, (List.range s.nports).filter fun a =>
          decide ((s.port a).cfg.vector = v ∧ (s.port a).cfg.ctrlPrimary = (s.port a).cfg.ctrlOwn
            ∧ (s.port a).cfg.mode = .interrupt ∧ (s.port a).life = .ready), 0, [.isrNext]⟩
        trace := s.trace ++ [.irq v] })
    ∧ (¬(s.fault = none ∧ s.cpu = .task ∧ v ∈ s.vreg) → exec (.isrEntry p) s = .next { s with offer := none }))
  ∧ (∀ (s : State) (v : Vec), s.fault = none → s.cpu = .task → nextChoice s = .irq v →
    step s = exec (.isrEntry 0) { takeChoice s with offer := some v })
  ∧ (∀ s : State, s.fault = none → nextChoice s = .sysUp → step s = .next { takeChoice s with sysUp := true })

/-- R33: `partnerB(a)` is the lowest-numbered port with the four properties, and none if no port has them. -/
def Obligations.PartnerIsTheLowest : Prop :=
  ∀ (s : State) (a : Nat),
    let ok (b : Nat) : Prop := b < s.nports ∧ (s.port b).cfg.ctrlPrimary = (s.port a).cfg.ctrlOwn
      ∧ (s.port b).cfg.ctrlOwn ≠ (s.port b).cfg.ctrlPrimary ∧ (s.port b).cfg.mode = .interrupt ∧ (s.port b).life = .ready
    (∀ b, partnerB a s = some b ↔ ok b ∧ ∀ b' < b, ¬ok b') ∧ (partnerB a s = none ↔ ∀ b, ¬ok b)

/-- R252, R253, R327: the activation's loop over its ports, what one read of the pending register leads to, and the return;
R176: the two channel-local sets of a pending byte where the launch says nothing else. The granularity is the model's (log 6,
8), and so is the launch's list of differences (log 3). -/
def Obligations.ServiceLoopAndReturn : Prop :=
  (∀ (s : State) (k : IsrPc), s.fault = none → s.cpu = .isr → nextChoice s ≠ .sysUp → s.ipc = some k →
    (k.stage = [.isrNext] → ∀ a, k.aList[k.i]? = some a →
      step s = .next { takeChoice s with ipc := some { k with
        stage := [.op (.getReg (BitVec.ofNat 8 a) .selPending), .serviceTest a, .isrNext] } })
    ∧ (k.stage = [.isrNext] → k.aList.length ≤ k.i →
      step s = .next { takeChoice s with cpu := .task, ipc := none, trace := s.trace ++ [.iend k.v] })
    ∧ (∀ a rest v, k.stage = .serviceTest a :: rest → s.isrLat = .byte v →
      let setA := s.par.chanA v
      let again : List Stmt := [.op (.getReg (BitVec.ofNat 8 a) .selPending), .serviceTest a] ++ rest
      let procA : List Stmt := [.op (.process (BitVec.ofNat 8 a) (setA.setWidth 8))]
      let at_ (l : List Stmt) : State := { takeChoice s with ipc := some { k with stage := l } }
      (partnerB a s = none →
        (setA = 0 → step s = .next { takeChoice s with ipc := some { k with i := k.i + 1, stage := rest } })
        ∧ (setA ≠ 0 → step s = .next (at_ (procA ++ again))))
      ∧ (∀ b, partnerB a s = some b →
        let setB := s.par.chanB v
        let procB : List Stmt := [.op (.process (BitVec.ofNat 8 b) (setB.setWidth 8))]
        (setA = 0 → setB = 0 →
          step s = .next { takeChoice s with ipc := some { k with i := k.i + 1, stage := rest } })
        ∧ (setA ≠ 0 → setB = 0 → step s = .next (at_ (procA ++ again)))
        ∧ (setA = 0 → setB ≠ 0 → step s = .next (at_ (procB ++ again)))
        ∧ (setA ≠ 0 → setB ≠ 0 → step s = .next (at_ (procA ++ procB ++ again))))))
  ∧ (∀ (par : Params) (v : Byte),
    (par.chanAOver.lookup v = none → (par.chanA v).setWidth 8 = (v >>> 3) &&& 7)
    ∧ (∀ x, par.chanAOver.lookup v = some x → par.chanA v = x)
    ∧ (par.chanBOver.lookup v = none → (par.chanB v).setWidth 8 = v &&& 7)
    ∧ (∀ x, par.chanBOver.lookup v = some x → par.chanB v = x))

/-- R256, R226: KICK. With `tx_active` ⊥ it raises; with it true it does nothing and answers BUSY; with it false it asserts
RTS under every strategy, sets `tx_active`, runs the transmit phase in the same step and answers KICKED. R256 gives it an
interrupt-mode READY port; on any other it is the model's choice (log 31). -/
def Obligations.KickStart : Prop :=
  ∀ (s : State) (p : Byte), p.toNat < s.nports →
    let q := s.port p.toNat
    (q.txActive = none → exec (.kick p) s = .next { s with
      trace := s.trace ++ [.fault .undefRead p.toNat 0x9E], fault := some ⟨.undefRead, p.toNat, 0x9E⟩ })
    ∧ (q.txActive = some true → exec (.kick p) s = .next (setLat p.toNat .busy s))
    ∧ (q.txActive = some false → ∀ m r, q.mc = some m → q.rb = some r → r.wf s.par.rbCap = true → s.fault = none →
      let m' : Byte := m ||| s.par.mcRts
      let s1 : State := { s with
        ports := s.ports.set p.toNat { q with mc := some m', txActive := some true }
        trace := s.trace ++ [mcwEvent s.par q.cfg m'] }
      ∃ t, exec (.txPhase p) s1 = .next t ∧ t.fault = none ∧ exec (.kick p) s = .next (setLat p.toNat .kicked t))

/-! ### Lifecycle and input and output -/

/-- R271, R291: PROBE returns 1 in every life state; SET_ATTR on a READY port enters `return 0`. Run without interruption from
their decode step they return 1 and 0 and do nothing else. The granularity is the model's (log 6, 7). -/
def Obligations.ProbeAndSetAttr : Prop :=
  (∀ (s : State) (p : Byte), p.toNat < s.nports →
    let q := s.port p.toNat
    exec (.probe p) s = .next { s with
        ports := s.ports.set p.toNat { q with res := some (.int 1), tpc := .idle }
        trace := s.trace ++ [.ret p.toNat 0x01 (.int 1)] }
    ∧ (q.life = .ready →
      exec (.setAttr p) s
        = .next { s with ports := s.ports.set p.toNat { q with tpc := .inCmd (.setAttr p) [.ret (.int 0)] } }))
  ∧ (∀ (s : State) (p : Byte) (cs : List Choice),
    let q := s.port p.toNat
    let returned (n : Nat) (op : Byte) (r : Res) : State :=
      { s with
        cur := p.toNat
        ports := s.ports.set p.toNat { q with res := some r, hpc := q.hpc + 1 }
        trace := s.trace ++ [.ret p.toNat op r]
        env := envAfter n 0 cs s }
    (AboutToRun (.probe p) s → chosen p.toNat 2 cs s → run 2 s = .next (returned 2 0x01 (.int 1)))
    ∧ (AboutToRun (.setAttr p) s → chosen p.toNat 3 cs s → q.life = .ready →
      run 3 s = .next (returned 3 0x0B (.int 0))))

/-- R272, R273, R280, R283, R285, R287, R289, R227: on a READY port, in a mode that binds the command, each command enters
its pseudocode; nothing else changes. The granularity is the model's (log 6, 7). -/
def Obligations.CommandsEnterTheirPseudocode : Prop :=
  ∀ (s : State) (p b : Byte) (xs : List Byte), p.toNat < s.nports → (s.port p.toNat).life = .ready →
    let q := s.port p.toNat
    let entered (i : Instr) (l : List Stmt) : State := { s with ports := s.ports.set p.toNat { q with tpc := .inCmd i l } }
    let dtr (i : Instr) : List Stmt := if q.cfg.strategy = .dtrcts then [] else [.op i]
    exec (.openPort p) s = .next (entered (.openPort p) (dtr (.assertDtr p) ++ [.ret (.int 0)]))
    ∧ exec (.closePort p) s = .next (entered (.closePort p) (dtr (.negateDtr p) ++ [.ret (.int 0)]))
    ∧ exec (.flush p) s
      = .next (entered (.flush p) ([.op (.rbIsEmpty p), .flushTest] ++ (dtr (.negateDtr p) ++ [.ret (.int 0)])))
    ∧ exec (.writePolled p b) s
      = .next (entered (.writePolled p b) [.op (.getReg p .selStatus), .putTest b, .ret (.int 0)])
    ∧ (q.cfg.mode = .interrupt → exec (.writeInt p xs) s = .next (entered (.writeInt p xs) [.writeByte 0]))
    ∧ (q.cfg.mode = .polled →
      exec (.writePoll p xs) s = .next (entered (.writePoll p xs) [.pollByte 0])
      ∧ exec (.readPolled p) s = .next (entered (.readPolled p) [.op (.getReg p .selStatus), .readTest]))

/-- R310, R297, R311, R116: the checks of the host commands but PROBE, INIT_INT and INIT_POLL, in their order: the port is
configured, it has not failed, it is READY, its mode binds the command. -/
def Obligations.HostChecksInOrder : Prop :=
  ∀ (s : State) (i : Instr), 0x04 ≤ i.op.toNat → i.op.toNat ≤ 0x0D →
    let p := i.port.toNat
    let q := s.port p
    let faulted (f : FaultCode) (r : Nat) : State :=
      { s with trace := s.trace ++ [.fault f r i.op], fault := some ⟨f, r, i.op⟩ }
    (s.nports ≤ p → exec i s = .next (faulted .badPort s.cur))
    ∧ (p < s.nports → q.life = .failed → exec i s = .next (faulted .portFailed p))
    ∧ (p < s.nports → q.life = .uninit ∨ q.life = .initializing → exec i s = .next (faulted .portUninit p))
    ∧ (p < s.nports → q.life = .ready → i.op = 0x07 → q.cfg.mode = .polled → exec i s = .next (faulted .mode p))
    ∧ (p < s.nports → q.life = .ready → i.op = 0x08 ∨ i.op = 0x0A → q.cfg.mode = .interrupt →
      exec i s = .next (faulted .mode p))

/-- R272, R273, R227: OPEN and CLOSE run without interruption. Under DTRCTS they make no bus access; else DTR is asserted, or
negated, by one modem-control write. The granularity is the model's (log 6, 7, 8). -/
def Obligations.OpenAndCloseRun : Prop :=
  ∀ (s : State) (p : Byte) (i : Instr) (f : Byte → Byte) (cs : List Choice),
    (i = .openPort p ∧ f = (fun m => m ||| s.par.mcDtr) ∨ i = .closePort p ∧ f = fun m => m &&& ~~~s.par.mcDtr) →
    AboutToRun i s → (s.port p.toNat).life = .ready →
    let q := s.port p.toNat
    (q.cfg.strategy ≠ .dtrcts → chosen p.toNat 4 cs s → ∀ m, q.mc = some m →
      run 4 s = .next { s with
        cur := p.toNat
        ports := s.ports.set p.toNat { q with mc := some (f m), res := some (.int 0), hpc := q.hpc + 1 }
        trace := s.trace ++ [mcwEvent s.par q.cfg (f m), .ret p.toNat i.op (.int 0)]
        env := envAfter 4 0 cs s })
    ∧ (q.cfg.strategy = .dtrcts → chosen p.toNat 3 cs s →
      run 3 s = .next { s with
        cur := p.toNat
        ports := s.ports.set p.toNat { q with res := some (.int 0), hpc := q.hpc + 1 }
        trace := s.trace ++ [.ret p.toNat i.op (.int 0)]
        env := envAfter 3 0 cs s })

/-- R280, R345: FLUSH at its test. While the ring is not empty it waits and tests again, without a bound; once it is, the
close follows. Run without interruption from its decode step on an empty ring it closes and returns 0: DTR is negated by one
modem-control write, or under DTRCTS by none. The granularity is the model's (log 6, 7, 8). -/
def Obligations.FlushLoop : Prop :=
  (∀ (s : State) (p : Byte) (cmd : Instr) (rest : List Stmt) (b : Bool), p.toNat < s.nports → s.fault = none →
    s.cpu = .task → nextChoice s = .task p.toNat → (s.port p.toNat).tpc = .inCmd cmd (.flushTest :: rest) →
    (s.port p.toNat).lat = .bool b →
    step s = .next { takeChoice s with
      cur := p.toNat
      ports := s.ports.set p.toNat { s.port p.toNat with
        tpc := .inCmd cmd (if b then rest else [.op (.wait p), .op (.rbIsEmpty p), .flushTest] ++ rest) } })
  ∧ (∀ (s : State) (p : Byte) (r : Ring) (cs : List Choice), AboutToRun (.flush p) s →
    let q := s.port p.toNat
    q.life = .ready → q.rb = some r → r.count = 0 →
    (q.cfg.strategy ≠ .dtrcts → chosen p.toNat 6 cs s → ∀ m, q.mc = some m →
      let m' : Byte := m &&& ~~~s.par.mcDtr
      run 6 s = .next { s with
        cur := p.toNat
        ports := s.ports.set p.toNat { q with
          mc := some m', res := some (.int 0), hpc := q.hpc + 1, lat := .bool true }
        trace := s.trace ++ [mcwEvent s.par q.cfg m', .ret p.toNat 0x06 (.int 0)]
        env := envAfter 6 0 cs s })
    ∧ (q.cfg.strategy = .dtrcts → chosen p.toNat 5 cs s →
      run 5 s = .next { s with
        cur := p.toNat
        ports := s.ports.set p.toNat { q with res := some (.int 0), hpc := q.hpc + 1, lat := .bool true }
        trace := s.trace ++ [.ret p.toNat 0x06 (.int 0)]
        env := envAfter 5 0 cs s }))

/-- R283: the loop of WRITE_INT at each of its positions: a full ring is kicked, and waited on when BUSY; a byte is enqueued
only after a false RB_IS_FULL; after the last byte one more KICK, and the result is the length. And the step of any command
at a `return` (R14, R48): the result, the micro-PC idle, the RET event. The granularity is the model's (log 6, 8). -/
def Obligations.WriteIntLoop : Prop :=
  ∀ (s : State) (p : Byte) (cmd : Instr) (k : Nat), p.toNat < s.nports → s.fault = none → s.cpu = .task →
    nextChoice s = .task p.toNat →
    let q := s.port p.toNat
    let n := cmd.payload.length
    let at_ (l : List Stmt) : State :=
      { takeChoice s with cur := p.toNat, ports := s.ports.set p.toNat { q with tpc := .inCmd cmd l } }
    (q.tpc = .inCmd cmd [.writeByte k] → k < n → step s = .next (at_ [.op (.rbIsFull p), .fullTest k]))
    ∧ (q.tpc = .inCmd cmd [.writeByte k] → n ≤ k → step s = .next (at_ [.op (.kick p), .ret (.int n)]))
    ∧ (q.tpc = .inCmd cmd [.fullTest k] → q.lat = .bool false → step s = .next (at_ [.enqueue k]))
    ∧ (q.tpc = .inCmd cmd [.fullTest k] → q.lat = .bool true → step s = .next (at_ [.op (.kick p), .kickTest k]))
    ∧ (q.tpc = .inCmd cmd [.kickTest k] → q.lat = .busy →
      step s = .next (at_ [.op (.wait p), .op (.rbIsFull p), .fullTest k]))
    ∧ (q.tpc = .inCmd cmd [.kickTest k] → q.lat ≠ .busy → step s = .next (at_ [.op (.rbIsFull p), .fullTest k]))
    ∧ (q.tpc = .inCmd cmd [.enqueue k] → ∀ r, q.rb = some r → r.count ≠ s.par.rbCap →
      step s = .next { takeChoice s with
        cur := p.toNat
        ports := s.ports.set p.toNat { q with
          rb := some ⟨r.buf.set r.tail (some (cmd.payload.getD k 0)), r.head, (r.tail + 1) % s.par.rbCap, r.count + 1⟩
          lat := .ok
          tpc := .inCmd cmd [.writeByte (k + 1)] } })
    ∧ (∀ (r : Res) (rest : List Stmt), q.tpc = .inCmd cmd (.ret r :: rest) →
      step s = .next { takeChoice s with
        cur := p.toNat
        ports := s.ports.set p.toNat { q with res := some r, tpc := .idle }
        trace := s.trace ++ [.ret p.toNat cmd.op r] })

/-- R283, R256, R242: WRITE_INT of one byte on an idle transmitter with an empty ring and a peer that is ready, run without
interruption: the byte goes through the ring to the data register, RTS is asserted and the sequence is active. The
granularity is the model's (log 6, 7, 8). -/
def Obligations.WriteIntSendsOneByte : Prop :=
  ∀ (s : State) (p x m : Byte) (r : Ring) (cs : List Choice), AboutToRun (.writeInt p [x]) s → chosen p.toNat 9 cs s →
    let q := s.port p.toNat
    let v := nextByte s
    q.life = .ready → q.cfg.mode = .interrupt → q.txActive = some false → q.mc = some m → q.rb = some r →
    1 ≤ s.par.rbCap → r.wf s.par.rbCap = true → r.count = 0 → s.par.tbe v = true → s.par.cts v = true →
    run 9 s = .next { s with
      cur := p.toNat
      ports := s.ports.set p.toNat { q with
        mc := some (m ||| s.par.mcRts)
        txActive := some true
        rb := some ⟨r.buf.set r.head none, (r.head + 1) % s.par.rbCap, (r.head + 1) % s.par.rbCap, 0⟩
        ie := { q.ie with tx := some true }
        res := some (.int 1)
        hpc := q.hpc + 1
        lat := .kicked }
      trace := s.trace ++ [mcwEvent s.par q.cfg (m ||| s.par.mcRts), .rdReg q.cfg.ctrlOwn s.par.selStatus v,
        .wrData q.cfg.dataAddr x, ctlEvent s.par q.cfg .txintEn 0, .ret p.toNat 0x07 (.int 1)]
      env := envAfter 9 1 cs s }

/-- R287, R288, R344: POLLED_PUT at its test. No data write before a status read with TBE; after one the data write of the
byte is the next statement, a TASK step of its own; else it waits and reads again. And WRITE_POLL's loop (R285): the next byte
while there is one, else the return of the length. The granularity is the model's (log 6, 8). -/
def Obligations.PolledPut : Prop :=
  ∀ (s : State) (p b v : Byte) (cmd : Instr) (rest : List Stmt), p.toNat < s.nports → s.fault = none → s.cpu = .task →
    nextChoice s = .task p.toNat →
    let q := s.port p.toNat
    let at_ (l : List Stmt) : State :=
      { takeChoice s with cur := p.toNat, ports := s.ports.set p.toNat { q with tpc := .inCmd cmd l } }
    (q.tpc = .inCmd cmd (.putTest b :: rest) → q.lat = .byte v → v &&& s.par.pTbe ≠ 0 →
      step s = .next (at_ (.op (.setData p b) :: rest)))
    ∧ (q.tpc = .inCmd cmd (.putTest b :: rest) → q.lat = .byte v → v &&& s.par.pTbe = 0 →
      step s = .next (at_ ([.op (.wait p), .op (.getReg p .selStatus), .putTest b] ++ rest)))
    ∧ (∀ k, q.tpc = .inCmd cmd (.pollByte k :: rest) → k < cmd.payload.length →
      step s = .next (at_ ([.op (.getReg p .selStatus), .putTest (cmd.payload.getD k 0), .pollByte (k + 1)] ++ rest)))
    ∧ (∀ k, q.tpc = .inCmd cmd (.pollByte k :: rest) → cmd.payload.length ≤ k →
      step s = .next { takeChoice s with
        cur := p.toNat
        ports := s.ports.set p.toNat { q with res := some (.int cmd.payload.length), tpc := .idle }
        trace := s.trace ++ [.ret p.toNat cmd.op (.int cmd.payload.length)] })

/-- R287, R288: WRITE_POLLED run without interruption when the first status read has TBE: one status read, one data write of
exactly the byte, result 0; the ring, `tx_active` and `mc` untouched. The granularity is the model's (log 6, 7, 8). -/
def Obligations.WritePolledRuns : Prop :=
  ∀ (s : State) (p b : Byte) (cs : List Choice), AboutToRun (.writePolled p b) s → chosen p.toNat 6 cs s →
    let q := s.port p.toNat
    let v := nextByte s
    q.life = .ready → s.par.tbe v = true →
    run 6 s = .next { s with
      cur := p.toNat
      ports := s.ports.set p.toNat { q with res := some (.int 0), hpc := q.hpc + 1, lat := .byte v }
      trace := s.trace ++ [.rdReg q.cfg.ctrlOwn s.par.selStatus v, .wrData q.cfg.dataAddr b, .ret p.toNat 0x09 (.int 0)]
      env := envAfter 6 1 cs s }

/-- R289: READ_POLLED run without interruption: the byte as result where RCA holds, else NONE; it never waits, and `upq` is
untouched. The granularity is the model's (log 6, 7, 8). -/
def Obligations.ReadPolledRuns : Prop :=
  ∀ (s : State) (p : Byte) (cs : List Choice), AboutToRun (.readPolled p) s →
    let q := s.port p.toNat
    let v := nextByte s
    let c := nextByte (takeByte s)
    q.life = .ready → q.cfg.mode = .polled →
    (s.par.rca v = true → chosen p.toNat 6 cs s →
      run 6 s = .next { s with
        cur := p.toNat
        ports := s.ports.set p.toNat { q with res := some (.int c.toNat), hpc := q.hpc + 1, lat := .byte c }
        trace := s.trace ++ [.rdReg q.cfg.ctrlOwn s.par.selStatus v, .rdData q.cfg.dataAddr c,
          .ret p.toNat 0x0A (.int c.toNat)]
        env := envAfter 6 2 cs s })
    ∧ (s.par.rca v = false → chosen p.toNat 4 cs s →
      run 4 s = .next { s with
        cur := p.toNat
        ports := s.ports.set p.toNat { q with res := some (.int (-1)), hpc := q.hpc + 1, lat := .byte v }
        trace := s.trace ++ [.rdReg q.cfg.ctrlOwn s.par.selStatus v, .ret p.toNat 0x0A (.int (-1))]
        env := envAfter 4 1 cs s })

/-- R296: one wait changes nothing but the trace. -/
def Obligations.WaitOnlyTraces : Prop :=
  ∀ (s : State) (p : Byte), p.toNat < s.nports →
    exec (.wait p) s = .next { s with trace := s.trace ++ [if s.sysUp then .yield p.toNat else .spin p.toNat] }

/-! ### The whole machine -/

/-- The state every well-formed launch boots to meets the invariant. -/
def Obligations.InvariantAtBoot : Prop :=
  ∀ (l : Launch) (s : State), l.boot = some s → Inv s

/-- Every step keeps the invariant: the rings meet R43, the fields of a READY port are written, each micro-PC is at a
position of its agent's pseudocode with what the state must hold there, and interrupt context is exactly where the ISR
micro-PC is. -/
def Obligations.InvariantKept : Prop :=
  ∀ s t : State, Inv s → step s = .next t → Inv t

/-- R304, R305, R307: from a state with the invariant no step raises F_UNDEF_READ, F_OVERFLOW or F_UNDERFLOW. -/
def Obligations.NoInternalFault : Prop :=
  ∀ (s t : State) (f : FaultRec), Inv s → step s = .next t → t.fault = some f →
    f.code ≠ .undefRead ∧ f.code ≠ .overflow ∧ f.code ≠ .underflow

/-- From a state with the invariant and no fault the machine always steps: nothing is refused. That it steps also where no agent
is enabled, by an idle step, is the model's (log 5). -/
def Obligations.NothingIsRefused : Prop :=
  ∀ s : State, Inv s → s.fault = none → ∃ t, step s = .next t

/-- R346, R60, R46, R50, R51: no step changes a parameter, a configuration or a program; the trace, every upstream sequence,
the vector set and `sys_up` only grow. -/
def Obligations.LaunchKeptHistoriesGrow : Prop :=
  ∀ s t : State, step s = .next t →
    t.launch = s.launch ∧ s.trace <+: t.trace ∧ (∀ p, (s.port p).upq <+: (t.port p).upq) ∧ (∀ v ∈ s.vreg, v ∈ t.vreg)
      ∧ (s.sysUp = true → t.sysUp = true)

/-- R37, R209: from a state with the invariant, a port's life state stays or moves forward: UNINIT to INITIALIZING or FAILED,
INITIALIZING to READY. -/
def Obligations.LifeNeverMovesBack : Prop :=
  ∀ (s t : State) (p : Nat), Inv s → step s = .next t →
    (t.port p).life = (s.port p).life
    ∨ ((s.port p).life = .uninit ∧ ((t.port p).life = .initializing ∨ (t.port p).life = .failed))
    ∨ ((s.port p).life = .initializing ∧ (t.port p).life = .ready)

/-- R40: a step that changes `mc` wrote the modem-control register of that port, and the last value it wrote is the new
`mc`. -/
def Obligations.ShadowFollowsTheRegister : Prop :=
  ∀ (s t : State) (p : Nat), step s = .next t →
    (t.port p).mc = (s.port p).mc
    ∨ ∃ v, (t.port p).mc = some v
        ∧ ((newEvents s t).filterMap (Event.mcwValue (s.port p).cfg.ctrlOwn)).getLast? = some v

/-- R300: a step that raises ends the trace with the FAULT event of the record it sets, writes no result, and leaves every
micro-PC, `hpc`, the context and `sys_up` as they were. -/
def Obligations.FaultingStep : Prop :=
  ∀ (s t : State) (f : FaultRec), s.fault = none → step s = .next t → t.fault = some f →
    t.trace.getLast? = some (.fault f.code f.p f.op) ∧ t.cpu = s.cpu ∧ t.ipc = s.ipc ∧ t.sysUp = s.sysUp
      ∧ ∀ p, (t.port p).res = (s.port p).res ∧ (t.port p).tpc = (s.port p).tpc ∧ (t.port p).hpc = (s.port p).hpc

/-- R255, R99: what a step of an activation touches. It never writes `life`, `res`, `tpc`, `hpc` or the vector set, and writes
`sys_up` only when ENV raises it; it changes no field of a port that is not serviced, only removes the head of a ring's queue,
only clears `tx_active`, and changes `mc` only by an RTS negate under NONE or DTRCTS. -/
def Obligations.ActivationFrame : Prop :=
  ∀ s t : State, Inv s → s.cpu = .isr → step s = .next t →
    t.vreg = s.vreg ∧ (t.sysUp = s.sysUp ∨ nextChoice s = .sysUp) ∧ t.launch = s.launch
    ∧ ∀ p, let q := s.port p
      let q' := t.port p
      (serviced s p = false → q' = q)
      ∧ q'.life = q.life ∧ q'.res = q.res ∧ q'.tpc = q.tpc ∧ q'.hpc = q.hpc ∧ q.upq <+: q'.upq
      ∧ (q'.txActive = q.txActive ∨ q'.txActive = some false)
      ∧ (q'.mc = q.mc ∨ (q.cfg.strategy ≠ .rtscts ∧ ∃ m, q.mc = some m ∧ q'.mc = some (m &&& ~~~s.par.mcRts)))
      ∧ (q'.rb = q.rb ∨ ∃ r r' b, q.rb = some r ∧ q'.rb = some r' ∧ r.queue s.par.rbCap = some b :: r'.queue s.par.rbCap)

/-- R333: a step of TASK(p) leaves the record of every other port as it is, and the context, the ISR micro-PC and `sys_up`. -/
def Obligations.TaskTouchesOnlyItsPort : Prop :=
  ∀ (s t : State) (p : Nat), Inv s → s.cpu = .task → nextChoice s = .task p → step s = .next t →
    t.cpu = s.cpu ∧ t.ipc = s.ipc ∧ t.sysUp = s.sysUp ∧ ∀ r, r ≠ p → t.port r = s.port r
end

