-- ==== Sys2Proof/Laws/Decode.lean ====
section
/-! SUPPORT. Words and bytes: a command word and its four stream bytes determine each other, the codes of the register tags
are read back, and what `issue` does with a word that passes R116's checks. -/

namespace Sys2Proof

/-- A bit of a word put together from bytes. -/
theorem bytesWord_getLsbD (b0 b1 b2 b3 : Byte) (i : Nat) :
    (bytesWord b0 b1 b2 b3).getLsbD i
      = if i < 8 then b0.getLsbD i
        else if i - 8 < 8 then b1.getLsbD (i - 8)
        else if i - 8 - 8 < 8 then b2.getLsbD (i - 8 - 8)
        else b3.getLsbD (i - 8 - 8 - 8) := by
  refine (BitVec.getLsbD_append (x := b3 ++ b2 ++ b1) (y := b0)).trans ?_
  rw [BitVec.getLsbD_append, BitVec.getLsbD_append]

@[simp] theorem bytesWord_byte0 (b0 b1 b2 b3 : Byte) : (bytesWord b0 b1 b2 b3).extractLsb' 0 8 = b0 := by
  ext i hi
  rw [BitVec.getElem_extractLsb', bytesWord_getLsbD, Nat.zero_add, if_pos hi, BitVec.getLsbD_eq_getElem]

@[simp] theorem bytesWord_byte1 (b0 b1 b2 b3 : Byte) : (bytesWord b0 b1 b2 b3).extractLsb' 8 8 = b1 := by
  ext i hi
  rw [BitVec.getElem_extractLsb', bytesWord_getLsbD, if_neg (by omega), if_pos (by omega),
    show 8 + i - 8 = i by omega, BitVec.getLsbD_eq_getElem]

@[simp] theorem bytesWord_byte2 (b0 b1 b2 b3 : Byte) : (bytesWord b0 b1 b2 b3).extractLsb' 16 8 = b2 := by
  ext i hi
  rw [BitVec.getElem_extractLsb', bytesWord_getLsbD, if_neg (by omega), if_neg (by omega), if_pos (by omega),
    show 16 + i - 8 - 8 = i by omega, BitVec.getLsbD_eq_getElem]

@[simp] theorem bytesWord_byte3 (b0 b1 b2 b3 : Byte) : (bytesWord b0 b1 b2 b3).extractLsb' 24 8 = b3 := by
  ext i hi
  rw [BitVec.getElem_extractLsb', bytesWord_getLsbD, if_neg (by omega), if_neg (by omega), if_neg (by omega),
    show 24 + i - 8 - 8 - 8 = i by omega, BitVec.getLsbD_eq_getElem]

@[simp] theorem bytesWord_high (b0 b1 b2 b3 : Byte) : (bytesWord b0 b1 b2 b3).extractLsb' 16 16 = b3 ++ b2 := by
  ext i hi
  rw [BitVec.getElem_extractLsb', bytesWord_getLsbD, if_neg (by omega), if_neg (by omega),
    show 16 + i - 8 - 8 = i by omega, ← BitVec.getLsbD_eq_getElem, BitVec.getLsbD_append]

/-- The bytes of a word put together from bytes. -/
@[simp] theorem wordBytes_bytesWord (b0 b1 b2 b3 : Byte) : wordBytes (bytesWord b0 b1 b2 b3) = [b0, b1, b2, b3] := by
  simp [wordBytes]

@[simp] theorem wordOp_bytesWord (b0 b1 b2 b3 : Byte) : wordOp (bytesWord b0 b1 b2 b3) = b0 := by
  simp [wordOp]

@[simp] theorem wordPort_bytesWord (b0 b1 b2 b3 : Byte) : wordPort (bytesWord b0 b1 b2 b3) = b1.toNat := by
  simp [wordPort]

/-- The bytes of a command read back from its bytes. -/
@[simp] theorem bytes_ofBytes (b0 b1 b2 b3 : Byte) (rest : List Byte) :
    (Command.ofBytes (b0 :: b1 :: b2 :: b3 :: rest)).bytes = b0 :: b1 :: b2 :: b3 :: rest := by
  simp [Command.ofBytes, Command.bytes]

/-- Every action's code is read back (R115). -/
@[simp] theorem ofCode_actionCode (k : Action) : RegTag.ofCode k.code = some (.act k) := by
  cases k <;> rfl

/-- Every tag's code is read back (R115). -/
@[simp] theorem ofCode_code (t : RegTag) : RegTag.ofCode t.code = some t := by
  cases t with
  | selStatus => rfl
  | selPending => rfl
  | selMc => rfl
  | act k => exact ofCode_actionCode k

/-- LEN's two bytes read back (R110). -/
theorem lenField_lenBytes {n : Nat} (hn : n < 65536) : lenField (BitVec.ofNat 8 n) (BitVec.ofNat 8 (n / 256)) = n := by
  simp only [lenField, BitVec.toNat_ofNat]
  omega

namespace Machine

/-- A host command word of the issuing port that decodes becomes the command in flight, at its start (R49). -/
theorem issue_of_decode {p : Nat} {c : Command} {i : Instr} {s : State} (hw : hostWordFault c.word = none)
    (hd : decode c.bytes = .ok (i, [])) (hi : i.port.toNat = p) (hp : p < s.nports) :
    issue p c s
      = .next (s.setPort p { s.port p with tpc := .inCmd i [.start], hpc := (s.port p).hpc + 1 }) := by
  have hn : ¬s.nports ≤ i.port.toNat := by omega
  simp only [issue, hw, hd, if_neg hn, if_pos hi]

end Machine

end Sys2Proof
end

