-- ==== Sys2Proof/Laws/Ring.lean ====
section
/-! SUPPORT. The Ring Buffer operations keep the invariant of R43 and act on the queue as a FIFO does. -/

namespace Sys2Proof.Machine

open Sys2Proof

theorem Ring.wf_iff (c : Nat) (r : Ring) :
    r.wf c = true ↔
      (r.buf.length = c ∧ r.head < c ∧ r.tail < c ∧ r.count ≤ c ∧ r.tail = (r.head + r.count) % c)
        ∧ ∀ k, k < r.count → (r.buf.getD ((r.head + k) % c) none).isSome = true := by
  simp [Ring.wf, Ring.queue]

/-- Two different slots of the queue's window, or a slot and the tail of a ring with room, are different places. -/
theorem slot_ne {c h j k : Nat} (hjk : j < k) (hk : k - j < c) : (h + j) % c ≠ (h + k) % c := by
  intro e
  have hd := (Nat.modEq_iff_dvd' (by omega : h + j ≤ h + k)).mp e
  have : h + k - (h + j) = k - j := by omega
  rw [this] at hd
  exact absurd (Nat.le_of_dvd (by omega) hd) (by omega)

theorem Ring.wf_empty {c : Nat} (hc : 1 ≤ c) : (Ring.empty c).wf c = true := by
  rw [Ring.wf_iff]
  refine ⟨⟨by simp [Ring.empty], hc, hc, by simp [Ring.empty], by simp [Ring.empty]⟩, ?_⟩
  intro k hk
  simp [Ring.empty] at hk

theorem Ring.enq_some {c : Nat} {b : Byte} {r r' : Ring} (h : r.enq c b = some r') :
    r.count ≠ c ∧ r' = ⟨r.buf.set r.tail (some b), r.head, (r.tail + 1) % c, r.count + 1⟩ := by
  unfold Ring.enq at h
  split at h
  · cases h
  · exact ⟨‹_›, (Option.some.inj h).symm⟩

theorem Ring.deq_ok {c : Nat} {b : Byte} {r r' : Ring} (h : r.deq c = .ok b r') :
    r.count ≠ 0 ∧ r.buf.getD r.head none = some b
      ∧ r' = ⟨r.buf.set r.head none, (r.head + 1) % c, r.tail, r.count - 1⟩ := by
  unfold Ring.deq at h
  split at h
  · cases h
  · split at h
    · injection h with hb hr
      subst hb
      exact ⟨‹_›, ‹_›, hr.symm⟩
    · cases h

/-- What slot k of the queue's window holds after an enqueue. -/
theorem Ring.enq_slot {c : Nat} {r : Ring} (b : Byte) (hw : r.wf c = true) (hlt : r.count < c) (k : Nat)
    (hk : k ≤ r.count) :
    (r.buf.set r.tail (some b)).getD ((r.head + k) % c) none
      = if k = r.count then some b else r.buf.getD ((r.head + k) % c) none := by
  obtain ⟨⟨hl, hh, ht, _, he⟩, _⟩ := (Ring.wf_iff c r).mp hw
  split
  · subst k
    rw [← he]
    simp [List.getD_eq_getElem?_getD, hl, ht]
  · have hne : r.tail ≠ (r.head + k) % c := by
      rw [he]
      exact (slot_ne (by omega) (by omega)).symm
    simp [List.getD_eq_getElem?_getD, hne]

theorem Ring.enq_wf {c : Nat} {b : Byte} {r r' : Ring} (hw : r.wf c = true) (h : r.enq c b = some r') :
    r'.wf c = true := by
  obtain ⟨hn, rfl⟩ := Ring.enq_some h
  obtain ⟨⟨hl, hh, ht, hc, he⟩, hs⟩ := (Ring.wf_iff c r).mp hw
  have hlt : r.count < c := by omega
  rw [Ring.wf_iff]
  refine ⟨⟨by simpa using hl, hh, Nat.mod_lt _ (by omega), hlt, ?_⟩, ?_⟩
  · show (r.tail + 1) % c = (r.head + (r.count + 1)) % c
    rw [he, Nat.mod_add_mod, Nat.add_assoc]
  · intro k hk
    have hk' : k ≤ r.count := Nat.lt_succ_iff.mp hk
    show ((r.buf.set r.tail (some b)).getD ((r.head + k) % c) none).isSome = true
    rw [Ring.enq_slot b hw hlt k hk']
    split
    · rfl
    · exact hs k (by omega)

theorem Ring.queue_enq {c : Nat} {b : Byte} {r r' : Ring} (hw : r.wf c = true) (h : r.enq c b = some r') :
    r'.queue c = r.queue c ++ [some b] := by
  obtain ⟨hn, rfl⟩ := Ring.enq_some h
  obtain ⟨⟨_, _, _, hc, _⟩, _⟩ := (Ring.wf_iff c r).mp hw
  have hlt : r.count < c := by omega
  show (List.range (r.count + 1)).map (fun k => (r.buf.set r.tail (some b)).getD ((r.head + k) % c) none) = _
  rw [List.range_succ, List.map_append]
  congr 1
  · refine List.map_congr_left fun k hk => ?_
    have hk' : k < r.count := List.mem_range.mp hk
    rw [Ring.enq_slot b hw hlt k (by omega), if_neg (by omega)]
  · simp only [List.map_cons, List.map_nil]
    rw [Ring.enq_slot b hw hlt r.count (le_refl _), if_pos rfl]

/-- What slot k + 1 of the queue's window holds after a dequeue. -/
theorem Ring.deq_slot {c : Nat} {r : Ring} (hw : r.wf c = true) (k : Nat) (hk : k + 1 < r.count) :
    (r.buf.set r.head none).getD (((r.head + 1) % c + k) % c) none = r.buf.getD ((r.head + (k + 1)) % c) none := by
  obtain ⟨⟨_, hh, _, hc, _⟩, _⟩ := (Ring.wf_iff c r).mp hw
  have e : ((r.head + 1) % c + k) % c = (r.head + (k + 1)) % c := by
    rw [Nat.mod_add_mod]
    congr 1
    omega
  have hne : r.head ≠ (r.head + (k + 1)) % c := by
    have := slot_ne (c := c) (h := r.head) (j := 0) (k := k + 1) (by omega) (by omega)
    simpa [Nat.mod_eq_of_lt hh] using this
  rw [e]
  simp [List.getD_eq_getElem?_getD, hne]

theorem Ring.deq_wf {c : Nat} {b : Byte} {r r' : Ring} (hw : r.wf c = true) (h : r.deq c = .ok b r') :
    r'.wf c = true := by
  obtain ⟨hn, _, rfl⟩ := Ring.deq_ok h
  obtain ⟨⟨hl, hh, ht, hc, he⟩, hs⟩ := (Ring.wf_iff c r).mp hw
  rw [Ring.wf_iff]
  refine ⟨⟨by simpa using hl, Nat.mod_lt _ (by omega), ht, by show r.count - 1 ≤ c; omega, ?_⟩, ?_⟩
  · show r.tail = ((r.head + 1) % c + (r.count - 1)) % c
    rw [he, Nat.mod_add_mod]
    congr 1
    omega
  · intro k hk
    have hk' : k + 1 < r.count := by
      have : k < r.count - 1 := hk
      omega
    show ((r.buf.set r.head none).getD (((r.head + 1) % c + k) % c) none).isSome = true
    rw [Ring.deq_slot hw k hk']
    exact hs (k + 1) hk'

theorem Ring.queue_deq {c : Nat} {b : Byte} {r r' : Ring} (hw : r.wf c = true) (h : r.deq c = .ok b r') :
    r.queue c = some b :: r'.queue c := by
  obtain ⟨hn, hb, rfl⟩ := Ring.deq_ok h
  obtain ⟨⟨_, hh, _, _, _⟩, _⟩ := (Ring.wf_iff c r).mp hw
  obtain ⟨n, hn'⟩ : ∃ n, r.count = n + 1 := ⟨r.count - 1, by omega⟩
  show (List.range r.count).map (fun k => r.buf.getD ((r.head + k) % c) none)
    = some b :: (List.range (r.count - 1)).map
        (fun k => (r.buf.set r.head none).getD (((r.head + 1) % c + k) % c) none)
  rw [hn', List.range_succ_eq_map, List.map_cons, List.map_map]
  congr 1
  · simpa [Nat.mod_eq_of_lt hh] using hb
  · refine List.map_congr_left fun k hk => ?_
    have hk' : k < n := by simpa using List.mem_range.mp hk
    exact (Ring.deq_slot hw k (by omega)).symm

/-- A well-formed ring that is not empty dequeues a byte. -/
theorem Ring.deq_of_wf {c : Nat} {r : Ring} (hw : r.wf c = true) (hn : r.count ≠ 0) :
    ∃ b r', r.deq c = .ok b r' := by
  obtain ⟨⟨_, hh, _, _, _⟩, hs⟩ := (Ring.wf_iff c r).mp hw
  have h0 := hs 0 (by omega)
  rw [Nat.add_zero, Nat.mod_eq_of_lt hh] at h0
  obtain ⟨b, hb⟩ := Option.isSome_iff_exists.mp h0
  exact ⟨b, _, by simp only [Ring.deq, if_neg hn, hb]; rfl⟩

end Sys2Proof.Machine
end

