-- ==== Sys2Proof/Laws/State.lean ====
section
/-! SUPPORT. The fields of a state after each update, so that no proof unfolds a record update. -/

namespace Sys2Proof.Machine

open Sys2Proof

/-! ### The ports -/

@[simp] theorem nports_setPort (s : State) (p : Nat) (q : Port) : (s.setPort p q).nports = s.nports := by
  simp [State.setPort, State.nports]

@[simp] theorem port_setPort_same (s : State) (p : Nat) (q : Port) (h : p < s.nports) : (s.setPort p q).port p = q := by
  have h' : p < s.ports.length := h
  simp [State.setPort, State.port, h']

theorem port_setPort_ne (s : State) {p r : Nat} (q : Port) (h : p ≠ r) : (s.setPort p q).port r = s.port r := by
  simp [State.setPort, State.port, h]

theorem port_setPort (s : State) (p r : Nat) (q : Port) :
    (s.setPort p q).port r = if p = r ∧ p < s.nports then q else s.port r := by
  by_cases h : p = r
  · subst h
    by_cases hp : p < s.nports
    · simp [hp]
    · have hp' : s.ports.length ≤ p := Nat.le_of_not_lt hp
      simp [hp, State.setPort, State.port, hp']
  · simp [h, port_setPort_ne]

theorem port_mem (s : State) {p : Nat} (h : p < s.nports) : s.port p ∈ s.ports := by
  have h' : p < s.ports.length := h
  simp [State.port, List.getD_eq_getElem?_getD, List.getElem?_eq_getElem h']

@[simp] theorem setPort_par (s : State) (p : Nat) (q : Port) : (s.setPort p q).par = s.par := rfl
@[simp] theorem setPort_vreg (s : State) (p : Nat) (q : Port) : (s.setPort p q).vreg = s.vreg := rfl
@[simp] theorem setPort_sysUp (s : State) (p : Nat) (q : Port) : (s.setPort p q).sysUp = s.sysUp := rfl
@[simp] theorem setPort_cpu (s : State) (p : Nat) (q : Port) : (s.setPort p q).cpu = s.cpu := rfl
@[simp] theorem setPort_ipc (s : State) (p : Nat) (q : Port) : (s.setPort p q).ipc = s.ipc := rfl
@[simp] theorem setPort_fault (s : State) (p : Nat) (q : Port) : (s.setPort p q).fault = s.fault := rfl
@[simp] theorem setPort_trace (s : State) (p : Nat) (q : Port) : (s.setPort p q).trace = s.trace := rfl
@[simp] theorem setPort_cur (s : State) (p : Nat) (q : Port) : (s.setPort p q).cur = s.cur := rfl
@[simp] theorem setPort_isrLat (s : State) (p : Nat) (q : Port) : (s.setPort p q).isrLat = s.isrLat := rfl
@[simp] theorem setPort_pbits (s : State) (p : Nat) (q : Port) : (s.setPort p q).pbits = s.pbits := rfl
@[simp] theorem setPort_offer (s : State) (p : Nat) (q : Port) : (s.setPort p q).offer = s.offer := rfl
@[simp] theorem setPort_env (s : State) (p : Nat) (q : Port) : (s.setPort p q).env = s.env := rfl

/-! ### The trace and the fault record -/

@[simp] theorem emit_trace (e : Event) (s : State) : (emit e s).trace = s.trace ++ [e] := rfl
@[simp] theorem emit_ports (e : Event) (s : State) : (emit e s).ports = s.ports := rfl
@[simp] theorem emit_port (e : Event) (s : State) (p : Nat) : (emit e s).port p = s.port p := rfl
@[simp] theorem emit_nports (e : Event) (s : State) : (emit e s).nports = s.nports := (rfl)
@[simp] theorem emit_par (e : Event) (s : State) : (emit e s).par = s.par := rfl
@[simp] theorem emit_vreg (e : Event) (s : State) : (emit e s).vreg = s.vreg := rfl
@[simp] theorem emit_sysUp (e : Event) (s : State) : (emit e s).sysUp = s.sysUp := rfl
@[simp] theorem emit_cpu (e : Event) (s : State) : (emit e s).cpu = s.cpu := rfl
@[simp] theorem emit_ipc (e : Event) (s : State) : (emit e s).ipc = s.ipc := rfl
@[simp] theorem emit_fault (e : Event) (s : State) : (emit e s).fault = s.fault := rfl
@[simp] theorem emit_isrLat (e : Event) (s : State) : (emit e s).isrLat = s.isrLat := rfl
@[simp] theorem emit_pbits (e : Event) (s : State) : (emit e s).pbits = s.pbits := rfl
@[simp] theorem emit_env (e : Event) (s : State) : (emit e s).env = s.env := rfl

@[simp] theorem raise_trace (c : FaultCode) (p : Nat) (op : Byte) (s : State) :
    (raise c p op s).trace = s.trace ++ [.fault c p op] := rfl
@[simp] theorem raise_fault (c : FaultCode) (p : Nat) (op : Byte) (s : State) :
    (raise c p op s).fault = some ⟨c, p, op⟩ := rfl
@[simp] theorem raise_ports (c : FaultCode) (p : Nat) (op : Byte) (s : State) : (raise c p op s).ports = s.ports := rfl
@[simp] theorem raise_port (c : FaultCode) (p : Nat) (op : Byte) (s : State) (r : Nat) :
    (raise c p op s).port r = s.port r := rfl
@[simp] theorem raise_nports (c : FaultCode) (p : Nat) (op : Byte) (s : State) : (raise c p op s).nports = s.nports := (rfl)
@[simp] theorem raise_par (c : FaultCode) (p : Nat) (op : Byte) (s : State) : (raise c p op s).par = s.par := rfl
@[simp] theorem raise_vreg (c : FaultCode) (p : Nat) (op : Byte) (s : State) : (raise c p op s).vreg = s.vreg := rfl
@[simp] theorem raise_sysUp (c : FaultCode) (p : Nat) (op : Byte) (s : State) : (raise c p op s).sysUp = s.sysUp := rfl
@[simp] theorem raise_cpu (c : FaultCode) (p : Nat) (op : Byte) (s : State) : (raise c p op s).cpu = s.cpu := rfl
@[simp] theorem raise_ipc (c : FaultCode) (p : Nat) (op : Byte) (s : State) : (raise c p op s).ipc = s.ipc := rfl

/-! ### The environment's draws -/

@[simp] theorem takeByte_ports (s : State) : (takeByte s).ports = s.ports := rfl
@[simp] theorem takeByte_port (s : State) (p : Nat) : (takeByte s).port p = s.port p := rfl
@[simp] theorem takeByte_nports (s : State) : (takeByte s).nports = s.nports := (rfl)
@[simp] theorem takeByte_par (s : State) : (takeByte s).par = s.par := rfl
@[simp] theorem takeByte_vreg (s : State) : (takeByte s).vreg = s.vreg := rfl
@[simp] theorem takeByte_sysUp (s : State) : (takeByte s).sysUp = s.sysUp := rfl
@[simp] theorem takeByte_cpu (s : State) : (takeByte s).cpu = s.cpu := rfl
@[simp] theorem takeByte_ipc (s : State) : (takeByte s).ipc = s.ipc := rfl
@[simp] theorem takeByte_fault (s : State) : (takeByte s).fault = s.fault := rfl
@[simp] theorem takeByte_trace (s : State) : (takeByte s).trace = s.trace := rfl
@[simp] theorem takeByte_isrLat (s : State) : (takeByte s).isrLat = s.isrLat := rfl
@[simp] theorem takeByte_pbits (s : State) : (takeByte s).pbits = s.pbits := rfl

@[simp] theorem takeAlloc_ports (s : State) : (takeAlloc s).ports = s.ports := rfl
@[simp] theorem takeAlloc_port (s : State) (p : Nat) : (takeAlloc s).port p = s.port p := rfl
@[simp] theorem takeAlloc_nports (s : State) : (takeAlloc s).nports = s.nports := (rfl)
@[simp] theorem takeAlloc_par (s : State) : (takeAlloc s).par = s.par := rfl
@[simp] theorem takeAlloc_vreg (s : State) : (takeAlloc s).vreg = s.vreg := rfl
@[simp] theorem takeAlloc_sysUp (s : State) : (takeAlloc s).sysUp = s.sysUp := rfl
@[simp] theorem takeAlloc_cpu (s : State) : (takeAlloc s).cpu = s.cpu := rfl
@[simp] theorem takeAlloc_ipc (s : State) : (takeAlloc s).ipc = s.ipc := rfl
@[simp] theorem takeAlloc_fault (s : State) : (takeAlloc s).fault = s.fault := rfl
@[simp] theorem takeAlloc_trace (s : State) : (takeAlloc s).trace = s.trace := rfl

@[simp] theorem takeChoice_ports (s : State) : (takeChoice s).ports = s.ports := rfl
@[simp] theorem takeChoice_port (s : State) (p : Nat) : (takeChoice s).port p = s.port p := rfl
@[simp] theorem takeChoice_nports (s : State) : (takeChoice s).nports = s.nports := (rfl)
@[simp] theorem takeChoice_par (s : State) : (takeChoice s).par = s.par := rfl
@[simp] theorem takeChoice_vreg (s : State) : (takeChoice s).vreg = s.vreg := rfl
@[simp] theorem takeChoice_sysUp (s : State) : (takeChoice s).sysUp = s.sysUp := rfl
@[simp] theorem takeChoice_cpu (s : State) : (takeChoice s).cpu = s.cpu := rfl
@[simp] theorem takeChoice_ipc (s : State) : (takeChoice s).ipc = s.ipc := rfl
@[simp] theorem takeChoice_fault (s : State) : (takeChoice s).fault = s.fault := rfl
@[simp] theorem takeChoice_trace (s : State) : (takeChoice s).trace = s.trace := rfl
@[simp] theorem takeChoice_isrLat (s : State) : (takeChoice s).isrLat = s.isrLat := rfl
@[simp] theorem takeChoice_pbits (s : State) : (takeChoice s).pbits = s.pbits := rfl

theorem nextByte_script (s : State) (b : Byte) (bs : List Byte) (h : s.env.bytes = b :: bs) : nextByte s = b := by
  simp [nextByte, h]

theorem nextAlloc_script (s : State) (b : Bool) (bs : List Bool) (h : s.env.allocs = b :: bs) : nextAlloc s = b := by
  simp [nextAlloc, h]

theorem nextChoice_script (s : State) (c : Choice) (cs : List Choice) (h : s.env.sched = c :: cs) :
    nextChoice s = c := by
  simp [nextChoice, h]

end Sys2Proof.Machine
end

