-- ==== Sys2Proof/Laws/Ops.lean ====
section
/-! SUPPORT. One form for what the shared operations do: `s.upd p q es` is `s` with the record of port p replaced by `q` and
the events `es` appended. Each operation is rewritten to that form once, and later proofs never unfold it. -/

namespace Sys2Proof.Machine

open Sys2Proof

/-- The state with port p's record replaced and events appended. -/
def State.upd (s : State) (p : Nat) (q : Port) (es : List Event) : State :=
  { s with ports := s.ports.set p q, trace := s.trace ++ es }

/-! ### Fields of the form -/

@[simp] theorem upd_par (s : State) (p : Nat) (q : Port) (es : List Event) : (s.upd p q es).par = s.par := rfl
@[simp] theorem upd_vreg (s : State) (p : Nat) (q : Port) (es : List Event) : (s.upd p q es).vreg = s.vreg := rfl
@[simp] theorem upd_sysUp (s : State) (p : Nat) (q : Port) (es : List Event) : (s.upd p q es).sysUp = s.sysUp := rfl
@[simp] theorem upd_cpu (s : State) (p : Nat) (q : Port) (es : List Event) : (s.upd p q es).cpu = s.cpu := rfl
@[simp] theorem upd_ipc (s : State) (p : Nat) (q : Port) (es : List Event) : (s.upd p q es).ipc = s.ipc := rfl
@[simp] theorem upd_fault (s : State) (p : Nat) (q : Port) (es : List Event) : (s.upd p q es).fault = s.fault := rfl
@[simp] theorem upd_trace (s : State) (p : Nat) (q : Port) (es : List Event) :
    (s.upd p q es).trace = s.trace ++ es := rfl
@[simp] theorem upd_cur (s : State) (p : Nat) (q : Port) (es : List Event) : (s.upd p q es).cur = s.cur := rfl
@[simp] theorem upd_isrLat (s : State) (p : Nat) (q : Port) (es : List Event) : (s.upd p q es).isrLat = s.isrLat := rfl
@[simp] theorem upd_pbits (s : State) (p : Nat) (q : Port) (es : List Event) : (s.upd p q es).pbits = s.pbits := rfl
@[simp] theorem upd_offer (s : State) (p : Nat) (q : Port) (es : List Event) : (s.upd p q es).offer = s.offer := rfl
@[simp] theorem upd_env (s : State) (p : Nat) (q : Port) (es : List Event) : (s.upd p q es).env = s.env := rfl
@[simp] theorem upd_ports (s : State) (p : Nat) (q : Port) (es : List Event) :
    (s.upd p q es).ports = s.ports.set p q := rfl

@[simp] theorem upd_nports (s : State) (p : Nat) (q : Port) (es : List Event) : (s.upd p q es).nports = s.nports := by
  simp [State.nports]

/-- Reading a port looks at the port list alone. -/
theorem port_congr {s t : State} (h : s.ports = t.ports) (p : Nat) : s.port p = t.port p := by
  simp only [State.port, h]

@[simp] theorem upd_port_same {s : State} {p : Nat} (hp : p < s.nports) (q : Port) (es : List Event) :
    (s.upd p q es).port p = q :=
  port_setPort_same s p q hp

theorem upd_port_ne (s : State) {p r : Nat} (h : p ≠ r) (q : Port) (es : List Event) :
    (s.upd p q es).port r = s.port r :=
  port_setPort_ne s q h

@[simp] theorem upd_upd (s : State) (p : Nat) (q q' : Port) (es es' : List Event) :
    (s.upd p q es).upd p q' es' = s.upd p q' (es ++ es') := by
  simp [State.upd]

/-- A port's own record put back changes nothing. -/
theorem upd_self {s : State} {p : Nat} (hp : p < s.nports) : s.upd p (s.port p) [] = s := by
  have hp' : p < s.ports.length := hp
  simp [State.upd, State.port, hp']

/-! ### The operations in that form -/

theorem setPort_eq_upd (s : State) (p : Nat) (q : Port) : s.setPort p q = s.upd p q [] := by
  simp [State.setPort, State.upd]

@[simp] theorem emit_upd (s : State) (p : Nat) (q : Port) (es : List Event) (e : Event) :
    emit e (s.upd p q es) = s.upd p q (es ++ [e]) := by
  simp [State.upd, emit]

theorem emit_eq_upd {s : State} {p : Nat} (hp : p < s.nports) (e : Event) : emit e s = s.upd p (s.port p) [e] := by
  conv_lhs => rw [← upd_self hp]
  simp

@[simp] theorem nextByte_upd (s : State) (p : Nat) (q : Port) (es : List Event) :
    nextByte (s.upd p q es) = nextByte s := rfl
@[simp] theorem nextAlloc_upd (s : State) (p : Nat) (q : Port) (es : List Event) :
    nextAlloc (s.upd p q es) = nextAlloc s := rfl
@[simp] theorem nextChoice_upd (s : State) (p : Nat) (q : Port) (es : List Event) :
    nextChoice (s.upd p q es) = nextChoice s := rfl
@[simp] theorem takeByte_upd (s : State) (p : Nat) (q : Port) (es : List Event) :
    takeByte (s.upd p q es) = (takeByte s).upd p q es := rfl
@[simp] theorem takeAlloc_upd (s : State) (p : Nat) (q : Port) (es : List Event) :
    takeAlloc (s.upd p q es) = (takeAlloc s).upd p q es := rfl
@[simp] theorem takeChoice_upd (s : State) (p : Nat) (q : Port) (es : List Event) :
    takeChoice (s.upd p q es) = (takeChoice s).upd p q es := rfl
@[simp] theorem nextByte_takeChoice (s : State) : nextByte (takeChoice s) = nextByte s := rfl
@[simp] theorem nextAlloc_takeChoice (s : State) : nextAlloc (takeChoice s) = nextAlloc s := rfl
@[simp] theorem nextAlloc_takeByte (s : State) : nextAlloc (takeByte s) = nextAlloc s := rfl
@[simp] theorem nextByte_takeAlloc (s : State) : nextByte (takeAlloc s) = nextByte s := rfl
@[simp] theorem nextChoice_takeByte (s : State) : nextChoice (takeByte s) = nextChoice s := rfl
@[simp] theorem nextChoice_takeAlloc (s : State) : nextChoice (takeAlloc s) = nextChoice s := rfl

theorem ctlOp_eq (p : Nat) (k : Action) (a : Byte) (s : State) :
    ctlOp p k a s = s.upd p { s.port p with ie := (s.port p).ie.apply k } [ctlEvent s.par (s.port p).cfg k a] := rfl

theorem mcwOp_eq (p : Nat) (v : Byte) (s : State) :
    mcwOp p v s = s.upd p { s.port p with mc := some v } [mcwEvent s.par (s.port p).cfg v] := rfl

theorem setTxActive_eq (p : Nat) (b : Bool) (s : State) :
    setTxActive p b s = s.upd p { s.port p with txActive := some b } [] := setPort_eq_upd s p _

theorem setRb_eq (p : Nat) (r : Ring) (s : State) : setRb p r s = s.upd p { s.port p with rb := some r } [] :=
  setPort_eq_upd s p _

theorem setLife_eq (p : Nat) (l : Life) (s : State) : setLife p l s = s.upd p { s.port p with life := l } [] :=
  setPort_eq_upd s p _

theorem setTpc_eq (p : Nat) (t : TaskPc) (s : State) : setTpc p t s = s.upd p { s.port p with tpc := t } [] :=
  setPort_eq_upd s p _

theorem setLat_task {s : State} (hc : s.cpu = .task) (p : Nat) (r : MicroResult) :
    setLat p r s = s.upd p { s.port p with lat := r } [] := by
  simp only [setLat, hc]
  exact setPort_eq_upd s p _

theorem setLat_isr {s : State} (hc : s.cpu = .isr) (p : Nat) (r : MicroResult) :
    setLat p r s = { s with isrLat := r } := by
  simp only [setLat, hc]

theorem returnOp_eq (p : Nat) (op : Byte) (r : Res) (s : State) :
    returnOp p op r s = s.upd p { s.port p with res := some r, tpc := .idle } [.ret p op r] := rfl

theorem upOp_eq (p : Nat) (c : Byte) (s : State) :
    upOp p c s = s.upd p { s.port p with upq := (s.port p).upq ++ [c] } [.up p c] := rfl

theorem readStatus_eq {s : State} {p : Nat} (hp : p < s.nports) :
    readStatus p s
      = (takeByte s).upd p (s.port p) [.rdReg (s.port p).cfg.ctrlOwn s.par.selStatus (nextByte s)] :=
  emit_eq_upd (s := takeByte s) hp _

theorem readData_eq {s : State} {p : Nat} (hp : p < s.nports) :
    readData p s = (takeByte s).upd p (s.port p) [.rdData (s.port p).cfg.dataAddr (nextByte s)] :=
  emit_eq_upd (s := takeByte s) hp _

theorem writeData_eq {s : State} {p : Nat} (hp : p < s.nports) (v : Byte) :
    writeData p v s = s.upd p (s.port p) [.wrData (s.port p).cfg.dataAddr v] :=
  emit_eq_upd hp _

theorem pushStmts_task {s : State} (hc : s.cpu = .task) {p : Nat} {c : Instr} {pos : List Stmt}
    (ht : (s.port p).tpc = .inCmd c pos) (i : Instr) (l : List Stmt) :
    pushStmts i p l s = s.upd p { s.port p with tpc := .inCmd c (l ++ pos) } [] := by
  simp only [pushStmts, hc, ht]
  exact setTpc_eq p _ s

theorem pushStmts_isr {s : State} (hc : s.cpu = .isr) {c : IsrPc} (hi : s.ipc = some c) (i : Instr) (p : Nat)
    (l : List Stmt) : pushStmts i p l s = { s with ipc := some { c with stage := l ++ c.stage } } := by
  simp only [pushStmts, hc, hi, Option.map_some]

/-! ### Guards, and pseudocode that may raise -/

theorem onPort_of_lt {p : Byte} {s : State} (hp : p.toNat < s.nports) (f : State) : onPort p s f = .next f :=
  if_pos hp

theorem onPort_next {p : Byte} {s f t : State} (h : onPort p s f = .next t) : p.toNat < s.nports ∧ t = f := by
  unfold onPort at h
  split at h
  · exact ⟨‹_›, (Host.Outcome.next.inj h).symm⟩
  · cases h

theorem onHost_of_lt {p : Byte} {s : State} (hp : p.toNat < s.nports) (op : Byte) (f : State) :
    onHost p op s f = .next f :=
  if_pos hp

theorem onHost_next {p op : Byte} {s f t : State} (h : onHost p op s f = .next t) :
    (p.toNat < s.nports ∧ t = f) ∨ (s.nports ≤ p.toNat ∧ t = raise .badPort s.cur op s) := by
  unfold onHost at h
  split at h
  · exact .inl ⟨‹_›, (Host.Outcome.next.inj h).symm⟩
  · exact .inr ⟨Nat.le_of_not_lt ‹_›, (Host.Outcome.next.inj h).symm⟩

@[simp] theorem Flow.pure_out {α : Type} (a : α) (s : State) : (Flow.pure a s).out = some a := rfl
@[simp] theorem Flow.pure_st {α : Type} (a : α) (s : State) : (Flow.pure a s).st = s := rfl
@[simp] theorem Flow.raise_out {α : Type} (c : FaultCode) (p : Nat) (op : Byte) (s : State) :
    (Flow.raise c p op s : Flow α).out = none := rfl
@[simp] theorem Flow.raise_st {α : Type} (c : FaultCode) (p : Nat) (op : Byte) (s : State) :
    (Flow.raise c p op s : Flow α).st = Machine.raise c p op s := rfl
@[simp] theorem Flow.pure_andThen {α β : Type} (a : α) (s : State) (k : α → State → Flow β) :
    (Flow.pure a s).andThen k = k a s := rfl
@[simp] theorem Flow.raise_andThen {α β : Type} (c : FaultCode) (p : Nat) (op : Byte) (s : State)
    (k : α → State → Flow β) : (Flow.raise c p op s : Flow α).andThen k = .raise c p op s := rfl
@[simp] theorem Flow.pure_toLat {α : Type} (a : α) (s : State) (p : Nat) (g : α → MicroResult) :
    (Flow.pure a s).toLat p g = setLat p (g a) s := rfl
@[simp] theorem Flow.raise_toLat {α : Type} (c : FaultCode) (p : Nat) (op : Byte) (s : State) (r : Nat)
    (g : α → MicroResult) : (Flow.raise c p op s : Flow α).toLat r g = Machine.raise c p op s := rfl

theorem lineOp_some {s : State} {p : Nat} {m : Byte} (hm : (s.port p).mc = some m) (op : Byte) (f : Byte → Byte) :
    lineOp p op f s = .pure () (s.upd p { s.port p with mc := some (f m) } [mcwEvent s.par (s.port p).cfg (f m)]) := by
  simp only [lineOp, hm]
  rfl

theorem rbIsEmptyOp_some {s : State} {p : Nat} {r : Ring} (hr : (s.port p).rb = some r) :
    rbIsEmptyOp p s = .pure r.isEmpty s := by
  simp only [rbIsEmptyOp, hr]

theorem rbIsFullOp_some {s : State} {p : Nat} {r : Ring} (hr : (s.port p).rb = some r) :
    rbIsFullOp p s = .pure (r.isFull s.par.rbCap) s := by
  simp only [rbIsFullOp, hr]

theorem rbEnqOp_some {s : State} {p : Nat} {r r' : Ring} {b : Byte} (hr : (s.port p).rb = some r)
    (he : r.enq s.par.rbCap b = some r') : rbEnqOp p b s = .pure true (s.upd p { s.port p with rb := some r' } []) := by
  simp only [rbEnqOp, hr, he, setRb_eq]

theorem rbDeqOp_ok {s : State} {p : Nat} {r r' : Ring} {b : Byte} (hr : (s.port p).rb = some r)
    (hd : r.deq s.par.rbCap = .ok b r') :
    rbDeqOp p s = .pure (some b) (s.upd p { s.port p with rb := some r' } []) := by
  simp only [rbDeqOp, hr, hd, setRb_eq]

theorem negRtsCond_rtscts {s : State} {p : Nat} (h : (s.port p).cfg.strategy = .rtscts) :
    negRtsCond p s = .pure () s :=
  if_pos h

theorem negRtsCond_some {s : State} {p : Nat} {m : Byte} (h : (s.port p).cfg.strategy ≠ .rtscts)
    (hm : (s.port p).mc = some m) :
    negRtsCond p s = .pure () (s.upd p { s.port p with mc := some (m &&& ~~~s.par.mcRts) }
      [mcwEvent s.par (s.port p).cfg (m &&& ~~~s.par.mcRts)]) := by
  rw [negRtsCond, if_neg h, negateRtsOp, lineOp_some hm]

end Sys2Proof.Machine
end

