-- ==== Sys2Proof/Laws/Step.lean ====
section
/-! SUPPORT. What a step can do, said once: the equations of `step` at each kind of choice, and the inversion of a step that
answers a next state. -/

namespace Sys2Proof.Machine

open Sys2Proof

/-- The state TASK(p)'s step starts from. -/
def State.taskStart (s : State) (p : Nat) : State := { takeChoice s with cur := p }

@[simp] theorem taskStart_par (s : State) (p : Nat) : (s.taskStart p).par = s.par := rfl
@[simp] theorem taskStart_ports (s : State) (p : Nat) : (s.taskStart p).ports = s.ports := rfl
@[simp] theorem taskStart_port (s : State) (p r : Nat) : (s.taskStart p).port r = s.port r := rfl
@[simp] theorem taskStart_nports (s : State) (p : Nat) : (s.taskStart p).nports = s.nports := (rfl)
@[simp] theorem taskStart_vreg (s : State) (p : Nat) : (s.taskStart p).vreg = s.vreg := rfl
@[simp] theorem taskStart_sysUp (s : State) (p : Nat) : (s.taskStart p).sysUp = s.sysUp := rfl
@[simp] theorem taskStart_cpu (s : State) (p : Nat) : (s.taskStart p).cpu = s.cpu := rfl
@[simp] theorem taskStart_ipc (s : State) (p : Nat) : (s.taskStart p).ipc = s.ipc := rfl
@[simp] theorem taskStart_fault (s : State) (p : Nat) : (s.taskStart p).fault = s.fault := rfl
@[simp] theorem taskStart_trace (s : State) (p : Nat) : (s.taskStart p).trace = s.trace := rfl

/-! ### Equations -/

theorem step_of_task {s : State} {p : Nat} (hf : s.fault = none) (hc : s.cpu = .task) (hn : nextChoice s = .task p) :
    step s = stepTask p (takeChoice s) := by
  simp only [step, hf, hn, hc]

theorem step_of_isr {s : State} (hf : s.fault = none) (hc : s.cpu = .isr) (hn : nextChoice s ≠ .sysUp) :
    step s = stepIsr (takeChoice s) := by
  cases h : nextChoice s with
  | sysUp => exact absurd h hn
  | idle => simp only [step, hf, h, hc]
  | task p => simp only [step, hf, h, hc]
  | irq v => simp only [step, hf, h, hc]

/-- A TASK inside a command runs the statement at its position. -/
theorem stepTask_inCmd {s : State} {p : Nat} {cmd : Instr} {st : Stmt} {rest : List Stmt} (hp : p < s.nports)
    (ht : (s.port p).tpc = .inCmd cmd (st :: rest)) :
    stepTask p (takeChoice s)
      = holdPc p (takeChoice s)
          (taskStmt p cmd st rest ((s.taskStart p).upd p { s.port p with tpc := .inCmd cmd rest } [])) := by
  have hn : ¬(takeChoice s).nports ≤ p := Nat.not_le.mpr hp
  have ht' : ((takeChoice s).port p).tpc = .inCmd cmd (st :: rest) := ht
  rw [stepTask, if_neg hn]
  simp only [ht', setTpc_eq]
  rfl

/-- An idle TASK issues its next command. -/
theorem stepTask_issue {s : State} {p : Nat} {c : Command} (hp : p < s.nports) (ht : (s.port p).tpc = .idle)
    (hc : (s.port p).prog[(s.port p).hpc]? = some c) : stepTask p (takeChoice s) = issue p c (s.taskStart p) := by
  have hn : ¬(takeChoice s).nports ≤ p := Nat.not_le.mpr hp
  have ht' : ((takeChoice s).port p).tpc = .idle := ht
  have hc' : ((takeChoice s).port p).prog[((takeChoice s).port p).hpc]? = some c := hc
  rw [stepTask, if_neg hn]
  simp only [ht', hc']
  rfl

/-! ### Inversion -/

theorem holdPc_next {p : Nat} {s t : State} {r : Host.Outcome State Fault Refusal} (h : holdPc p s r = .next t) :
    ∃ u, r = .next u ∧ (u.fault = none ∧ t = u
      ∨ u.fault ≠ none ∧ t = { u.upd p { u.port p with tpc := (s.port p).tpc } [] with ipc := s.ipc }) := by
  cases r with
  | next u =>
    refine ⟨u, rfl, ?_⟩
    simp only [holdPc, setTpc_eq] at h
    split at h
    · exact .inl ⟨‹_›, (Host.Outcome.next.inj h).symm⟩
    · exact .inr ⟨‹_›, (Host.Outcome.next.inj h).symm⟩
  | fault f => cases h
  | refused f => cases h

theorem holdIpc_next {s t : State} {r : Host.Outcome State Fault Refusal} (h : holdIpc s r = .next t) :
    ∃ u, r = .next u ∧ (u.fault = none ∧ t = u ∨ u.fault ≠ none ∧ t = { u with ipc := s.ipc }) := by
  cases r with
  | next u =>
    refine ⟨u, rfl, ?_⟩
    simp only [holdIpc] at h
    split at h
    · exact .inl ⟨‹_›, (Host.Outcome.next.inj h).symm⟩
    · exact .inr ⟨‹_›, (Host.Outcome.next.inj h).symm⟩
  | fault f => cases h
  | refused f => cases h

/-- The decode step either raises a decode fault and changes nothing else, or puts the decoded command at its start. -/
theorem issue_next {p : Nat} {c : Command} {s t : State} (h : issue p c s = .next t) :
    (∃ f op, t = raise f p op s)
    ∨ ∃ i, hostWordFault c.word = none ∧ decode c.bytes = .ok (i, []) ∧ i.port.toNat = p ∧ p < s.nports
        ∧ t = s.upd p { s.port p with tpc := .inCmd i [.start], hpc := (s.port p).hpc + 1 } [] := by
  unfold issue at h
  split at h
  · exact .inl ⟨_, _, (Host.Outcome.next.inj h).symm⟩
  · split at h
    · split at h
      · exact .inl ⟨_, _, (Host.Outcome.next.inj h).symm⟩
      · split at h
        · rename_i hn hi
          refine .inr ⟨_, ‹_›, ‹_›, hi, by omega, ?_⟩
          rw [← setPort_eq_upd]
          exact (Host.Outcome.next.inj h).symm
        · cases h
    · cases h
    · cases h

/-- Every step that answers a next state is one of seven: `sys_up` rises, nothing is enabled, a TASK decodes a command, a TASK
without a statement left goes idle, a TASK runs a statement, an activation is entered, or the activation steps. -/
theorem step_cases {s t : State} (h : step s = .next t) :
    s.fault = none ∧
    ((nextChoice s = .sysUp ∧ t = { takeChoice s with sysUp := true })
    ∨ (nextChoice s ≠ .sysUp ∧ s.cpu = .task ∧ t = { takeChoice s with offer := t.offer })
    ∨ (∃ p c, nextChoice s = .task p ∧ s.cpu = .task ∧ p < s.nports ∧ (s.port p).tpc = .idle
        ∧ (s.port p).prog[(s.port p).hpc]? = some c ∧ issue p c (s.taskStart p) = .next t)
    ∨ (∃ p cmd, nextChoice s = .task p ∧ s.cpu = .task ∧ p < s.nports ∧ (s.port p).tpc = .inCmd cmd []
        ∧ t = (s.taskStart p).upd p { s.port p with tpc := .idle } [])
    ∨ (∃ p cmd st rest, nextChoice s = .task p ∧ s.cpu = .task ∧ p < s.nports
        ∧ (s.port p).tpc = .inCmd cmd (st :: rest)
        ∧ holdPc p (takeChoice s)
            (taskStmt p cmd st rest ((s.taskStart p).upd p { s.port p with tpc := .inCmd cmd rest } [])) = .next t)
    ∨ (∃ v, nextChoice s = .irq v ∧ s.cpu = .task ∧ v ∈ s.vreg ∧ t = enterIsr v { takeChoice s with offer := none })
    ∨ (∃ c st rest, nextChoice s ≠ .sysUp ∧ s.cpu = .isr ∧ s.ipc = some c ∧ c.stage = st :: rest
        ∧ holdIpc (takeChoice s) (isrStmt c st rest (takeChoice s)) = .next t)) := by
  cases hf : s.fault with
  | some f => simp only [step, hf] at h; cases h
  | none =>
    refine ⟨rfl, ?_⟩
    by_cases hu : nextChoice s = .sysUp
    · simp only [step, hf, hu] at h
      exact .inl ⟨hu, (Host.Outcome.next.inj h).symm⟩
    · cases hc : s.cpu with
      | isr =>
        rw [step_of_isr hf hc hu, stepIsr] at h
        have hi : (takeChoice s).ipc = s.ipc := rfl
        rw [hi] at h
        cases hi : s.ipc with
        | none => simp only [hi] at h; cases h
        | some c =>
          simp only [hi] at h
          cases hs : c.stage with
          | nil => simp only [hs] at h; cases h
          | cons st rest =>
            simp only [hs] at h
            exact .inr (.inr (.inr (.inr (.inr (.inr ⟨c, st, rest, hu, rfl, rfl, hs, h⟩)))))
      | task =>
        cases hn : nextChoice s with
        | sysUp => exact absurd hn hu
        | idle =>
          simp only [step, hf, hn, hc] at h
          have := Host.Outcome.next.inj h
          subst this
          exact .inr (.inl ⟨by simp, rfl, rfl⟩)
        | irq v =>
          simp only [step, hf, hn, hc, exec, execIsrEntry] at h
          have := Host.Outcome.next.inj h
          by_cases hv : v ∈ s.vreg
          · rw [if_pos ⟨hf, hc, hv⟩] at this
            exact .inr (.inr (.inr (.inr (.inr (.inl ⟨v, rfl, rfl, hv, this.symm⟩)))))
          · rw [if_neg (fun h => hv h.2.2)] at this
            subst this
            exact .inr (.inl ⟨by simp, rfl, rfl⟩)
        | task p =>
          rw [step_of_task hf hc hn] at h
          by_cases hp : s.nports ≤ p
          · rw [stepTask, if_pos (show (takeChoice s).nports ≤ p from hp)] at h
            have := Host.Outcome.next.inj h
            subst this
            exact .inr (.inl ⟨by simp, rfl, rfl⟩)
          · have hp' : p < s.nports := Nat.lt_of_not_le hp
            cases ht : (s.port p).tpc with
            | idle =>
              cases hk : (s.port p).prog[(s.port p).hpc]? with
              | none =>
                have ht' : ((takeChoice s).port p).tpc = .idle := ht
                have hk' : ((takeChoice s).port p).prog[((takeChoice s).port p).hpc]? = none := hk
                rw [stepTask, if_neg (show ¬(takeChoice s).nports ≤ p from hp)] at h
                simp only [ht', hk'] at h
                have := Host.Outcome.next.inj h
                subst this
                exact .inr (.inl ⟨by simp, rfl, rfl⟩)
              | some c =>
                rw [stepTask_issue hp' ht hk] at h
                exact .inr (.inr (.inl ⟨p, c, rfl, rfl, hp', ht, hk, h⟩))
            | inCmd cmd pos =>
              cases pos with
              | nil =>
                have ht' : ((takeChoice s).port p).tpc = .inCmd cmd [] := ht
                rw [stepTask, if_neg (show ¬(takeChoice s).nports ≤ p from hp)] at h
                simp only [ht', setTpc_eq] at h
                have := Host.Outcome.next.inj h
                exact .inr (.inr (.inr (.inl ⟨p, cmd, rfl, rfl, hp', ht, this.symm⟩)))
              | cons st rest =>
                rw [stepTask_inCmd hp' ht] at h
                exact .inr (.inr (.inr (.inr (.inl ⟨p, cmd, st, rest, rfl, rfl, hp', ht, h⟩))))

end Sys2Proof.Machine
end

