-- ==== Sys2Proof/Laws/Frame.lean ====
section
/-! SUPPORT. Frames. `Grows s t` is what holds between the states around any piece of pseudocode: the launch is kept and every
history only grows. `TxLeaves` says once everything the transmit phase can leave on a port with a ring and a shadow byte. -/

namespace Sys2Proof.Machine

open Sys2Proof

/-- The launch is kept; the trace, every upstream sequence, the vector set and `sys_up` only grow. -/
structure Grows (s t : State) : Prop where
  launch : t.launch = s.launch
  trace  : s.trace <+: t.trace
  upq    : ∀ p, (s.port p).upq <+: (t.port p).upq
  vreg   : ∀ v ∈ s.vreg, v ∈ t.vreg
  sysUp  : s.sysUp = true → t.sysUp = true

theorem Grows.refl (s : State) : Grows s s :=
  ⟨rfl, List.prefix_refl _, fun _ => List.prefix_refl _, fun _ h => h, id⟩

theorem Grows.trans {s t u : State} (h : Grows s t) (k : Grows t u) : Grows s u :=
  ⟨k.launch.trans h.launch, h.trace.trans k.trace, fun p => (h.upq p).trans (k.upq p), fun v hv => k.vreg v (h.vreg v hv),
    fun e => k.sysUp (h.sysUp e)⟩

/-- Only fields outside the histories differ. -/
theorem Grows.of_same {s t : State} (hpar : t.par = s.par) (hports : t.ports = s.ports) (htr : s.trace <+: t.trace)
    (hv : t.vreg = s.vreg) (hu : t.sysUp = s.sysUp) : Grows s t :=
  ⟨by simp only [State.launch, hpar, hports], htr, fun p => by rw [port_congr hports p],
    fun v h => by rw [hv]; exact h, fun h => by rw [hu]; exact h⟩

theorem launch_upd {s : State} {p : Nat} {q : Port} (hc : q.cfg = (s.port p).cfg) (hg : q.prog = (s.port p).prog)
    (es : List Event) : (s.upd p q es).launch = s.launch := by
  have h : (s.ports.set p q).map (fun q => (q.cfg, q.prog)) = s.ports.map fun q => (q.cfg, q.prog) := by
    apply List.ext_getElem?
    intro i
    simp only [List.getElem?_map]
    by_cases hi : p = i
    · subst hi
      by_cases hl : p < s.ports.length
      · simp [hl, hc, hg, State.port]
      · simp [Nat.le_of_not_lt hl]
    · simp [hi]
  simp only [State.launch, upd_par, upd_ports, h]

/-- A record that keeps the configuration and the program and whose upstream sequence grows, and events appended. -/
theorem Grows.upd {s : State} {p : Nat} {q : Port} (hc : q.cfg = (s.port p).cfg) (hg : q.prog = (s.port p).prog)
    (hu : (s.port p).upq <+: q.upq) (es : List Event) : Grows s (s.upd p q es) := by
  refine ⟨launch_upd hc hg es, List.prefix_append _ _, fun r => ?_, fun _ h => h, id⟩
  show (s.port r).upq <+: ((s.setPort p q).port r).upq
  rw [port_setPort]
  split
  · rename_i h
    rw [← h.1]
    exact hu
  · exact List.prefix_refl _

theorem grows_emit (e : Event) (s : State) : Grows s (emit e s) :=
  .of_same rfl rfl (List.prefix_append _ _) rfl rfl

theorem grows_raise (c : FaultCode) (p : Nat) (op : Byte) (s : State) : Grows s (raise c p op s) :=
  .of_same rfl rfl (List.prefix_append _ _) rfl rfl

theorem grows_takeByte (s : State) : Grows s (takeByte s) := .of_same rfl rfl (List.prefix_refl _) rfl rfl
theorem grows_takeAlloc (s : State) : Grows s (takeAlloc s) := .of_same rfl rfl (List.prefix_refl _) rfl rfl
theorem grows_takeChoice (s : State) : Grows s (takeChoice s) := .of_same rfl rfl (List.prefix_refl _) rfl rfl
theorem grows_taskStart (s : State) (p : Nat) : Grows s (s.taskStart p) := .of_same rfl rfl (List.prefix_refl _) rfl rfl

theorem grows_ctlOp (p : Nat) (k : Action) (a : Byte) (s : State) : Grows s (ctlOp p k a s) := by
  rw [ctlOp_eq]
  refine .upd ?_ ?_ ?_ _ <;> rfl

theorem grows_mcwOp (p : Nat) (v : Byte) (s : State) : Grows s (mcwOp p v s) := by
  rw [mcwOp_eq]
  refine .upd ?_ ?_ ?_ _ <;> rfl

theorem grows_setTxActive (p : Nat) (b : Bool) (s : State) : Grows s (setTxActive p b s) := by
  rw [setTxActive_eq]
  refine .upd ?_ ?_ ?_ _ <;> rfl

theorem grows_setRb (p : Nat) (r : Ring) (s : State) : Grows s (setRb p r s) := by
  rw [setRb_eq]
  refine .upd ?_ ?_ ?_ _ <;> rfl

theorem grows_setLife (p : Nat) (l : Life) (s : State) : Grows s (setLife p l s) := by
  rw [setLife_eq]
  refine .upd ?_ ?_ ?_ _ <;> rfl

theorem grows_setTpc (p : Nat) (t : TaskPc) (s : State) : Grows s (setTpc p t s) := by
  rw [setTpc_eq]
  refine .upd ?_ ?_ ?_ _ <;> rfl

theorem grows_returnOp (p : Nat) (op : Byte) (r : Res) (s : State) : Grows s (returnOp p op r s) := by
  rw [returnOp_eq]
  refine .upd ?_ ?_ ?_ _ <;> rfl

theorem grows_upOp (p : Nat) (c : Byte) (s : State) : Grows s (upOp p c s) := by
  rw [upOp_eq]
  refine .upd ?_ ?_ ?_ _ <;> first | rfl | exact List.prefix_append _ _

theorem grows_setLat (p : Nat) (r : MicroResult) (s : State) : Grows s (setLat p r s) := by
  cases hc : s.cpu with
  | isr =>
    rw [setLat_isr hc]
    exact .of_same rfl rfl (List.prefix_refl _) rfl rfl
  | task =>
    rw [setLat_task hc]
    refine .upd ?_ ?_ ?_ _ <;> rfl

theorem grows_readStatus (p : Nat) (s : State) : Grows s (readStatus p s) :=
  (grows_takeByte s).trans (grows_emit _ _)

theorem grows_readData (p : Nat) (s : State) : Grows s (readData p s) :=
  (grows_takeByte s).trans (grows_emit _ _)

theorem grows_writeData (p : Nat) (v : Byte) (s : State) : Grows s (writeData p v s) := grows_emit _ _

theorem grows_pushStmts (i : Instr) (p : Nat) (l : List Stmt) (s : State) : Grows s (pushStmts i p l s) := by
  cases hc : s.cpu with
  | isr =>
    simp only [pushStmts, hc]
    exact .of_same rfl rfl (List.prefix_refl _) rfl rfl
  | task =>
    cases ht : (s.port p).tpc with
    | idle =>
      simp only [pushStmts, hc, ht]
      exact grows_setTpc _ _ _
    | inCmd c pos =>
      simp only [pushStmts, hc, ht]
      exact grows_setTpc _ _ _

theorem grows_beginCmd (i : Instr) (p : Nat) (chk : Option FaultCode) (body : List Stmt) (s : State) :
    Grows s (beginCmd i p chk body s) := by
  cases chk with
  | none => exact grows_setTpc _ _ _
  | some c => exact grows_raise _ _ _ _

/-- Pseudocode that grows the histories, its continuation too. -/
theorem grows_andThen {α β : Type} {s : State} {f : Flow α} {k : α → State → Flow β} (hf : Grows s f.st)
    (hk : ∀ a t, Grows t (k a t).st) : Grows s (f.andThen k).st := by
  unfold Flow.andThen
  split
  · exact hf.trans (hk _ _)
  · exact hf

theorem grows_toLat {α : Type} {s : State} {f : Flow α} (hf : Grows s f.st) (p : Nat) (g : α → MicroResult) :
    Grows s (f.toLat p g) := by
  unfold Flow.toLat
  split
  · exact hf.trans (grows_setLat _ _ _)
  · exact hf

theorem grows_lineOp (p : Nat) (op : Byte) (f : Byte → Byte) (s : State) : Grows s (lineOp p op f s).st := by
  unfold lineOp
  split
  · exact grows_raise _ _ _ _
  · exact grows_mcwOp _ _ _

theorem grows_rbIsEmptyOp (p : Nat) (s : State) : Grows s (rbIsEmptyOp p s).st := by
  unfold rbIsEmptyOp
  split
  · exact grows_raise _ _ _ _
  · exact .refl _

theorem grows_rbIsFullOp (p : Nat) (s : State) : Grows s (rbIsFullOp p s).st := by
  unfold rbIsFullOp
  split
  · exact grows_raise _ _ _ _
  · exact .refl _

theorem grows_rbEnqOp (p : Nat) (b : Byte) (s : State) : Grows s (rbEnqOp p b s).st := by
  unfold rbEnqOp
  split
  · exact grows_raise _ _ _ _
  · split
    · exact .refl _
    · exact grows_setRb _ _ _

theorem grows_rbDeqOp (p : Nat) (s : State) : Grows s (rbDeqOp p s).st := by
  unfold rbDeqOp
  split
  · exact grows_raise _ _ _ _
  · split
    · exact .refl _
    · exact grows_raise _ _ _ _
    · exact grows_setRb _ _ _

theorem grows_negRtsCond (p : Nat) (s : State) : Grows s (negRtsCond p s).st := by
  unfold negRtsCond
  split
  · exact .refl _
  · exact grows_lineOp _ _ _ _

theorem grows_txPhaseOp (p : Nat) (s : State) : Grows s (txPhaseOp p s).st := by
  unfold txPhaseOp
  dsimp only
  split
  · exact grows_readStatus _ _
  · split
    · exact (grows_readStatus _ _).trans (grows_ctlOp _ _ _ _)
    · refine (grows_readStatus p s).trans (grows_andThen (grows_rbIsEmptyOp _ _) fun e t => ?_)
      split
      · exact (grows_setTxActive _ _ _).trans
          (grows_andThen (grows_negRtsCond _ _) fun _ u => grows_ctlOp _ _ _ _)
      · refine grows_andThen (grows_rbDeqOp _ _) fun d u => ?_
        split
        · exact grows_raise _ _ _ _
        · exact (grows_writeData _ _ _).trans (grows_ctlOp _ _ _ _)

theorem grows_kickOp (p : Nat) (s : State) : Grows s (kickOp p s).st := by
  unfold kickOp
  split
  · exact grows_raise _ _ _ _
  · exact .refl _
  · exact grows_andThen (grows_lineOp _ _ _ _) fun _ t =>
      (grows_setTxActive _ _ _).trans (grows_andThen (grows_txPhaseOp _ _) fun _ u => .refl _)

theorem grows_rxTurn (p : Byte) (s : State) : Grows s (rxTurn p s) := by
  unfold rxTurn
  dsimp only
  split
  · exact (((grows_readStatus _ _).trans (grows_readData _ _)).trans (grows_upOp _ _ _)).trans (grows_pushStmts _ _ _ _)
  · exact grows_readStatus _ _

theorem grows_onPort {p : Byte} {s f t : State} (hf : Grows s f) (h : onPort p s f = .next t) : Grows s t := by
  obtain ⟨-, rfl⟩ := onPort_next h
  exact hf

theorem grows_onHost {p op : Byte} {s f t : State} (hf : Grows s f) (h : onHost p op s f = .next t) : Grows s t := by
  obtain ⟨-, rfl⟩ | ⟨-, rfl⟩ := onHost_next h
  · exact hf
  · exact grows_raise _ _ _ _

/-- Every instruction keeps the launch and only grows the histories. -/
theorem grows_exec {i : Instr} {s t : State} (h : exec i s = .next t) : Grows s t := by
  cases i with
  | probe p => exact grows_onHost (grows_returnOp _ _ _ _) h
  | initInt p => exact grows_onHost (grows_beginCmd _ _ _ _ _) h
  | initPoll p => exact grows_onHost (grows_beginCmd _ _ _ _ _) h
  | openPort p => exact grows_onHost (grows_beginCmd _ _ _ _ _) h
  | closePort p => exact grows_onHost (grows_beginCmd _ _ _ _ _) h
  | flush p => exact grows_onHost (grows_beginCmd _ _ _ _ _) h
  | writeInt p xs => exact grows_onHost (grows_beginCmd _ _ _ _ _) h
  | writePoll p xs => exact grows_onHost (grows_beginCmd _ _ _ _ _) h
  | writePolled p b => exact grows_onHost (grows_beginCmd _ _ _ _ _) h
  | readPolled p => exact grows_onHost (grows_beginCmd _ _ _ _ _) h
  | setAttr p => exact grows_onHost (grows_beginCmd _ _ _ _ _) h
  | fcAssert p => exact grows_onHost (grows_beginCmd _ _ _ _ _) h
  | fcNegate p => exact grows_onHost (grows_beginCmd _ _ _ _ _) h
  | rbInit p => exact grows_onPort (grows_setRb _ _ _) h
  | rbIsEmpty p => exact grows_onPort (grows_toLat (grows_rbIsEmptyOp _ _) _ _) h
  | rbIsFull p => exact grows_onPort (grows_toLat (grows_rbIsFullOp _ _) _ _) h
  | rbEnq p b => exact grows_onPort (grows_toLat (grows_rbEnqOp _ _ _) _ _) h
  | rbDeq p => exact grows_onPort (grows_toLat (grows_rbDeqOp _ _) _ _) h
  | assertRts p => exact grows_onPort (grows_lineOp _ _ _ _) h
  | negateRts p => exact grows_onPort (grows_lineOp _ _ _ _) h
  | assertDtr p => exact grows_onPort (grows_lineOp _ _ _ _) h
  | negateDtr p => exact grows_onPort (grows_lineOp _ _ _ _) h
  | mcw p v => exact grows_onPort (grows_mcwOp _ _ _) h
  | alloc p =>
    exact grows_onPort
      (((grows_takeAlloc _).trans (grows_emit _ _)).trans ((grows_setLife _ _ _).trans (grows_setLat _ _ _))) h
  | channelReset p => exact grows_onPort (grows_pushStmts _ _ _ _) h
  | portInitializer p => exact grows_onPort (grows_pushStmts _ _ _ _) h
  | registerVector p =>
    refine grows_onPort ?_ h
    refine ⟨rfl, List.prefix_append _ _, fun _ => List.prefix_refl _, fun v hv => ?_, id⟩
    show v ∈ (if (s.port p.toNat).cfg.vector ∈ s.vreg then s.vreg else s.vreg ++ [(s.port p.toNat).cfg.vector])
    split
    · exact hv
    · exact List.mem_append_left _ hv
  | rxPhase p =>
    refine grows_onPort ?_ h
    split
    · exact grows_rxTurn _ _
    · exact .refl _
  | txPhase p => exact grows_onPort (grows_txPhaseOp _ _) h
  | extPhase p =>
    refine grows_onPort ?_ h
    split
    · exact (grows_ctlOp _ _ _ _).trans (grows_readStatus _ _)
    · exact .refl _
  | eoi p => exact grows_onPort (grows_ctlOp _ _ _ _) h
  | process p bits =>
    refine grows_onPort (Grows.trans ?_ (grows_pushStmts _ _ _ _)) h
    exact .of_same rfl rfl (List.prefix_refl _) rfl rfl
  | isrEntry p =>
    simp only [exec, execIsrEntry] at h
    split at h
    · rw [← Host.Outcome.next.inj h]
      split
      · exact .of_same rfl rfl (List.prefix_append _ _) rfl rfl
      · exact .of_same rfl rfl (List.prefix_refl _) rfl rfl
    · rw [← Host.Outcome.next.inj h]
      exact .of_same rfl rfl (List.prefix_refl _) rfl rfl
  | kick p => exact grows_onPort (grows_toLat (grows_kickOp _ _) _ _) h
  | wait p => exact grows_onPort (grows_emit _ _) h
  | getReg p tag =>
    simp only [exec, execGetReg] at h
    split at h
    · exact grows_onPort (((grows_takeByte _).trans (grows_emit _ _)).trans (grows_setLat _ _ _)) h
    · cases h
  | setReg p v tag => exact grows_onPort (grows_emit _ _) h
  | getData p => exact grows_onPort ((grows_readData _ _).trans (grows_setLat _ _ _)) h
  | setData p v => exact grows_onPort (grows_writeData _ _ _) h
  | ctl p a tag =>
    cases tag with
    | act k => exact grows_onPort (grows_ctlOp _ _ _ _) h
    | selStatus => cases h
    | selPending => cases h
    | selMc => cases h
  | up p c => exact grows_onPort (grows_upOp _ _ _) h

/-! ### The transmit phase -/

/-- What the transmit phase can leave of a port's record: only `rb`, `tx_active`, `mc` and `ie` may differ, the ring by its
head dequeued, `tx_active` only to false, `mc` only by the conditional RTS negate. -/
structure TxLeaves (par : Params) (q q' : Port) : Prop where
  rest : q' = { q with rb := q'.rb, txActive := q'.txActive, mc := q'.mc, ie := q'.ie }
  ring : q'.rb = q.rb ∨ ∃ r r' b, q.rb = some r ∧ q'.rb = some r' ∧ r.deq par.rbCap = .ok b r'
  tx   : q'.txActive = q.txActive ∨ q'.txActive = some false
  mc   : q'.mc = q.mc ∨ (q.cfg.strategy ≠ .rtscts ∧ ∃ m, q.mc = some m ∧ q'.mc = some (m &&& ~~~par.mcRts))

/-- On a port with a well-formed ring and a shadow byte the transmit phase does not raise, and leaves what `TxLeaves` says. -/
theorem txPhaseOp_leaves {s : State} {p : Nat} {r : Ring} {m : Byte} (hp : p < s.nports) (hr : (s.port p).rb = some r)
    (hw : r.wf s.par.rbCap = true) (hm : (s.port p).mc = some m) :
    ∃ q' es, txPhaseOp p s = .pure () ((takeByte s).upd p q' es) ∧ TxLeaves s.par (s.port p) q' := by
  have hp' : p < (takeByte s).nports := hp
  unfold txPhaseOp
  rw [readStatus_eq hp]
  dsimp only
  split
  · exact ⟨_, _, rfl, rfl, .inl rfl, .inl rfl, .inl rfl⟩
  · split
    · rw [ctlOp_eq, upd_port_same hp', upd_upd]
      exact ⟨_, _, rfl, rfl, .inl rfl, .inl rfl, .inl rfl⟩
    · rw [rbIsEmptyOp_some (r := r) (by rw [upd_port_same hp']; exact hr), Flow.pure_andThen]
      split
      · rw [setTxActive_eq, upd_port_same hp', upd_upd]
        by_cases hst : (s.port p).cfg.strategy = .rtscts
        · rw [negRtsCond_rtscts (by rw [upd_port_same hp']; exact hst), Flow.pure_andThen, ctlOp_eq, upd_port_same hp',
            upd_upd]
          exact ⟨_, _, rfl, rfl, .inl rfl, .inr rfl, .inl rfl⟩
        · rw [negRtsCond_some (m := m) (by rw [upd_port_same hp']; exact hst) (by rw [upd_port_same hp']; exact hm),
            Flow.pure_andThen]
          simp only [ctlOp_eq, upd_upd, upd_port_same hp']
          exact ⟨_, _, rfl, rfl, .inl rfl, .inr rfl, .inr ⟨hst, m, hm, rfl⟩⟩
      · rename_i he
        have hn : r.count ≠ 0 := by simpa [Ring.isEmpty] using he
        obtain ⟨b, r', hd⟩ := Ring.deq_of_wf hw hn
        have hdeq := rbDeqOp_ok (p := p) (r := r) (r' := r') (b := b)
          (s := (takeByte s).upd p (s.port p) [.rdReg (s.port p).cfg.ctrlOwn s.par.selStatus (nextByte s)])
          (by rw [upd_port_same hp']; exact hr) hd
        rw [upd_port_same hp', upd_upd] at hdeq
        rw [hdeq, Flow.pure_andThen]
        dsimp only
        rw [writeData_eq (by rw [upd_nports]; exact hp'), upd_upd]
        simp only [ctlOp_eq, upd_upd, upd_port_same hp']
        exact ⟨_, _, rfl, rfl, .inr ⟨r, r', b, hr, rfl, hd⟩, .inl rfl, .inl rfl⟩

end Sys2Proof.Machine
end

