-- ==== Sys2Proof/Laws/PerInstr.lean ====
section
/-! SUPPORT. R111 as a statement about each instruction as syntax: its encoding is one word, and the payload bytes after it
in format S, with no padding. -/

namespace Sys2Proof.Laws.EncodedLength

open Sys2Proof

/-- An instruction takes the four bytes of its word and its payload (R111). -/
def Statement (i : Instr) : Prop := (encode i).length = 4 + i.payload.length

theorem probe (p : Byte) : Statement (.probe p) := rfl
theorem initInt (p : Byte) : Statement (.initInt p) := rfl
theorem initPoll (p : Byte) : Statement (.initPoll p) := rfl
theorem openPort (p : Byte) : Statement (.openPort p) := rfl
theorem closePort (p : Byte) : Statement (.closePort p) := rfl
theorem flush (p : Byte) : Statement (.flush p) := rfl
theorem writeInt (p : Byte) (xs : List Byte) : Statement (.writeInt p xs) := by simp [Statement, encode, lenBytes, Instr.payload]; omega
theorem writePoll (p : Byte) (xs : List Byte) : Statement (.writePoll p xs) := by simp [Statement, encode, lenBytes, Instr.payload]; omega
theorem writePolled (p : Byte) (b : Byte) : Statement (.writePolled p b) := rfl
theorem readPolled (p : Byte) : Statement (.readPolled p) := rfl
theorem setAttr (p : Byte) : Statement (.setAttr p) := rfl
theorem fcAssert (p : Byte) : Statement (.fcAssert p) := rfl
theorem fcNegate (p : Byte) : Statement (.fcNegate p) := rfl
theorem rbInit (p : Byte) : Statement (.rbInit p) := rfl
theorem rbIsEmpty (p : Byte) : Statement (.rbIsEmpty p) := rfl
theorem rbIsFull (p : Byte) : Statement (.rbIsFull p) := rfl
theorem rbEnq (p : Byte) (b : Byte) : Statement (.rbEnq p b) := rfl
theorem rbDeq (p : Byte) : Statement (.rbDeq p) := rfl
theorem assertRts (p : Byte) : Statement (.assertRts p) := rfl
theorem negateRts (p : Byte) : Statement (.negateRts p) := rfl
theorem assertDtr (p : Byte) : Statement (.assertDtr p) := rfl
theorem negateDtr (p : Byte) : Statement (.negateDtr p) := rfl
theorem mcw (p : Byte) (v : Byte) : Statement (.mcw p v) := rfl
theorem alloc (p : Byte) : Statement (.alloc p) := rfl
theorem channelReset (p : Byte) : Statement (.channelReset p) := rfl
theorem portInitializer (p : Byte) : Statement (.portInitializer p) := rfl
theorem registerVector (p : Byte) : Statement (.registerVector p) := rfl
theorem rxPhase (p : Byte) : Statement (.rxPhase p) := rfl
theorem txPhase (p : Byte) : Statement (.txPhase p) := rfl
theorem extPhase (p : Byte) : Statement (.extPhase p) := rfl
theorem eoi (p : Byte) : Statement (.eoi p) := rfl
theorem process (p : Byte) (bits : Byte) : Statement (.process p bits) := rfl
theorem isrEntry (p : Byte) : Statement (.isrEntry p) := rfl
theorem kick (p : Byte) : Statement (.kick p) := rfl
theorem wait (p : Byte) : Statement (.wait p) := rfl
theorem getReg (p : Byte) (tag : RegTag) : Statement (.getReg p tag) := rfl
theorem setReg (p : Byte) (v : Byte) (tag : RegTag) : Statement (.setReg p v tag) := rfl
theorem getData (p : Byte) : Statement (.getData p) := rfl
theorem setData (p : Byte) (v : Byte) : Statement (.setData p v) := rfl
theorem ctl (p : Byte) (a : Byte) (tag : RegTag) : Statement (.ctl p a tag) := rfl
theorem up (p : Byte) (c : Byte) : Statement (.up p c) := rfl

end Sys2Proof.Laws.EncodedLength
end

