-- ==== Sys2Proof/Laws/Run.lean ====
section
/-! SUPPORT. Runs of one TASK without interruption. `s.view p q es e` is `s` seen from TASK(p): the record of port p is `q`,
the events `es` have been appended and the environment's side is `e`. Each micro-operation takes a view to a view, and one
step of the run is one lemma. -/

namespace Sys2Proof.Machine

open Sys2Proof

/-- `s` with TASK(p) stepping, its port's record, the events appended and the environment's side. -/
def State.view (s : State) (p : Nat) (q : Port) (es : List Event) (e : Env) : State :=
  ({ s with cur := p, env := e } : State).upd p q es

/-- The environment's side after a bus answer is used up. -/
def Env.afterByte (e : Env) : Env := { e with bytes := e.bytes.tail, nBytes := e.nBytes + 1 }

/-- The environment's side after an allocation answer is used up. -/
def Env.afterAlloc (e : Env) : Env := { e with allocs := e.allocs.tail, nAllocs := e.nAllocs + 1 }

/-- The environment's side after a scheduling choice is used up. -/
def Env.afterChoice (e : Env) : Env := { e with sched := e.sched.tail, nSched := e.nSched + 1 }

/-- The next bus answer. -/
def Env.byte (e : Env) : Byte :=
  match e.bytes with
  | b :: _ => b
  | [] => Config.envByte e.nBytes

/-- The next allocation answer. -/
def Env.alloc (e : Env) : Bool :=
  match e.allocs with
  | b :: _ => b
  | [] => Config.envAlloc e.nAllocs

theorem nextByte_eq (s : State) : nextByte s = s.env.byte := rfl
theorem nextAlloc_eq (s : State) : nextAlloc s = s.env.alloc := rfl

theorem nextChoice_head (s : State) {c : Choice} (h : s.env.sched.head? = some c) : nextChoice s = c := by
  cases hs : s.env.sched with
  | nil => rw [hs] at h; cases h
  | cons d ds => rw [hs] at h; rw [nextChoice_script s d ds hs]; exact Option.some.inj h

section
variable {s : State} {p : Nat} {q : Port} {es : List Event} {e : Env}

@[simp] theorem view_par : (s.view p q es e).par = s.par := rfl
@[simp] theorem view_cpu : (s.view p q es e).cpu = s.cpu := rfl
@[simp] theorem view_ipc : (s.view p q es e).ipc = s.ipc := rfl
@[simp] theorem view_fault : (s.view p q es e).fault = s.fault := rfl
@[simp] theorem view_sysUp : (s.view p q es e).sysUp = s.sysUp := rfl
@[simp] theorem view_vreg : (s.view p q es e).vreg = s.vreg := rfl
@[simp] theorem view_env : (s.view p q es e).env = e := rfl

@[simp] theorem view_nports : (s.view p q es e).nports = s.nports := by simp [State.view, State.nports]

@[simp] theorem view_port (hp : p < s.nports) : (s.view p q es e).port p = q :=
  upd_port_same (s := { s with cur := p, env := e }) hp q es

@[simp] theorem view_upd (q' : Port) (es' : List Event) :
    (s.view p q es e).upd p q' es' = s.view p q' (es ++ es') e := by
  simp [State.view]

@[simp] theorem view_takeByte : takeByte (s.view p q es e) = s.view p q es e.afterByte := rfl
@[simp] theorem view_takeAlloc : takeAlloc (s.view p q es e) = s.view p q es e.afterAlloc := rfl
@[simp] theorem view_takeChoice : takeChoice (s.view p q es e) = s.view p q es e.afterChoice := rfl
@[simp] theorem view_nextByte : nextByte (s.view p q es e) = e.byte := rfl
@[simp] theorem view_nextAlloc : nextAlloc (s.view p q es e) = e.alloc := rfl

@[simp] theorem view_emit (ev : Event) : emit ev (s.view p q es e) = s.view p q (es ++ [ev]) e := by
  simp [State.view]

@[simp] theorem view_setLat (hc : s.cpu = .task) (hp : p < s.nports) (r : MicroResult) :
    setLat p r (s.view p q es e) = s.view p { q with lat := r } es e := by
  rw [setLat_task (s := s.view p q es e) hc, view_port hp, view_upd, List.append_nil]

@[simp] theorem view_setTpc (hp : p < s.nports) (t : TaskPc) :
    setTpc p t (s.view p q es e) = s.view p { q with tpc := t } es e := by
  rw [setTpc_eq, view_port hp, view_upd, List.append_nil]

@[simp] theorem view_setTxActive (hp : p < s.nports) (b : Bool) :
    setTxActive p b (s.view p q es e) = s.view p { q with txActive := some b } es e := by
  rw [setTxActive_eq, view_port hp, view_upd, List.append_nil]

@[simp] theorem view_setRb (hp : p < s.nports) (r : Ring) :
    setRb p r (s.view p q es e) = s.view p { q with rb := some r } es e := by
  rw [setRb_eq, view_port hp, view_upd, List.append_nil]

@[simp] theorem view_setLife (hp : p < s.nports) (l : Life) :
    setLife p l (s.view p q es e) = s.view p { q with life := l } es e := by
  rw [setLife_eq, view_port hp, view_upd, List.append_nil]

@[simp] theorem view_returnOp (hp : p < s.nports) (op : Byte) (r : Res) :
    returnOp p op r (s.view p q es e) = s.view p { q with res := some r, tpc := .idle } (es ++ [.ret p op r]) e := by
  rw [returnOp_eq, view_port hp, view_upd]

@[simp] theorem view_ctlOp (hp : p < s.nports) (k : Action) (a : Byte) :
    ctlOp p k a (s.view p q es e)
      = s.view p { q with ie := q.ie.apply k } (es ++ [ctlEvent s.par q.cfg k a]) e := by
  rw [ctlOp_eq, view_port hp, view_upd, view_par]

@[simp] theorem view_mcwOp (hp : p < s.nports) (v : Byte) :
    mcwOp p v (s.view p q es e) = s.view p { q with mc := some v } (es ++ [mcwEvent s.par q.cfg v]) e := by
  rw [mcwOp_eq, view_port hp, view_upd, view_par]

@[simp] theorem view_readStatus (hp : p < s.nports) :
    readStatus p (s.view p q es e)
      = s.view p q (es ++ [.rdReg q.cfg.ctrlOwn s.par.selStatus e.byte]) e.afterByte := by
  rw [readStatus_eq (by simpa using hp), view_port hp, view_takeByte, view_upd, view_par, view_nextByte]

@[simp] theorem view_readData (hp : p < s.nports) :
    readData p (s.view p q es e) = s.view p q (es ++ [.rdData q.cfg.dataAddr e.byte]) e.afterByte := by
  rw [readData_eq (by simpa using hp), view_port hp, view_takeByte, view_upd, view_nextByte]

@[simp] theorem view_writeData (hp : p < s.nports) (v : Byte) :
    writeData p v (s.view p q es e) = s.view p q (es ++ [.wrData q.cfg.dataAddr v]) e := by
  rw [writeData_eq (by simpa using hp), view_port hp, view_upd]

@[simp] theorem view_pushStmts (hc : s.cpu = .task) (hp : p < s.nports) {c : Instr} {pos : List Stmt}
    (ht : q.tpc = .inCmd c pos) (i : Instr) (l : List Stmt) :
    pushStmts i p l (s.view p q es e) = s.view p { q with tpc := .inCmd c (l ++ pos) } es e := by
  rw [pushStmts_task (s := s.view p q es e) hc (by rw [view_port hp]; exact ht), view_port hp, view_upd, List.append_nil]

theorem view_lineOp (hp : p < s.nports) {m : Byte} (hm : q.mc = some m) (op : Byte) (f : Byte → Byte) :
    lineOp p op f (s.view p q es e)
      = .pure () (s.view p { q with mc := some (f m) } (es ++ [mcwEvent s.par q.cfg (f m)]) e) := by
  rw [lineOp_some (m := m) (by rw [view_port hp]; exact hm), view_port hp, view_upd, view_par]

/-- One TASK step inside a command, when the statement does not raise. -/
theorem run_view {cmd : Instr} {st : Stmt} {rest : List Stmt} {q' : Port} {es' : List Event} {e' : Env}
    {n : Nat} (hf : s.fault = none) (hc : s.cpu = .task) (hp : p < s.nports) (hs : e.sched.head? = some (.task p))
    (ht : q.tpc = .inCmd cmd (st :: rest))
    (hx : taskStmt p cmd st rest (s.view p { q with tpc := .inCmd cmd rest } es e.afterChoice)
      = .next (s.view p q' es' e')) :
    run (n + 1) (s.view p q es e) = run n (s.view p q' es' e') := by
  have hn : nextChoice (s.view p q es e) = .task p := nextChoice_head _ hs
  have hp' : p < (s.view p q es e).nports := by rw [view_nports]; exact hp
  have ht' : ((s.view p q es e).port p).tpc = .inCmd cmd (st :: rest) := by rw [view_port hp]; exact ht
  have hstart : ((s.view p q es e).taskStart p).upd p { (s.view p q es e).port p with tpc := .inCmd cmd rest } []
      = s.view p { q with tpc := .inCmd cmd rest } es e.afterChoice := by
    rw [view_port hp]
    show (s.view p q es e.afterChoice).upd p { q with tpc := .inCmd cmd rest } [] = _
    rw [view_upd, List.append_nil]
  have hstep : step (s.view p q es e) = .next (s.view p q' es' e') := by
    rw [step_of_task (s := s.view p q es e) hf hc hn, stepTask_inCmd hp' ht', hstart, hx]
    exact if_pos hf
  rw [run, hstep]

/-- `s` is a view of itself but for the field `cur`. -/
theorem view_self (hp : p < s.nports) : s.view p (s.port p) [] s.env = { s with cur := p } :=
  upd_self (s := { s with cur := p }) hp

/-- A TASK step inside a command from any state is the same step from its view. -/
theorem run_of_view {cmd : Instr} {st : Stmt} {rest : List Stmt} {n : Nat} (hf : s.fault = none) (hc : s.cpu = .task)
    (hp : p < s.nports) (hn : nextChoice s = .task p) (ht : (s.port p).tpc = .inCmd cmd (st :: rest)) :
    run (n + 1) s = run (n + 1) (s.view p (s.port p) [] s.env) := by
  have : step s = step { s with cur := p } := by
    rw [step_of_task hf hc hn, step_of_task (s := { s with cur := p }) hf hc hn, stepTask_inCmd hp ht,
      stepTask_inCmd (s := { s with cur := p }) hp ht]
    rfl
  rw [view_self hp, run, run, this]

/-- The step that issues a command, from any state to a view. -/
theorem run_issue {c : Command} {n : Nat} {q' : Port} {es' : List Event} {e' : Env} (hf : s.fault = none)
    (hc : s.cpu = .task) (hp : p < s.nports) (hn : nextChoice s = .task p) (ht : (s.port p).tpc = .idle)
    (hk : (s.port p).prog[(s.port p).hpc]? = some c)
    (hx : issue p c (s.view p (s.port p) [] s.env.afterChoice) = .next (s.view p q' es' e')) :
    run (n + 1) s = run n (s.view p q' es' e') := by
  have hstart : s.taskStart p = s.view p (s.port p) [] s.env.afterChoice := (upd_self (s := s.taskStart p) hp).symm
  have hstep : step s = .next (s.view p q' es' e') := by
    rw [step_of_task hf hc hn, stepTask_issue hp ht hk, hstart, hx]
  rw [run, hstep]

end

/-! ### One lemma for each statement a run meets -/

@[simp] theorem afterChoice_sched (e : Env) : e.afterChoice.sched = e.sched.tail := rfl
@[simp] theorem afterByte_sched (e : Env) : e.afterByte.sched = e.sched := rfl
@[simp] theorem afterAlloc_sched (e : Env) : e.afterAlloc.sched = e.sched := rfl
@[simp] theorem afterChoice_byte (e : Env) : e.afterChoice.byte = e.byte := rfl
@[simp] theorem afterAlloc_byte (e : Env) : e.afterAlloc.byte = e.byte := rfl
@[simp] theorem afterChoice_alloc (e : Env) : e.afterChoice.alloc = e.alloc := rfl

section
variable {s : State} {p : Byte} {q : Port} {es : List Event} {e : Env} {cmd : Instr} {rest : List Stmt} {n : Nat}

theorem run_ctl {k : Action} {a : Byte} (hf : s.fault = none) (hc : s.cpu = .task) (hp : p.toNat < s.nports)
    (hs : e.sched.head? = some (.task p.toNat)) (ht : q.tpc = .inCmd cmd (.op (.ctl p a (.act k)) :: rest)) :
    run (n + 1) (s.view p.toNat q es e)
      = run n (s.view p.toNat { q with tpc := .inCmd cmd rest, ie := q.ie.apply k }
          (es ++ [ctlEvent s.par q.cfg k a]) e.afterChoice) := by
  refine run_view hf hc hp hs ht ?_
  rw [taskStmt, exec, execCtl, onPort_of_lt (by rw [view_nports]; exact hp), view_ctlOp hp]

theorem run_mcw {v : Byte} (hf : s.fault = none) (hc : s.cpu = .task) (hp : p.toNat < s.nports)
    (hs : e.sched.head? = some (.task p.toNat)) (ht : q.tpc = .inCmd cmd (.op (.mcw p v) :: rest)) :
    run (n + 1) (s.view p.toNat q es e)
      = run n (s.view p.toNat { q with tpc := .inCmd cmd rest, mc := some v } (es ++ [mcwEvent s.par q.cfg v])
          e.afterChoice) := by
  refine run_view hf hc hp hs ht ?_
  rw [taskStmt, exec, execMcw, onPort_of_lt (by rw [view_nports]; exact hp), view_mcwOp hp]

theorem run_getStatus (hf : s.fault = none) (hc : s.cpu = .task) (hp : p.toNat < s.nports)
    (hs : e.sched.head? = some (.task p.toNat)) (ht : q.tpc = .inCmd cmd (.op (.getReg p .selStatus) :: rest)) :
    run (n + 1) (s.view p.toNat q es e)
      = run n (s.view p.toNat { q with tpc := .inCmd cmd rest, lat := .byte e.byte }
          (es ++ [.rdReg q.cfg.ctrlOwn s.par.selStatus e.byte]) e.afterChoice.afterByte) := by
  refine run_view hf hc hp hs ht ?_
  rw [taskStmt, exec, execGetReg, if_pos (show RegTag.readable .selStatus = true from rfl),
    onPort_of_lt (by rw [view_nports]; exact hp), busRdReg, view_takeByte, view_emit, view_nextByte, view_setLat hc hp,
    view_port hp]
  rfl

theorem run_getData (hf : s.fault = none) (hc : s.cpu = .task) (hp : p.toNat < s.nports)
    (hs : e.sched.head? = some (.task p.toNat)) (ht : q.tpc = .inCmd cmd (.op (.getData p) :: rest)) :
    run (n + 1) (s.view p.toNat q es e)
      = run n (s.view p.toNat { q with tpc := .inCmd cmd rest, lat := .byte e.byte }
          (es ++ [.rdData q.cfg.dataAddr e.byte]) e.afterChoice.afterByte) := by
  refine run_view hf hc hp hs ht ?_
  rw [taskStmt, exec, execGetData, onPort_of_lt (by rw [view_nports]; exact hp), view_readData hp, view_nextByte,
    view_setLat hc hp]
  rfl

theorem run_setData {v : Byte} (hf : s.fault = none) (hc : s.cpu = .task) (hp : p.toNat < s.nports)
    (hs : e.sched.head? = some (.task p.toNat)) (ht : q.tpc = .inCmd cmd (.op (.setData p v) :: rest)) :
    run (n + 1) (s.view p.toNat q es e)
      = run n (s.view p.toNat { q with tpc := .inCmd cmd rest } (es ++ [.wrData q.cfg.dataAddr v]) e.afterChoice) := by
  refine run_view hf hc hp hs ht ?_
  rw [taskStmt, exec, execSetData, onPort_of_lt (by rw [view_nports]; exact hp), view_writeData hp]

theorem run_line {i : Instr} {m v : Byte} (hf : s.fault = none) (hc : s.cpu = .task) (hp : p.toNat < s.nports)
    (hs : e.sched.head? = some (.task p.toNat)) (ht : q.tpc = .inCmd cmd (.op i :: rest)) (hm : q.mc = some m)
    (hi : i = .assertRts p ∧ v = m ||| s.par.mcRts ∨ i = .negateRts p ∧ v = m &&& ~~~s.par.mcRts
      ∨ i = .assertDtr p ∧ v = m ||| s.par.mcDtr ∨ i = .negateDtr p ∧ v = m &&& ~~~s.par.mcDtr) :
    run (n + 1) (s.view p.toNat q es e)
      = run n (s.view p.toNat { q with tpc := .inCmd cmd rest, mc := some v } (es ++ [mcwEvent s.par q.cfg v])
          e.afterChoice) := by
  have hm' : ({ q with tpc := .inCmd cmd rest } : Port).mc = some m := hm
  refine run_view hf hc hp hs ht ?_
  rcases hi with ⟨rfl, rfl⟩ | ⟨rfl, rfl⟩ | ⟨rfl, rfl⟩ | ⟨rfl, rfl⟩
  · rw [taskStmt, exec, execAssertRts, onPort_of_lt (by rw [view_nports]; exact hp), assertRtsOp, view_lineOp hp hm']
    rfl
  · rw [taskStmt, exec, execNegateRts, onPort_of_lt (by rw [view_nports]; exact hp), negateRtsOp, view_lineOp hp hm']
    rfl
  · rw [taskStmt, exec, execAssertDtr, onPort_of_lt (by rw [view_nports]; exact hp), assertDtrOp, view_lineOp hp hm']
    rfl
  · rw [taskStmt, exec, execNegateDtr, onPort_of_lt (by rw [view_nports]; exact hp), negateDtrOp, view_lineOp hp hm']
    rfl

theorem run_channelReset (hf : s.fault = none) (hc : s.cpu = .task) (hp : p.toNat < s.nports)
    (hs : e.sched.head? = some (.task p.toNat)) (ht : q.tpc = .inCmd cmd (.op (.channelReset p) :: rest)) :
    run (n + 1) (s.view p.toNat q es e)
      = run n (s.view p.toNat { q with tpc := .inCmd cmd (channelResetBody q.cfg p ++ rest) } es e.afterChoice) := by
  refine run_view hf hc hp hs ht ?_
  rw [taskStmt, exec, execChannelReset, onPort_of_lt (by rw [view_nports]; exact hp), view_pushStmts hc hp rfl,
    view_port hp]

theorem run_portInitializer (hf : s.fault = none) (hc : s.cpu = .task) (hp : p.toNat < s.nports)
    (hs : e.sched.head? = some (.task p.toNat)) (ht : q.tpc = .inCmd cmd (.op (.portInitializer p) :: rest)) :
    run (n + 1) (s.view p.toNat q es e)
      = run n (s.view p.toNat { q with tpc := .inCmd cmd (initializerBody s.par p ++ rest) } es e.afterChoice) := by
  refine run_view hf hc hp hs ht ?_
  rw [taskStmt, exec, execPortInitializer, onPort_of_lt (by rw [view_nports]; exact hp), view_pushStmts hc hp rfl,
    view_par]

theorem run_baud {d : BitVec 16} (hf : s.fault = none) (hc : s.cpu = .task) (hp : p.toNat < s.nports)
    (hs : e.sched.head? = some (.task p.toNat)) (ht : q.tpc = .inCmd cmd (.baud :: rest))
    (hd : s.par.baudDiv q.cfg.clockHz q.cfg.baud = some d) :
    run (n + 1) (s.view p.toNat q es e)
      = run n (s.view p.toNat { q with tpc := .inCmd cmd (brgBody p d ++ rest) } es e.afterChoice) := by
  refine run_view hf hc hp hs ht ?_
  simp only [taskStmt, view_par, view_port hp, hd, view_setTpc hp, BitVec.ofNat_toNat, BitVec.setWidth_eq]

theorem run_alloc (hf : s.fault = none) (hc : s.cpu = .task) (hp : p.toNat < s.nports)
    (hs : e.sched.head? = some (.task p.toNat)) (ht : q.tpc = .inCmd cmd (.op (.alloc p) :: rest)) :
    run (n + 1) (s.view p.toNat q es e)
      = run n (s.view p.toNat { q with
            tpc := .inCmd cmd rest, life := if e.alloc then .initializing else .failed, lat := .bool e.alloc }
          (es ++ [.alloc p.toNat e.alloc]) e.afterChoice.afterAlloc) := by
  refine run_view hf hc hp hs ht ?_
  rw [taskStmt, exec, execAlloc, onPort_of_lt (by rw [view_nports]; exact hp), allocOp, view_takeAlloc, view_emit,
    view_nextAlloc, view_setLife hp, view_setLat hc hp]
  rfl

theorem run_allocTest {b : Bool} (hf : s.fault = none) (hc : s.cpu = .task) (hp : p.toNat < s.nports)
    (hs : e.sched.head? = some (.task p.toNat)) (ht : q.tpc = .inCmd cmd (.allocTest :: rest)) (hl : q.lat = .bool b) :
    run (n + 1) (s.view p.toNat q es e)
      = run n (if b then s.view p.toNat { q with tpc := .inCmd cmd rest } es e.afterChoice
          else s.view p.toNat { q with res := some .errNomem, tpc := .idle } (es ++ [.ret p.toNat cmd.op .errNomem])
            e.afterChoice) := by
  cases b
  · refine run_view hf hc hp hs ht ?_
    simp only [taskStmt, view_port hp, hl, MicroResult.toBool, view_returnOp hp]
  · refine run_view hf hc hp hs ht ?_
    simp only [taskStmt, view_port hp, hl, MicroResult.toBool]

theorem run_initReady (hf : s.fault = none) (hc : s.cpu = .task) (hp : p.toNat < s.nports)
    (hs : e.sched.head? = some (.task p.toNat)) (ht : q.tpc = .inCmd cmd (.initReady :: rest)) :
    run (n + 1) (s.view p.toNat q es e)
      = run n (s.view p.toNat { q with
            tpc := .inCmd cmd rest, rb := some (.empty s.par.rbCap), txActive := some false, life := .ready }
          es e.afterChoice) := by
  refine run_view hf hc hp hs ht ?_
  simp only [taskStmt, exec, execRbInit, BitVec.ofNat_toNat, BitVec.setWidth_eq, onPort, view_nports, hp, if_true,
    view_setRb hp, view_setTxActive hp, view_setLife hp, view_par]

theorem run_ret {r : Res} (hf : s.fault = none) (hc : s.cpu = .task) (hp : p.toNat < s.nports)
    (hs : e.sched.head? = some (.task p.toNat)) (ht : q.tpc = .inCmd cmd (.ret r :: rest)) :
    run (n + 1) (s.view p.toNat q es e)
      = run n (s.view p.toNat { q with res := some r, tpc := .idle } (es ++ [.ret p.toNat cmd.op r]) e.afterChoice) := by
  refine run_view hf hc hp hs ht ?_
  rw [taskStmt, view_returnOp hp]

/-- A host command whose checks pass, begun from a view. -/
theorem view_beginCmd (hp : p.toNat < s.nports) (i : Instr) (op : Byte) (body : List Stmt) :
    onHost p op (s.view p.toNat q es e) (beginCmd i p.toNat none body (s.view p.toNat q es e))
      = .next (s.view p.toNat { q with tpc := .inCmd i body } es e) := by
  rw [onHost_of_lt (by rw [view_nports]; exact hp), beginCmd, view_setTpc hp]

/-- The decode step of a command of port p: the command in flight is at its start. -/
theorem run_decode {i : Instr} (h : AboutToRun i s) (hi : i.port = p) (hn : nextChoice s = .task p.toNat)
    (hw : hostWordFault (Command.ofBytes (encode i)).word = none)
    (hd : decode (Command.ofBytes (encode i)).bytes = .ok (i, [])) :
    run (n + 1) s
      = run n (s.view p.toNat
          { s.port p.toNat with tpc := .inCmd i [.start], hpc := (s.port p.toNat).hpc + 1 } [] s.env.afterChoice) := by
  obtain ⟨hf, hc, hp, hidle, hk⟩ := h
  subst hi
  refine run_issue hf hc hp hn hidle hk ?_
  rw [issue_of_decode hw hd rfl (by rw [view_nports]; exact hp), setPort_eq_upd, view_port hp, view_upd]
  rfl

/-- The step of a command at its start, to the view its own checks and effects give. -/
theorem run_start {i : Instr} {q' : Port} {es' : List Event} {e' : Env} (hf : s.fault = none) (hc : s.cpu = .task)
    (hp : p.toNat < s.nports) (hs : e.sched.head? = some (.task p.toNat)) (ht : q.tpc = .inCmd i [.start])
    (hx : exec i (s.view p.toNat { q with tpc := .inCmd i [] } es e.afterChoice) = .next (s.view p.toNat q' es' e')) :
    run (n + 1) (s.view p.toNat q es e) = run n (s.view p.toNat q' es' e') :=
  run_view hf hc hp hs ht hx

end

/-- The first of the choices a run is given. -/
theorem nextChoice_chosen {s : State} {p n : Nat} {cs : List Choice} (h : chosen p (n + 1) cs s) :
    nextChoice s = .task p := by
  have h' : s.env.sched = List.replicate (n + 1) (.task p) ++ cs := h
  rw [List.replicate_succ, List.cons_append] at h'
  exact nextChoice_script s _ _ h'

end Sys2Proof.Machine
end

