-- ==== Sys2Proof/Tests/Slice0.lean ====
section
/-! SUPPORT. Tests: ill-formed terms refused, words written out from the spec's encodings, one small step for each
instruction against the spec's vectors (95_test_vectors.md), and a witness of the hypotheses of each statement. -/

namespace Sys2Proof.Tests

open Sys2Proof Sys2Proof.Machine

/-! ### Small states -/

/-- A READY channel-A port with an empty ring: strategy, mode and `mc` given, `tx_active` false. -/
def ready (st : Strategy) (mo : Mode) (mc : Byte) : Port :=
  { Port.reset ({ PortCfg.default with strategy := st, mode := mo }, []) with
    life := .ready, mc := some mc, txActive := some false, rb := some ⟨[none, none, none, none], 0, 0, 0⟩
    ie := ⟨some true, some true, some true, some true, some .ctsOnly⟩ }

/-- The port with a ring. -/
def withRing (buf : List (Option Byte)) (h t n : Nat) (q : Port) : Port := { q with rb := some ⟨buf, h, t, n⟩ }

/-- One port, and the answers to the coming bus reads. -/
def one (q : Port) (bytes : List Byte) : State :=
  { State.reset with ports := [q], env := { Env.reset with bytes := bytes } }

/-- Port 0 of the default launch, not initialized, its mode given. -/
def fresh (mo : Mode) : Port := Port.reset ({ PortCfg.default with mode := mo }, [])

/-- `s` with the choices of the environment to come. -/
def sched (cs : List Choice) (s : State) : State := { s with env := { s.env with sched := cs } }

/-- `s` inside an activation for port 0 that is at the statements `l`. -/
def inIsr (l : List Stmt) (s : State) : State := { s with cpu := .isr, ipc := some ⟨⟨5⟩, [0], 0, l⟩ }

/-- Something of the next state. -/
def after {α : Type} (f : State → α) (r : Host.Outcome State Fault Refusal) : Option α :=
  match r with
  | .next t => some (f t)
  | .fault _ => none
  | .refused _ => none

/-- The refusal, where there is one. -/
def refusal (r : Host.Outcome State Fault Refusal) : Option Refusal :=
  match r with
  | .refused f => some f
  | .next _ => none
  | .fault _ => none

/-! ### Well-formedness: each check refuses an ill-formed term -/

theorem test_wf_payload_length : (Instr.writeInt 0 (List.replicate 65536 0)).wf = false := by
  simp only [Instr.wf, List.length_replicate]; decide

theorem test_wf_empty_pending_set : (Instr.process 0 0).wf = false := by decide

theorem test_wf_wide_pending_set : (Instr.process 0 8).wf = false := by decide

theorem test_wf_read_of_write_only : (Instr.getReg 0 .selMc).wf = false := by decide

theorem test_wf_read_of_action : (Instr.getReg 0 (.act .mie)).wf = false := by decide

theorem test_wf_control_of_selector : (Instr.ctl 0 0 .selStatus).wf = false := by decide

theorem test_wf_argument_of_action : (Instr.ctl 0 1 (.act .mie)).wf = false := by decide

theorem test_wf_argument_of_divisor : (Instr.ctl 0 1 (.act .brgHi)).wf = true := by decide

/-! ### Decoding: the encoding vectors of 95_test_vectors.md section 3, and a word of each format M shape from R114 -/

theorem test_decode_probe : decodeTableWord 32 0x00000001 = some (.probe 0) := by decide
theorem test_decode_init_int : decodeTableWord 32 0x00000002 = some (.initInt 0) := by decide
theorem test_decode_init_poll : decodeTableWord 32 0x00000103 = some (.initPoll 1) := by decide
theorem test_decode_open : decodeTableWord 32 0x00000104 = some (.openPort 1) := by decide
theorem test_decode_close : decodeTableWord 32 0x00000205 = some (.closePort 2) := by decide
theorem test_decode_flush : decodeTableWord 32 0x00000006 = some (.flush 0) := by decide
theorem test_decode_write_int : decode [0x07, 0x02, 0x02, 0x00, 0x48, 0x49] = .ok (.writeInt 2 [0x48, 0x49], []) := by
  decide
theorem test_decode_write_poll : decode [0x08, 0x00, 0x02, 0x00, 0x4F, 0x4B] = .ok (.writePoll 0 [0x4F, 0x4B], []) := by
  decide
theorem test_decode_putc : decodeTableWord 32 0x00410009 = some (.writePolled 0 0x41) := by decide
theorem test_decode_getc : decodeTableWord 32 0x0000030A = some (.readPolled 3) := by decide
theorem test_decode_setattr : decodeTableWord 32 0x0000000B = some (.setAttr 0) := by decide
theorem test_decode_fc_assert : decodeTableWord 32 0x0000000C = some (.fcAssert 0) := by decide
theorem test_decode_fc_negate : decodeTableWord 32 0x0000010D = some (.fcNegate 1) := by decide

/-- The stream of R111's disassembler remark: the payload is skipped, then the next word is read. -/
theorem test_decode_stream :
    decode [0x07, 0x02, 0x02, 0x00, 0x48, 0x49, 0x0A, 0x03, 0x00, 0x00]
      = .ok (.writeInt 2 [0x48, 0x49], [0x0A, 0x03, 0x00, 0x00]) := by decide

theorem test_decode_rb_init : decode [0x80, 0x03, 0x00, 0x00] = .ok (.rbInit 3, []) := by decide
theorem test_decode_rb_is_empty : decode [0x81, 0x03, 0x00, 0x00] = .ok (.rbIsEmpty 3, []) := by decide
theorem test_decode_rb_is_full : decode [0x82, 0x03, 0x00, 0x00] = .ok (.rbIsFull 3, []) := by decide
theorem test_decode_rb_enq : decode [0x83, 0x03, 0x7E, 0x00] = .ok (.rbEnq 3 0x7E, []) := by decide
theorem test_decode_rb_deq : decode [0x84, 0x03, 0x00, 0x00] = .ok (.rbDeq 3, []) := by decide
theorem test_decode_assert_rts : decode [0x88, 0x01, 0x00, 0x00] = .ok (.assertRts 1, []) := by decide
theorem test_decode_negate_rts : decode [0x89, 0x01, 0x00, 0x00] = .ok (.negateRts 1, []) := by decide
theorem test_decode_assert_dtr : decode [0x8A, 0x01, 0x00, 0x00] = .ok (.assertDtr 1, []) := by decide
theorem test_decode_negate_dtr : decode [0x8B, 0x01, 0x00, 0x00] = .ok (.negateDtr 1, []) := by decide
theorem test_decode_mcw : decode [0x8C, 0x01, 0x68, 0x00] = .ok (.mcw 1 0x68, []) := by decide
theorem test_decode_alloc : decode [0x90, 0x01, 0x00, 0x00] = .ok (.alloc 1, []) := by decide
theorem test_decode_channel_reset : decode [0x91, 0x01, 0x00, 0x00] = .ok (.channelReset 1, []) := by decide
theorem test_decode_port_initializer : decode [0x92, 0x01, 0x00, 0x00] = .ok (.portInitializer 1, []) := by decide
theorem test_decode_register_vector : decode [0x93, 0x01, 0x00, 0x00] = .ok (.registerVector 1, []) := by decide
theorem test_decode_rx_phase : decode [0x98, 0x02, 0x00, 0x00] = .ok (.rxPhase 2, []) := by decide
theorem test_decode_tx_phase : decode [0x99, 0x02, 0x00, 0x00] = .ok (.txPhase 2, []) := by decide
theorem test_decode_ext_phase : decode [0x9A, 0x02, 0x00, 0x00] = .ok (.extPhase 2, []) := by decide
theorem test_decode_eoi : decode [0x9B, 0x02, 0x00, 0x00] = .ok (.eoi 2, []) := by decide
theorem test_decode_process : decode [0x9C, 0x02, 0x07, 0x00] = .ok (.process 2 7, []) := by decide
theorem test_decode_isr_entry : decode [0x9D, 0x00, 0x00, 0x00] = .ok (.isrEntry 0, []) := by decide
theorem test_decode_kick : decode [0x9E, 0x02, 0x00, 0x00] = .ok (.kick 2, []) := by decide
theorem test_decode_wait : decode [0x9F, 0x02, 0x00, 0x00] = .ok (.wait 2, []) := by decide
theorem test_decode_get_reg : decode [0xA0, 0x02, 0x00, 0x01] = .ok (.getReg 2 .selPending, []) := by decide
theorem test_decode_set_reg : decode [0xA1, 0x02, 0x6A, 0x02] = .ok (.setReg 2 0x6A .selMc, []) := by decide
theorem test_decode_get_data : decode [0xA2, 0x02, 0x00, 0x00] = .ok (.getData 2, []) := by decide
theorem test_decode_set_data : decode [0xA3, 0x02, 0x58, 0x00] = .ok (.setData 2 0x58, []) := by decide
theorem test_decode_ctl : decode [0xA4, 0x02, 0x0A, 0x16] = .ok (.ctl 2 0x0A (.act .brgLo), []) := by decide
theorem test_decode_up : decode [0xA8, 0x02, 0x58, 0x00] = .ok (.up 2 0x58, []) := by decide

/-- A reserved OP, a reserved field and an unnamed tag are no neighbour's encoding (R113 to R115). -/
theorem test_decode_reserved :
    decode [0x0E, 0x00, 0x00, 0x00] = .error (.illegalOp 0x0E)
    ∧ decode [0x85, 0x00, 0x00, 0x00] = .error (.illegalOp 0x85)
    ∧ decode [0x04, 0x00, 0x01, 0x00] = .error (.reservedField 0x04)
    ∧ decode [0x09, 0x00, 0x41, 0x01] = .error (.reservedField 0x09)
    ∧ decode [0xA1, 0x00, 0x00, 0x24] = .error (.unnamedTag 0x24)
    ∧ decode [0x07, 0x00, 0x02, 0x00, 0x48] = .error .truncated := by decide

/-- `init p0` and `write p0` under a polled port (R121). -/
theorem test_assemble_pseudo :
    Asm.assemble (fun _ => .polled) (.init 0) = ⟨0x00000003, []⟩
    ∧ Asm.assemble (fun _ => .polled) (.write 0 [0x4F, 0x4B]) = ⟨0x00020008, [0x4F, 0x4B]⟩ := by decide

/-! ### Ring Buffer: RB-1 to RB-7, S8-3 -/

theorem test_rb_init :
    after (fun t => (t.port 0).rb) (exec (.rbInit 0) (one (fresh .interrupt) []))
      = some (some ⟨[none, none, none, none], 0, 0, 0⟩) := by decide

theorem test_rb_enq_wraps :
    after (fun t => ((t.port 0).rb, (t.port 0).lat))
        (exec (.rbEnq 0 0x41) (one (withRing [none, none, none, none] 3 3 0 (ready .none .interrupt 0x68)) []))
      = some (some ⟨[none, none, none, some 0x41], 3, 0, 1⟩, .ok) := by decide

theorem test_rb_enq_overflow :
    after (fun t => ((t.port 0).rb, (t.port 0).lat))
        (exec (.rbEnq 0 0x45)
          (one (withRing [some 0x41, some 0x42, some 0x43, some 0x44] 0 0 4 (ready .none .interrupt 0x68)) []))
      = some (some ⟨[some 0x41, some 0x42, some 0x43, some 0x44], 0, 0, 4⟩, .overflow) := by decide

theorem test_rb_deq_wraps :
    after (fun t => ((t.port 0).rb, (t.port 0).lat))
        (exec (.rbDeq 0) (one (withRing [none, none, none, some 0x41] 3 0 1 (ready .none .interrupt 0x68)) []))
      = some (some ⟨[none, none, none, none], 0, 0, 0⟩, .deq 0x41) := by decide

theorem test_rb_deq_underflow :
    after (fun t => ((t.port 0).rb, (t.port 0).lat)) (exec (.rbDeq 0) (one (ready .none .interrupt 0x68) []))
      = some (some ⟨[none, none, none, none], 0, 0, 0⟩, .underflow) := by decide

theorem test_rb_is_full :
    after (fun t => ((t.port 0).lat, t.trace))
        (exec (.rbIsFull 0)
          (one (withRing [some 0x41, some 0x42, some 0x43, some 0x44] 0 0 4 (ready .none .interrupt 0x68)) []))
      = some (.bool true, []) := by decide

theorem test_rb_is_empty_undefined :
    after (fun t => (t.trace, t.fault)) (exec (.rbIsEmpty 0) (one (fresh .interrupt) []))
      = some ([.fault .undefRead 0 0x81], some ⟨.undefRead, 0, 0x81⟩) := by decide

/-! ### Register access: REG-1 to REG-6 -/

theorem test_get_reg_status :
    after (fun t => (t.trace, (t.port 0).lat)) (exec (.getReg 0 .selStatus) (one (fresh .interrupt) [0x24, 0x00]))
      = some ([.rdReg ⟨0⟩ ⟨0⟩ 0x24], .byte 0x24) := by decide

/-- A channel-B port on chip address 0, its own address 10. -/
def chanB : Port :=
  { ready .none .interrupt 0x68 with cfg := { PortCfg.default with ctrlOwn := ⟨10⟩, dataAddr := ⟨11⟩ } }

theorem test_get_reg_pending_at_primary :
    after (fun t => t.trace) (exec (.getReg 0 .selPending) (one chanB [0x0C])) = some [.rdReg ⟨0⟩ ⟨1⟩ 0x0C] := by decide

theorem test_set_reg :
    after (fun t => (t.trace, (t.port 0).mc)) (exec (.setReg 0 0x6A .selMc) (one (ready .none .interrupt 0x68) []))
      = some ([.wrReg ⟨0⟩ ⟨2⟩ 0x6A .selMc], some 0x68) := by decide

theorem test_get_data :
    after (fun t => (t.trace, (t.port 0).lat)) (exec (.getData 0) (one (ready .none .interrupt 0x68) [0xFF]))
      = some ([.rdData ⟨1⟩ 0xFF], .byte 0xFF) := by decide

theorem test_set_data :
    after (fun t => t.trace) (exec (.setData 0 0x58) (one chanB [])) = some [.wrData ⟨11⟩ 0x58] := by decide

theorem test_ctl_mie_at_primary :
    after (fun t => (t.trace, (t.port 0).ie.mie)) (exec (.ctl 0 0 (.act .mie)) (one chanB []))
      = some ([.wrReg ⟨0⟩ ⟨3⟩ 0 (.act .mie)], some true) := by decide

theorem test_ctl_divisor_argument :
    after (fun t => (t.trace, (t.port 0).ie)) (exec (.ctl 0 0x0A (.act .brgLo)) (one chanB []))
      = some ([.wrReg ⟨10⟩ ⟨3⟩ 0x0A (.act .brgLo)], chanB.ie) := by decide

theorem test_mcw :
    after (fun t => (t.trace, (t.port 0).mc)) (exec (.mcw 0 0x68) (one (fresh .interrupt) []))
      = some ([.wrReg ⟨0⟩ ⟨2⟩ 0x68 .selMc], some 0x68) := by decide

/-- REG-4: the two channel-local sets of a pending byte. -/
theorem test_pending_sets :
    [0x10, 0x0C, 0x02, 0x3F, 0xC0].map (fun b => (Params.default.chanA b, Params.default.chanB b))
      = [(2, 0), (1, 4), (0, 2), (7, 7), (0, 0)] := by decide

/-- The predicates on the status bytes of 95_test_vectors.md section 0: RCA, TBE, CTS. -/
theorem test_status_predicates :
    [0x00, 0x01, 0x04, 0x20, 0x24, 0x25].map
        (fun b => (Params.default.rca b, Params.default.tbe b, Params.default.cts b))
      = [(false, false, false), (true, false, false), (false, true, false), (false, false, true), (false, true, true),
         (true, true, true)] := by decide

/-! ### Initialization: INIT-5 to INIT-12 -/

theorem test_alloc_fails :
    after (fun t => (t.trace, (t.port 0).life, (t.port 0).mc))
        (exec (.alloc 0) { one (fresh .interrupt) [] with env := { Env.reset with allocs := [false] } })
      = some ([.alloc 0 false], .failed, none) := by decide

theorem test_channel_reset_enters :
    after (fun t => (t.port 0).tpc) (exec (.channelReset 0) (one chanB []))
      = some (.inCmd (.channelReset 0) [.op (.getReg 0 .selStatus), .op (.ctl 0 0 (.act .chresetB))]) := by decide

/-- The count of R195: fourteen statements, the first CHANNEL_RESET and the last K_RST_TXCRC. -/
theorem test_port_initializer_enters :
    after
        (fun t => match (t.port 0).tpc with
          | .idle => none
          | .inCmd _ l => some (l.length, l.head?, l.getLast?))
        (exec (.portInitializer 0) (one (fresh .interrupt) []))
      = some (some (14, some (.op (.channelReset 0)), some (.op (.ctl 0 0 (.act .rstTxcrc))))) := by decide

theorem test_register_vector_once :
    after (fun t => (t.vreg, t.trace)) (exec (.registerVector 0) { one (fresh .interrupt) [] with vreg := [⟨5⟩] })
      = some ([⟨5⟩], [.vreg ⟨5⟩]) := by decide

theorem test_init_int_already :
    after (fun t => t.trace) (exec (.initInt 0) (one (ready .none .polled 0x68) []))
      = some [.fault .alreadyInit 0 0x02] := by decide

theorem test_init_poll_mode :
    after (fun t => (t.trace, (t.port 0).life)) (exec (.initPoll 0) (one (fresh .interrupt) []))
      = some ([.fault .mode 0 0x03], .uninit) := by decide

/-- INIT-12. -/
theorem test_baud_div :
    [(3686400, 9600), (3686400, 38400), (614400, 9600), (307200, 9600), (2097184, 1), (2097216, 1), (5, 0)].map
        (fun x => baudDivDefault x.1 x.2)
      = [some 10, some 1, some 0, none, some 65535, none, none] := by decide

/-! ### Flow control: S8-4, FC-1 to FC-9 -/

theorem test_assert_rts :
    after (fun t => (t.trace, (t.port 0).mc)) (exec (.assertRts 0) (one (ready .none .interrupt 0xE8) []))
      = some ([.wrReg ⟨0⟩ ⟨2⟩ 0xEA .selMc], some 0xEA) := by decide

theorem test_negate_rts_again :
    after (fun t => (t.trace, (t.port 0).mc)) (exec (.negateRts 0) (one (ready .none .interrupt 0x68) []))
      = some ([.wrReg ⟨0⟩ ⟨2⟩ 0x68 .selMc], some 0x68) := by decide

theorem test_assert_dtr :
    after (fun t => (t.port 0).mc) (exec (.assertDtr 0) (one (ready .none .interrupt 0x68) [])) = some (some 0xE8) := by
  decide

theorem test_negate_dtr :
    after (fun t => (t.port 0).mc) (exec (.negateDtr 0) (one (ready .none .interrupt 0xE8) [])) = some (some 0x68) := by
  decide

theorem test_assert_rts_undefined :
    after (fun t => t.trace) (exec (.assertRts 0) (one (fresh .interrupt) [])) = some [.fault .undefRead 0 0x88] := by
  decide

theorem test_fc_assert_dtrcts :
    after (fun t => (t.port 0).tpc) (exec (.fcAssert 0) (one (ready .dtrcts .interrupt 0x68) []))
      = some (.inCmd (.fcAssert 0) [.op (.assertDtr 0), .ret (.int 0)]) := by decide

theorem test_fc_assert_none :
    after (fun t => t.trace) (exec (.fcAssert 0) (one (ready .none .interrupt 0x68) []))
      = some [.fault .noStrategy 0 0x0C] := by decide

theorem test_fc_negate_uninit :
    after (fun t => t.trace) (exec (.fcNegate 0) (one (fresh .interrupt) [])) = some [.fault .portUninit 0 0x0D] := by
  decide

/-! ### Process engine: S8-5, S8-7, TX-1 to TX-7, RX-1, EXT-1, EOI-1, PROC-1, ISR-4, ISR-5, KICK-1 to KICK-4 -/

theorem test_rx_phase_no_bit :
    after (fun t => t.trace) (exec (.rxPhase 0) { one (ready .none .interrupt 0x68) [0x01] with pbits := 2 })
      = some [] := by decide

theorem test_rx_phase_turn :
    after (fun t => (t.trace, (t.port 0).upq, t.ipc.map IsrPc.stage))
        (exec (.rxPhase 0) (inIsr [.isrNext] { one (ready .none .interrupt 0x68) [0x01, 0x58] with pbits := 4 }))
      = some ([.rdReg ⟨0⟩ ⟨0⟩ 0x01, .rdData ⟨1⟩ 0x58, .up 0 0x58], [0x58], some [.op (.rxPhase 0), .isrNext]) := by
  decide

theorem test_tx_phase_sends :
    after (fun t => (t.trace, (t.port 0).rb, (t.port 0).ie.tx))
        (exec (.txPhase 0)
          (one (withRing [none, none, none, some 0x41] 3 0 1 (ready .none .interrupt 0xEA)) [0x25]))
      = some ([.rdReg ⟨0⟩ ⟨0⟩ 0x25, .wrData ⟨1⟩ 0x41, .wrReg ⟨0⟩ ⟨3⟩ 0 (.act .txintEn)],
          some ⟨[none, none, none, none], 0, 0, 0⟩, some true) := by decide

theorem test_tx_phase_drained_rtscts :
    after (fun t => (t.trace, (t.port 0).mc, (t.port 0).txActive))
        (exec (.txPhase 0) (one { ready .rtscts .interrupt 0xEA with txActive := some true } [0x24]))
      = some ([.rdReg ⟨0⟩ ⟨0⟩ 0x24, .wrReg ⟨0⟩ ⟨3⟩ 0 (.act .txintDis)], some 0xEA, some false) := by decide

theorem test_ext_phase :
    after (fun t => t.trace) (exec (.extPhase 0) { one (ready .none .interrupt 0x68) [0x77] with pbits := 1 })
      = some [.wrReg ⟨0⟩ ⟨3⟩ 0 (.act .rstExt), .rdReg ⟨0⟩ ⟨0⟩ 0x77] := by decide

theorem test_eoi :
    after (fun t => t.trace) (exec (.eoi 0) (one (ready .none .interrupt 0x68) []))
      = some [.wrReg ⟨0⟩ ⟨3⟩ 0 (.act .rstHius)] := by decide

theorem test_up : after (fun t => (t.port 0).upq) (exec (.up 0 0x58) (one (fresh .interrupt) [])) = some [0x58] := by decide

theorem test_process_order :
    after (fun t => (t.pbits, t.ipc.map IsrPc.stage))
        (exec (.process 0 7) (inIsr [.isrNext] (one (ready .none .interrupt 0x68) [])))
      = some (7, some [.op (.rxPhase 0), .op (.txPhase 0), .op (.extPhase 0), .op (.eoi 0), .isrNext]) := by decide

/-- ISR-5: a polled port with the same vector is not on the list. -/
theorem test_isr_entry_list :
    after (fun t => (t.trace, t.cpu, t.ipc.map IsrPc.aList))
        (exec (.isrEntry 0)
          { State.reset with
            ports := [ready .none .polled 0x68, ready .none .interrupt 0x68], vreg := [⟨5⟩], offer := some ⟨5⟩ })
      = some ([.irq ⟨5⟩], .isr, some [1]) := by decide

theorem test_isr_entry_not_registered :
    after (fun t => (t.trace, t.cpu))
        (exec (.isrEntry 0) { one (ready .none .interrupt 0x68) [] with offer := some ⟨5⟩ })
      = some ([], .task) := by decide

theorem test_kick_sends :
    after (fun t => (t.trace, (t.port 0).mc, (t.port 0).txActive, (t.port 0).lat))
        (exec (.kick 0) (one (withRing [some 0x48, none, none, none] 0 1 1 (ready .none .interrupt 0xE8)) [0x24]))
      = some ([.wrReg ⟨0⟩ ⟨2⟩ 0xEA .selMc, .rdReg ⟨0⟩ ⟨0⟩ 0x24, .wrData ⟨1⟩ 0x48, .wrReg ⟨0⟩ ⟨3⟩ 0 (.act .txintEn)],
          some 0xEA, some true, .kicked) := by decide

theorem test_kick_busy :
    after (fun t => (t.trace, (t.port 0).lat))
        (exec (.kick 0) (one { ready .none .interrupt 0xE8 with txActive := some true } []))
      = some ([], .busy) := by decide

/-- ISR-2: PROCESS of channel A, then of channel B, then the re-read, for pending 0x0C. -/
theorem test_service_channel_pair :
    after (fun t => t.ipc.map IsrPc.stage)
        (step (sched [.idle]
          (inIsr [.serviceTest 0, .isrNext]
            { State.reset with ports := [ready .none .interrupt 0x68, chanB], isrLat := .byte 0x0C })))
      = some (some [.op (.process 0 1), .op (.process 1 4), .op (.getReg 0 .selPending), .serviceTest 0, .isrNext]) := by
  decide

/-- The end of the activation: IEND and the context back to TASK. -/
theorem test_isr_return :
    after (fun t => (t.trace, t.cpu, t.ipc))
        (step (sched [.task 0] { one (ready .none .interrupt 0x68) [] with cpu := .isr, ipc := some ⟨⟨5⟩, [0], 1, [.isrNext]⟩ }))
      = some ([.iend ⟨5⟩], .task, none) := by decide

/-! ### Lifecycle and input and output: PROBE-1, OPEN-1, OPEN-2, FLUSH-3, WINT-5, WPOLL-3, READ-4, ATTR-1, WAIT-1 -/

theorem test_probe :
    after (fun t => (t.trace, (t.port 0).res)) (exec (.probe 0) (one (fresh .interrupt) []))
      = some ([.ret 0 0x01 (.int 1)], some (.int 1)) := by decide

theorem test_open_asserts_dtr :
    after (fun t => (t.port 0).tpc) (exec (.openPort 0) (one (ready .none .interrupt 0x68) []))
      = some (.inCmd (.openPort 0) [.op (.assertDtr 0), .ret (.int 0)]) := by decide

theorem test_open_uninit :
    after (fun t => t.trace) (exec (.openPort 0) (one (fresh .interrupt) [])) = some [.fault .portUninit 0 0x04] := by decide

theorem test_close_dtrcts :
    after (fun t => (t.port 0).tpc) (exec (.closePort 0) (one (ready .dtrcts .interrupt 0x68) []))
      = some (.inCmd (.closePort 0) [.ret (.int 0)]) := by decide

theorem test_flush_dtrcts :
    after (fun t => (t.port 0).tpc) (exec (.flush 0) (one (ready .dtrcts .interrupt 0x68) []))
      = some (.inCmd (.flush 0) [.op (.rbIsEmpty 0), .flushTest, .ret (.int 0)]) := by decide

theorem test_write_int_mode :
    after (fun t => t.trace) (exec (.writeInt 0 [0x41]) (one (ready .none .polled 0x68) []))
      = some [.fault .mode 0 0x07] := by decide

theorem test_write_int_enters :
    after (fun t => (t.port 0).tpc) (exec (.writeInt 0 [0x41]) (one (ready .none .interrupt 0x68) []))
      = some (.inCmd (.writeInt 0 [0x41]) [.writeByte 0]) := by decide

theorem test_write_poll_mode :
    after (fun t => t.trace) (exec (.writePoll 0 [0x41]) (one (ready .none .interrupt 0x68) []))
      = some [.fault .mode 0 0x08] := by decide

/-- WPOLL-2: an empty payload returns at once, without a bus access. -/
theorem test_write_poll_empty :
    after (fun t => (t.trace, (t.port 0).res, (t.port 0).tpc))
        (step (sched [.task 0] (one { ready .none .polled 0x68 with tpc := .inCmd (.writePoll 0 []) [.pollByte 0] } [])))
      = some ([.ret 0 0x08 (.int 0)], some (.int 0), .idle) := by decide

/-- S8-8: CTS without TBE does not let the byte go. -/
theorem test_write_polled_waits :
    after (fun t => (t.trace, (t.port 0).tpc))
        (step (sched [.task 0]
          (one { ready .none .polled 0x68 with
            lat := .byte 0x20, tpc := .inCmd (.writePolled 0 0x41) [.putTest 0x41, .ret (.int 0)] } [])))
      = some ([], .inCmd (.writePolled 0 0x41)
          [.op (.wait 0), .op (.getReg 0 .selStatus), .putTest 0x41, .ret (.int 0)]) := by decide

theorem test_read_polled_mode :
    after (fun t => t.trace) (exec (.readPolled 0) (one (ready .none .interrupt 0x68) []))
      = some [.fault .mode 0 0x0A] := by decide

/-- READ-3: 255 is not NONE. -/
theorem test_read_polled_byte :
    after (fun t => (t.port 0).res)
        (step (sched [.task 0]
          (one { ready .none .polled 0x68 with lat := .byte 0xFF, tpc := .inCmd (.readPolled 0) [.retByte] } [])))
      = some (some (.int 255)) := by decide

theorem test_set_attr :
    after (fun t => (t.trace, (t.port 0).tpc)) (exec (.setAttr 0) (one (ready .none .interrupt 0x68) []))
      = some ([], .inCmd (.setAttr 0) [.ret (.int 0)]) := by decide

theorem test_wait :
    after (fun t => t.trace) (exec (.wait 0) (one (fresh .interrupt) [])) = some [.spin 0]
    ∧ after (fun t => t.trace) (exec (.wait 0) { one (fresh .interrupt) [] with sysUp := true }) = some [.yield 0] := by
  decide

/-! ### Decode faults: DEC-1, DEC-5, DEC-8, DEC-9 -/

/-- Port 0 about to decode a word. -/
def issuing (w : Word) (q : Port) : State := sched [.task 0] (one { q with prog := [⟨w, []⟩] } [])

theorem test_decode_faults :
    after (fun t => t.trace) (step (issuing 0x00000000 (fresh .interrupt))) = some [.fault .illegalOp 0 0x00]
    ∧ after (fun t => t.trace) (step (issuing 0x01410009 (fresh .interrupt))) = some [.fault .reserved 0 0x09]
    ∧ after (fun t => t.trace) (step (issuing 0x0001050E (fresh .interrupt))) = some [.fault .illegalOp 0 0x0E]
    ∧ after (fun t => t.trace) (step (issuing 0x00010504 (fresh .interrupt))) = some [.fault .reserved 0 0x04] := by decide

/-- Program 4b: the decode step of `open p0` succeeds, at the start of the command and with `hpc` past it; the life check of the
next step then raises and leaves both. -/
theorem test_decode_then_life_check :
    after (fun t => (t.trace, (t.port 0).tpc, (t.port 0).hpc)) (step (issuing 0x00000004 (fresh .interrupt)))
      = some ([], .inCmd (.openPort 0) [.start], 1)
    ∧ after (fun t => (t.trace, (t.port 0).tpc, (t.port 0).hpc))
        (step (sched [.task 0] (one { fresh .interrupt with tpc := .inCmd (.openPort 0) [.start], hpc := 1 } [])))
      = some ([.fault .portUninit 0 0x04], .inCmd (.openPort 0) [.start], 1) := by decide

theorem test_decode_bad_port :
    after (fun t => (t.trace, (t.port 0).hpc)) (step (issuing 0x00000104 (fresh .interrupt)))
      = some ([.fault .badPort 0 0x04], 0) := by decide

/-! ### Witnesses: for each statement with hypotheses, states and operands that meet them, one for each clause -/

/-- The next state, where there is one. -/
def nextOf (r : Host.Outcome State Fault Refusal) : State :=
  match r with
  | .next t => t
  | .fault _ => .reset
  | .refused _ => .reset

/-- An interrupt-mode channel-A port 0 and its channel-B partner, port 1, both READY. -/
def pair (q : Port) : State := { State.reset with ports := [q, chanB], vreg := [⟨5⟩] }

/-- A full ring of four bytes. -/
def full (q : Port) : Port := withRing [some 0x41, some 0x42, some 0x43, some 0x44] 0 0 4 q

/-- A ring of three bytes about to wrap. -/
def nearlyFull (q : Port) : Port := withRing [some 0x42, some 0x43, none, some 0x41] 3 2 3 q

/-- Port 0 with the host command `i` next in its program, and its TASK chosen for n steps. -/
def running (i : Instr) (n : Nat) (q : Port) (bytes : List Byte) : State :=
  sched (List.replicate n (.task 0)) (one { q with prog := [Command.ofBytes (encode i)] } bytes)

theorem witness_ResetGivesSpecValues :
    State.reset = resetOf Launch.default
    ∧ ∃ u : State, u.launch = Launch.default ∧ u.sysUp = true ∧ State.blockReset u = resetOf Launch.default :=
  ⟨rfl, { State.reset with sysUp := true }, by decide, rfl, by decide⟩

theorem witness_LaunchBootsIffWellFormed :
    Launch.default.wf = true ∧ Launch.wf ⟨.default, []⟩ = false
    ∧ Launch.wf ⟨{ Params.default with rbCap := 0 }, [(.default, [])]⟩ = false
    ∧ Launch.wf ⟨.default, [(.default, []), ({ PortCfg.default with vector := ⟨6⟩ }, [])]⟩ = false
    ∧ Launch.wf ⟨.default, [(.default, []), (.default, [⟨0x00000004, []⟩])]⟩ = false := by decide

theorem witness_DecodeEncodeRoundTrip :
    (Instr.writeInt 255 [0x48, 0x49]).wf = true ∧ (Instr.ctl 3 0xFF (.act .brgHi)).wf = true
    ∧ (Instr.process 3 7).wf = true := by decide

theorem witness_DecodedBytesAreTheEncoding :
    decode [0x08, 0x00, 0x01, 0x00, 0x4F, 0x0A] = .ok (.writePoll 0 [0x4F], [0x0A]) := by decide

theorem witness_AssembledWords : (List.replicate 255 (0x41 : Byte)).length < 65536 := by
  simp only [List.length_replicate]; decide

theorem witness_StepRunsNextCommand :
    ∃ (s : State) (c : Command), s.fault = none ∧ s.cpu = .task ∧ nextChoice s = .task 0 ∧ 0 < s.nports
      ∧ (s.port 0).tpc = .idle ∧ (s.port 0).prog[(s.port 0).hpc]? = some c ∧ decode c.bytes = .ok (.writeInt 0 [0x41], [])
      ∧ 0x01 ≤ (Instr.writeInt 0 [0x41]).op.toNat ∧ (Instr.writeInt 0 [0x41]).op.toNat ≤ 0x0D :=
  ⟨running (.writeInt 0 [0x41]) 1 (ready .none .interrupt 0x68) [], ⟨0x00010007, [0x41]⟩, by decide⟩

/-- The command at its start: with a check that passes and with one that raises. -/
theorem witness_StepRunsNextCommand_start :
    ∀ q ∈ [ready .none .interrupt 0x68, fresh .interrupt],
      let s := sched [.task 0] (one { q with tpc := .inCmd (.openPort 0) [.start] } [])
      s.fault = none ∧ s.cpu = .task ∧ nextChoice s = .task 0 ∧ 0 < s.nports
        ∧ (s.port 0).tpc = .inCmd (.openPort 0) (.start :: [])
        ∧ after (fun t => t.fault.isNone) (exec (.openPort 0) s) = some (q.life == .ready) := by decide

theorem witness_StepRunsMicroOperation_task :
    let s := sched [.task 0] (one { ready .none .interrupt 0x68 with tpc := .inCmd (.openPort 0) [.op (.assertDtr 0), .ret (.int 0)] } [])
    s.fault = none ∧ s.cpu = .task ∧ nextChoice s = .task 0 ∧ 0 < s.nports
      ∧ (s.port 0).tpc = .inCmd (.openPort 0) [.op (.assertDtr 0), .ret (.int 0)]
      ∧ after (fun t => t.fault.isNone) (exec (.assertDtr 0) s) = some true := by decide

theorem witness_StepRunsMicroOperation_raise :
    let s := sched [.task 0] (one { fresh .interrupt with tpc := .inCmd (.rbDeq 0) [.op (.rbDeq 0)] } [])
    s.fault = none ∧ s.cpu = .task ∧ nextChoice s = .task 0 ∧ (s.port 0).tpc = .inCmd (.rbDeq 0) [.op (.rbDeq 0)]
      ∧ after (fun t => t.fault.isSome) (exec (.rbDeq 0) s) = some true
      ∧ refusal (exec (.getReg 0 .selMc) s) = some .notReadable := by decide

theorem witness_StepRunsMicroOperation_isr :
    let s := sched [.idle] (inIsr [.op (.eoi 0), .isrNext] (one (ready .none .interrupt 0x68) []))
    s.fault = none ∧ s.cpu = .isr ∧ nextChoice s ≠ .sysUp ∧ s.ipc = some ⟨⟨5⟩, [0], 0, .op (.eoi 0) :: [.isrNext]⟩
      ∧ after (fun t => t.fault.isNone) (exec (.eoi 0) s) = some true := by decide

theorem decodeFaults_hypotheses (w : Word) (hw : (Command.wf ⟨w, []⟩) = true) :
    let s := issuing w (fresh .interrupt)
    s.fault = none ∧ s.cpu = .task ∧ nextChoice s = .task 0 ∧ 0 < s.nports ∧ (s.port 0).tpc = .idle
      ∧ (s.port 0).prog[(s.port 0).hpc]? = some ⟨w, []⟩ ∧ (Command.wf ⟨w, []⟩) = true :=
  ⟨rfl, rfl, rfl, Nat.zero_lt_one, rfl, rfl, hw⟩

/-- Illegal, reserved and bad-port words at the ends of their ranges; `decodeFaults_hypotheses` gives the rest. -/
theorem witness_DecodeFaults :
    ([(0x00000000 : Word), 0x0000000E].all (fun w => Command.wf ⟨w, []⟩)) = true
    ∧ ([(0x00010001 : Word), 0x0100000D, 0x01410009].all (fun w => Command.wf ⟨w, []⟩)) = true
    ∧ ([(0x00000104 : Word), 0x0000FF0D].all (fun w => Command.wf ⟨w, []⟩)) = true := by decide

theorem witness_HaltedMachineStops :
    (nextOf (step (issuing 0x0000000E (fresh .interrupt)))).fault = some ⟨.illegalOp, 0, 0x0E⟩ := by decide

theorem witness_RingInitAndTests :
    let s := one (full (ready .none .interrupt 0x68)) []
    (0 : Byte).toNat < s.nports ∧ (s.port 0).rb = some ⟨[some 0x41, some 0x42, some 0x43, some 0x44], 0, 0, 4⟩
      ∧ 1 ≤ s.par.rbCap := by decide

theorem witness_RingEnqueueDequeue :
    let r : Ring := ⟨[some 0x42, some 0x43, none, some 0x41], 3, 2, 3⟩
    let s := one (nearlyFull (ready .none .interrupt 0x68)) []
    ((s.port 0).rb = some r ∧ r.count ≠ s.par.rbCap ∧ r.count ≠ 0 ∧ r.buf.getD r.head none = some 0x41)
      ∧ (((one (full (ready .none .interrupt 0x68)) []).port 0).rb.map Ring.count = some s.par.rbCap)
      ∧ (((one (ready .none .interrupt 0x68) []).port 0).rb.map Ring.count = some 0) := by decide

/-- The bytes come back in order, over a wrap and past a refused enqueue, on a ring of one slot. -/
theorem witness_RingFifoLaw :
    1 ≤ 1 ∧ (ringUses 1 [.enq 0x10, .enq 0x11, .deq, .deq, .enq 0x12]).accepted = [0x10, 0x12]
    ∧ (ringUses 1 [.enq 0x10, .enq 0x11, .deq, .deq, .enq 0x12]).returned = [0x10] := by decide

/-- The ⊥ clauses of RingInitAndTests, RingEnqueueDequeue, LineOperations and KickStart. -/
theorem witness_undefined_fields :
    let s := one (fresh .interrupt) []
    (0 : Byte).toNat < s.nports ∧ (s.port 0).rb = none ∧ (s.port 0).mc = none ∧ (s.port 0).txActive = none := by decide

/-- A configured port, the hypothesis of BusReads, BusWrites, ControlActions, ModemControlWrite, AllocationDraw,
WaitOnlyTraces and ProbeAndSetAttr; the last port of two. -/
theorem witness_configured_port : (1 : Byte).toNat < (pair (ready .none .interrupt 0x68)).nports := by decide

/-- A launch whose low divisor half, divisor function and channel sets differ from the defaults at one argument each. -/
def diffs : Params :=
  { Params.default with
    chip := Params.default.chip.set 6 ⟨⟨3⟩, 0, [(0x0A, 0xF5)]⟩
    baudOver := [((3686400, 9600), none)], chanAOver := [(0x10, 7)], chanBOver := [(0x02, 0)] }

theorem witness_ControlActions :
    (Action.fmt ≠ .brgLo ∧ Action.fmt ≠ .brgHi)
    ∧ (diffs.chip.get Action.brgLo.idx).diff.lookup 0x0B = none
    ∧ (diffs.chip.get Action.brgLo.idx).diff.lookup 0x0A = some 0xF5 := by decide

theorem witness_FormsThatStop :
    RegTag.act .mie ≠ .selStatus ∧ RegTag.act .mie ≠ .selPending ∧ (∀ k, RegTag.selMc ≠ .act k)
    ∧ (Instr.kick 1).wf = true ∧ 0x80 ≤ (Instr.kick 1).op.toNat ∧ (∀ p, Instr.kick 1 ≠ .isrEntry p)
    ∧ State.reset.nports ≤ (Instr.kick 1).port.toNat :=
  ⟨by decide, by decide, by simp, by decide, by decide, by simp, by decide⟩

theorem witness_InitializersEnter :
    let s := one { fresh .interrupt with tpc := .inCmd (.initInt 0) [.initReady] } []
    (0 : Byte).toNat < s.nports ∧ s.cpu = .task ∧ (s.port 0).tpc = .inCmd (.initInt 0) [.initReady] := by decide

theorem witness_PortInitializerRuns :
    let q : Port := { fresh .interrupt with life := .initializing, tpc := .inCmd (.initInt 0) [.op (.portInitializer 0), .initReady] }
    let s := sched (List.replicate 19 (.task 0)) (one q [])
    (0 : Byte).toNat < s.nports ∧ s.fault = none ∧ s.cpu = .task ∧ s.env.sched = List.replicate 19 (.task 0) ++ []
      ∧ (s.port 0).tpc = .inCmd (.initInt 0) (.op (.portInitializer 0) :: [.initReady])
      ∧ s.par.baudDiv (s.port 0).cfg.clockHz (s.port 0).cfg.baud = some 10 := by decide

theorem witness_UndefinedBaudFaults :
    let q : Port := { Port.reset ({ PortCfg.default with baud := 0 }, []) with life := .initializing, tpc := .inCmd (.initInt 0) [.baud] }
    let s := sched [.task 0] (one q [])
    0 < s.nports ∧ s.fault = none ∧ s.cpu = .task ∧ nextChoice s = .task 0 ∧ (s.port 0).tpc = .inCmd (.initInt 0) (.baud :: [])
      ∧ s.par.baudDiv (s.port 0).cfg.clockHz (s.port 0).cfg.baud = none
      ∧ diffs.baudOver.lookup (3686400, 38400) = none ∧ diffs.baudOver.lookup (3686400, 9600) = some none := by decide

theorem witness_VectorRegistration :
    (⟨5⟩ : Vec) ∈ (pair (fresh .interrupt)).vreg ∧ ((one (fresh .interrupt) []).port 0).cfg.vector ∉ (one (fresh .interrupt) []).vreg := by
  decide

theorem witness_InitCommandsBegin :
    (fresh .interrupt).life = .uninit ∧ (fresh .interrupt).cfg.mode = .interrupt ∧ (fresh .polled).cfg.mode ≠ .interrupt
    ∧ (ready .none .interrupt 0x68).life = .ready
    ∧ ((nextOf (exec (.alloc 0) { one (fresh .interrupt) [] with env := { Env.reset with allocs := [false] } })).port 0).life
        = .failed := by decide

/-- AboutToRun of one port's command. -/
theorem aboutToRun_running {i : Instr} {n : Nat} {q : Port} {bytes : List Byte} (hi : i.port = 0) (hq : q.tpc = .idle)
    (hh : q.hpc = 0) : AboutToRun i (running i n q bytes) := by
  constructor <;> simp [running, sched, one, State.reset, resetOf, State.nports, State.port, hi, hq, hh]

/-- With both optional statements: NONE on channel A, 29 steps. -/
theorem witness_InitIntRuns_longest :
    let s := { running (.initInt 0) 29 (fresh .interrupt) [0x00] with
      env := { Env.reset with bytes := [0x00], allocs := [true], sched := List.replicate 29 (.task 0) } }
    AboutToRun (.initInt 0) s ∧ chosen 0 29 [] s ∧ (s.port 0).life = .uninit ∧ (s.port 0).cfg.mode = .interrupt
      ∧ nextAlloc s = true ∧ s.par.baudDiv (s.port 0).cfg.clockHz (s.port 0).cfg.baud = some 10
      ∧ (s.port 0).cfg.strategy ≠ .rtscts ∧ (s.port 0).cfg.ctrlPrimary = (s.port 0).cfg.ctrlOwn :=
  ⟨⟨by decide, by decide, by decide, by decide, by decide⟩, rfl, by decide⟩

/-- With neither: RTSCTS on channel B, 27 steps. -/
theorem witness_InitIntRuns_shortest :
    let q : Port := { fresh .interrupt with cfg := { PortCfg.default with strategy := .rtscts, ctrlOwn := ⟨10⟩ } }
    let s := { running (.initInt 0) 27 q [0x00] with
      env := { Env.reset with bytes := [0x00], allocs := [true], sched := List.replicate 27 (.task 0) } }
    AboutToRun (.initInt 0) s ∧ chosen 0 27 [] s ∧ (s.port 0).life = .uninit ∧ (s.port 0).cfg.mode = .interrupt
      ∧ nextAlloc s = true ∧ s.par.baudDiv (s.port 0).cfg.clockHz (s.port 0).cfg.baud = some 10
      ∧ ¬(s.port 0).cfg.strategy ≠ .rtscts ∧ (s.port 0).cfg.ctrlPrimary ≠ (s.port 0).cfg.ctrlOwn :=
  ⟨⟨by decide, by decide, by decide, by decide, by decide⟩, rfl, by decide⟩

theorem witness_InitPollRuns :
    let s := { running (.initPoll 0) 25 (fresh .polled) [] with
      env := { Env.reset with bytes := [0x00], allocs := [true], sched := List.replicate 25 (.task 0) } }
    AboutToRun (.initPoll 0) s ∧ chosen 0 25 [] s ∧ (s.port 0).life = .uninit ∧ (s.port 0).cfg.mode = .polled
      ∧ nextAlloc s = true ∧ s.par.baudDiv (s.port 0).cfg.clockHz (s.port 0).cfg.baud = some 10 :=
  ⟨⟨by decide, by decide, by decide, by decide, by decide⟩, rfl, by decide⟩

theorem witness_FailedAllocationReturnsErrNomem :
    let e : Env := { Env.reset with allocs := [false], sched := List.replicate 4 (.task 0) }
    let s := { running (.initInt 0) 4 (fresh .interrupt) [] with env := e }
    let s' := { running (.initPoll 0) 4 (fresh .polled) [] with env := e }
    (AboutToRun (.initInt 0) s ∧ chosen 0 4 [] s ∧ (s.port 0).life = .uninit ∧ nextAlloc s = false)
      ∧ (AboutToRun (.initPoll 0) s' ∧ chosen 0 4 [] s' ∧ (s'.port 0).life = .uninit ∧ nextAlloc s' = false) :=
  ⟨⟨⟨by decide, by decide, by decide, by decide, by decide⟩, rfl, by decide⟩,
    ⟨by decide, by decide, by decide, by decide, by decide⟩, rfl, by decide⟩

theorem witness_LineOperations :
    (0 : Byte).toNat < (one (ready .none .interrupt 0xE8) []).nports
    ∧ ((one (ready .none .interrupt 0xE8) []).port 0).mc = some 0xE8 := by decide

theorem witness_OneBitLaw :
    let s := one (ready .none .interrupt 0xE8) []
    ∀ i ∈ [Instr.assertRts 0, .negateRts 0, .assertDtr 0, .negateDtr 0],
      let t := nextOf (exec i s)
      let u := nextOf (exec i t)
      s.par.wf = true ∧ after id (exec i s) = some t ∧ after id (exec i t) = some u
        ∧ (s.port 0).mc.isSome = true ∧ (t.port 0).mc.isSome = true ∧ (u.port 0).mc.isSome = true := by decide

theorem witness_StrategyCommandsBegin :
    ∀ st ∈ [Strategy.rtscts, .dtrcts, .none],
      ((one (ready st .interrupt 0x68) []).port 0).life = .ready
        ∧ ((one (ready st .interrupt 0x68) []).port 0).cfg.strategy = st := by decide

theorem witness_StrategyCommandsBegin_runs :
    ∀ x ∈ [(Strategy.rtscts, Instr.fcAssert 0), (.dtrcts, .fcNegate 0)],
      let s := running x.2 4 (ready x.1 .interrupt 0xE8) []
      AboutToRun x.2 s ∧ chosen 0 4 [] s ∧ (s.port 0).life = .ready ∧ (s.port 0).mc = some 0xE8
        ∧ (s.port 0).cfg.strategy = x.1 := by
  intro x hx
  simp only [List.mem_cons, List.not_mem_nil, or_false] at hx
  rcases hx with rfl | rfl
  all_goals exact ⟨aboutToRun_running rfl rfl rfl, rfl, by decide⟩

theorem witness_ReceivePhase :
    let s (b : BitVec 3) (v : Byte) : State := inIsr [.isrNext] { one (ready .none .interrupt 0x68) [v, 0xFF] with pbits := b }
    (s 3 0x01).pbits.getLsbD 2 = false
    ∧ ((s 4 0xFE).pbits.getLsbD 2 = true ∧ nextByte (s 4 0xFE) &&& (s 4 0xFE).par.pRca = 0)
    ∧ ((s 7 0x01).pbits.getLsbD 2 = true ∧ nextByte (s 7 0x01) &&& (s 7 0x01).par.pRca ≠ 0 ∧ (s 7 0x01).cpu = .isr
      ∧ (s 7 0x01).ipc = some ⟨⟨5⟩, [0], 0, [.isrNext]⟩) := by decide

theorem witness_TransmitPhase :
    let s (st : Strategy) (v : Byte) : State := one (ready st .interrupt 0xEA) [v]
    let f (v : Byte) : State := one (nearlyFull (ready .none .interrupt 0xEA)) [v]
    ((f 0x20).par.tbe (nextByte (f 0x20)) = false)
    ∧ ((f 0x04).par.tbe (nextByte (f 0x04)) = true ∧ (f 0x04).par.cts (nextByte (f 0x04)) = false)
    ∧ ((s .rtscts 0x24).par.cts (nextByte (s .rtscts 0x24)) = true ∧ ((s .rtscts 0x24).port 0).rb.map Ring.count = some 0)
    ∧ (((s .dtrcts 0x24).port 0).mc = some 0xEA ∧ ((s .dtrcts 0x24).port 0).cfg.strategy ≠ .rtscts)
    ∧ (((f 0x24).port 0).rb = some ⟨[some 0x42, some 0x43, none, some 0x41], 3, 2, 3⟩
      ∧ [some 0x42, some 0x43, none, some (0x41 : Byte)].getD 3 none = some 0x41) := by decide

theorem witness_AtMostOneByte :
    let r : Ring := ⟨[some 0x42, some 0x43, none, some 0x41], 3, 2, 3⟩
    ∀ v ∈ [(0x24 : Byte), 0x04, 0x20, 0x00],
      let s := one (nearlyFull (ready .none .interrupt 0xEA)) [v]
      (s.port 0).rb = some r ∧ r.wf s.par.rbCap = true
        ∧ after id (exec (.txPhase 0) s) = some (nextOf (exec (.txPhase 0) s)) := by decide

/-- The hypotheses of ExternalPhaseEoiAndUp and ProcessEntersItsPhases. -/
theorem witness_ExternalPhaseEoiAndUp :
    let s (b : BitVec 3) : State := inIsr [.isrNext] { one (ready .none .interrupt 0x68) [0x00] with pbits := b }
    (s 6).pbits.getLsbD 0 = false ∧ (s 1).pbits.getLsbD 0 = true ∧ (s 1).cpu = .isr
      ∧ (s 1).ipc = some ⟨⟨5⟩, [0], 0, [.isrNext]⟩ := by decide

theorem witness_InterruptEntry :
    let s := { pair (ready .none .interrupt 0x68) with offer := some ⟨5⟩ }
    (s.offer = some ⟨5⟩ ∧ s.fault = none ∧ s.cpu = .task ∧ (⟨5⟩ : Vec) ∈ s.vreg)
    ∧ ((one (fresh .interrupt) []).vreg = [] ∧ nextChoice (sched [.irq ⟨5⟩] s) = .irq ⟨5⟩)
    ∧ ((sched [.sysUp] (inIsr [.isrNext] s)).fault = none ∧ nextChoice (sched [.sysUp] (inIsr [.isrNext] s)) = .sysUp) := by decide

theorem witness_ServiceLoopAndReturn :
    let s (q : Port) (v : Byte) (l : List Stmt) : State := { sched [.idle] (inIsr l (pair q)) with isrLat := .byte v }
    let q := ready .none .interrupt 0x68
    let alone : State := { sched [.idle] (inIsr [.serviceTest 0, .isrNext] (one q [])) with isrLat := .byte 0x02 }
    ((s q 0 [.isrNext]).ipc = some ⟨⟨5⟩, [0], 0, [.isrNext]⟩ ∧ nextChoice (s q 0 [.isrNext]) ≠ .sysUp)
    ∧ (partnerB 0 alone = none ∧ alone.par.chanA 0x02 = 0 ∧ alone.par.chanA 0x08 ≠ 0)
    ∧ (partnerB 0 (s q 0x3F [.serviceTest 0, .isrNext]) = some 1
      ∧ alone.par.chanA 0xC0 = 0 ∧ alone.par.chanB 0xC0 = 0
      ∧ alone.par.chanA 0x08 ≠ 0 ∧ alone.par.chanB 0x08 = 0
      ∧ alone.par.chanA 0x04 = 0 ∧ alone.par.chanB 0x04 ≠ 0
      ∧ alone.par.chanA 0x3F ≠ 0 ∧ alone.par.chanB 0x3F ≠ 0)
    ∧ (diffs.chanAOver.lookup 0x3F = none ∧ diffs.chanAOver.lookup 0x10 = some 7 ∧ diffs.chanBOver.lookup 0x3F = none
      ∧ diffs.chanBOver.lookup 0x02 = some 0) := by decide

/-- The end of the list, the clause of the return. -/
theorem witness_ServiceLoopAndReturn_end :
    let s := sched [.idle] { one (ready .none .interrupt 0x68) [] with cpu := .isr, ipc := some ⟨⟨5⟩, [0], 1, [.isrNext]⟩ }
    s.fault = none ∧ s.cpu = .isr ∧ nextChoice s ≠ .sysUp ∧ [0].length ≤ 1 := by decide

theorem witness_KickStart :
    ((one { ready .none .interrupt 0xE8 with txActive := some true } []).port 0).txActive = some true
    ∧ (let s := one (nearlyFull (ready .none .interrupt 0xE8)) [0x24]
      (s.port 0).txActive = some false ∧ (s.port 0).mc = some 0xE8
        ∧ (s.port 0).rb = some ⟨[some 0x42, some 0x43, none, some 0x41], 3, 2, 3⟩
        ∧ Ring.wf s.par.rbCap ⟨[some 0x42, some 0x43, none, some 0x41], 3, 2, 3⟩ = true ∧ s.fault = none) := by decide

theorem witness_ProbeAndSetAttr :
    let s := running (.probe 0) 2 (fresh .polled) []
    let s' := running (.setAttr 0) 3 (ready .none .polled 0x68) []
    (AboutToRun (.probe 0) s ∧ chosen 0 2 [] s)
    ∧ (AboutToRun (.setAttr 0) s' ∧ chosen 0 3 [] s' ∧ (s'.port 0).life = .ready) :=
  ⟨⟨aboutToRun_running rfl rfl rfl, rfl⟩, aboutToRun_running rfl rfl rfl, rfl, rfl⟩

theorem witness_CommandsEnterTheirPseudocode :
    ((one (ready .none .interrupt 0x68) []).port 0).life = .ready
    ∧ ((one (ready .none .interrupt 0x68) []).port 0).cfg.mode = .interrupt
    ∧ ((one (ready .dtrcts .polled 0x68) []).port 0).cfg.mode = .polled := by decide

theorem witness_HostChecksInOrder :
    (∀ i ∈ [Instr.openPort 1, .fcNegate 1], 0x04 ≤ i.op.toNat ∧ i.op.toNat ≤ 0x0D ∧ State.reset.nports ≤ i.port.toNat)
    ∧ (fresh .polled).life = .uninit ∧ (ready .none .polled 0x68).cfg.mode = .polled ∧ (Instr.writeInt 0 []).op = 0x07
    ∧ (ready .none .interrupt 0x68).cfg.mode = .interrupt ∧ (Instr.readPolled 0).op = 0x0A
    ∧ ({ fresh .interrupt with life := .failed } : Port).life = .failed := by decide

theorem witness_OpenAndCloseRun :
    let s := running (.openPort 0) 4 (ready .none .interrupt 0x68) []
    let s' := running (.closePort 0) 3 (ready .dtrcts .interrupt 0x68) []
    (AboutToRun (.openPort 0) s ∧ chosen 0 4 [] s ∧ (s.port 0).mc = some 0x68 ∧ (s.port 0).cfg.strategy ≠ .dtrcts
      ∧ (s.port 0).life = .ready)
    ∧ (AboutToRun (.closePort 0) s' ∧ chosen 0 3 [] s' ∧ (s'.port 0).cfg.strategy = .dtrcts ∧ (s'.port 0).life = .ready) :=
  ⟨⟨aboutToRun_running rfl rfl rfl, rfl, by decide⟩, aboutToRun_running rfl rfl rfl, rfl, by decide⟩

theorem witness_FlushLoop :
    ∀ b ∈ [true, false],
      let s := sched [.task 0]
        (one { ready .none .interrupt 0xE8 with lat := .bool b, tpc := .inCmd (.flush 0) [.flushTest, .ret (.int 0)] } [])
      (0 : Byte).toNat < s.nports ∧ s.fault = none ∧ s.cpu = .task ∧ nextChoice s = .task 0
        ∧ (s.port 0).tpc = .inCmd (.flush 0) (.flushTest :: [.ret (.int 0)]) ∧ (s.port 0).lat = .bool b := by decide

theorem witness_FlushLoop_runs :
    let s := running (.flush 0) 6 (ready .none .interrupt 0xE8) []
    let s' := running (.flush 0) 5 (ready .dtrcts .polled 0x68) []
    (AboutToRun (.flush 0) s ∧ chosen 0 6 [] s ∧ (s.port 0).life = .ready ∧ (s.port 0).mc = some 0xE8
      ∧ (s.port 0).rb = some ⟨[none, none, none, none], 0, 0, 0⟩ ∧ (s.port 0).cfg.strategy ≠ .dtrcts)
    ∧ (AboutToRun (.flush 0) s' ∧ chosen 0 5 [] s' ∧ (s'.port 0).life = .ready ∧ (s'.port 0).cfg.strategy = .dtrcts
      ∧ (s'.port 0).rb = some ⟨[none, none, none, none], 0, 0, 0⟩) :=
  ⟨⟨aboutToRun_running rfl rfl rfl, rfl, by decide⟩, aboutToRun_running rfl rfl rfl, rfl, by decide⟩

theorem witness_WriteIntLoop :
    let s (l : List Stmt) (r : MicroResult) : State :=
      sched [.task 0] (one { nearlyFull (ready .none .interrupt 0xE8) with lat := r, tpc := .inCmd (.writeInt 0 [0x41]) l } [])
    (∀ k ∈ [0, 1], ((s [.writeByte k] .ok).port 0).tpc = .inCmd (.writeInt 0 [0x41]) [.writeByte k])
    ∧ (0 < (Instr.writeInt 0 [0x41]).payload.length ∧ (Instr.writeInt 0 [0x41]).payload.length ≤ 1)
    ∧ ((s [.fullTest 0] (.bool false)).port 0).lat = .bool false ∧ ((s [.fullTest 0] (.bool true)).port 0).lat = .bool true
    ∧ ((s [.kickTest 0] .busy).port 0).lat = .busy ∧ ((s [.kickTest 0] .kicked).port 0).lat ≠ .busy
    ∧ (((s [.enqueue 0] .ok).port 0).rb = some ⟨[some 0x42, some 0x43, none, some 0x41], 3, 2, 3⟩
      ∧ (3 : Nat) ≠ (s [.enqueue 0] .ok).par.rbCap ∧ nextChoice (s [.enqueue 0] .ok) = .task 0)
    ∧ ((s [.ret (.int 1)] .kicked).port 0).tpc = .inCmd (.writeInt 0 [0x41]) (.ret (.int 1) :: []) := by decide

theorem witness_WriteIntSendsOneByte :
    let s := running (.writeInt 0 [0x31]) 9 (withRing [none, none, none, none] 3 3 0 (ready .rtscts .interrupt 0xE8)) [0x24]
    AboutToRun (.writeInt 0 [0x31]) s ∧ chosen 0 9 [] s ∧ (s.port 0).life = .ready ∧ (s.port 0).cfg.mode = .interrupt
      ∧ (s.port 0).txActive = some false ∧ (s.port 0).mc = some 0xE8
      ∧ (s.port 0).rb = some ⟨[none, none, none, none], 3, 3, 0⟩ ∧ Ring.wf s.par.rbCap ⟨[none, none, none, none], 3, 3, 0⟩ = true
      ∧ s.par.tbe (nextByte s) = true ∧ s.par.cts (nextByte s) = true :=
  ⟨aboutToRun_running rfl rfl rfl, rfl, by decide⟩

theorem witness_PolledPut :
    let s (l : List Stmt) (v : Byte) : State :=
      sched [.task 0] (one { ready .none .polled 0x68 with lat := .byte v, tpc := .inCmd (.writePoll 0 [0x4F]) l } [])
    (((s [.putTest 0x4F] 0x04).port 0).lat = .byte 0x04 ∧ (0x04 : Byte) &&& (s [] 0).par.pTbe ≠ 0)
    ∧ (((s [.putTest 0x4F] 0x20).port 0).lat = .byte 0x20 ∧ (0x20 : Byte) &&& (s [] 0).par.pTbe = 0)
    ∧ (((s [.pollByte 0] 0).port 0).tpc = .inCmd (.writePoll 0 [0x4F]) (.pollByte 0 :: [])
      ∧ 0 < (Instr.writePoll 0 [0x4F]).payload.length ∧ nextChoice (s [.pollByte 0] 0) = .task 0)
    ∧ (((s [.pollByte 1] 0).port 0).tpc = .inCmd (.writePoll 0 [0x4F]) (.pollByte 1 :: [])
      ∧ (Instr.writePoll 0 [0x4F]).payload.length ≤ 1) := by decide

theorem witness_WritePolledRuns :
    let s := running (.writePolled 0 0x7E) 6 (full (ready .none .interrupt 0x68)) [0x04]
    AboutToRun (.writePolled 0 0x7E) s ∧ chosen 0 6 [] s ∧ (s.port 0).life = .ready ∧ s.par.tbe (nextByte s) = true :=
  ⟨aboutToRun_running rfl rfl rfl, rfl, by decide⟩

theorem witness_ReadPolledRuns :
    let s := running (.readPolled 0) 6 (ready .none .polled 0x68) [0x01, 0xFF]
    let s' := running (.readPolled 0) 4 (ready .none .polled 0x68) [0x24]
    (AboutToRun (.readPolled 0) s ∧ chosen 0 6 [] s ∧ (s.port 0).life = .ready ∧ (s.port 0).cfg.mode = .polled
      ∧ s.par.rca (nextByte s) = true)
    ∧ (AboutToRun (.readPolled 0) s' ∧ chosen 0 4 [] s' ∧ (s'.port 0).life = .ready ∧ s'.par.rca (nextByte s') = false) :=
  ⟨⟨aboutToRun_running rfl rfl rfl, rfl, by decide⟩, aboutToRun_running rfl rfl rfl, rfl, by decide⟩

theorem witness_InvariantAtBoot : Launch.default.boot = some State.reset := rfl

/-- The default launch meets the invariant at reset. -/
theorem test_reset_inv : Inv State.reset :=
  ⟨by decide, by decide, by decide, by decide, by decide⟩

/-- READY and in the full loop of WRITE_INT, about to enqueue: the hypotheses of InvariantKept, NothingIsRefused,
LaunchKeptHistoriesGrow and TaskTouchesOnlyItsPort. -/
def enqueuing : State :=
  sched [.task 0] (one { nearlyFull (ready .none .interrupt 0xE8) with tpc := .inCmd (.writeInt 0 [0x45]) [.enqueue 0] } [])

theorem witness_InvariantKept :
    Inv enqueuing ∧ enqueuing.fault = none ∧ enqueuing.cpu = .task ∧ nextChoice enqueuing = .task 0
      ∧ step enqueuing = .next (nextOf (step enqueuing))
      ∧ ((nextOf (step enqueuing)).port 0).rb.map Ring.count = some 4 :=
  ⟨⟨by decide, by decide, by decide, by decide, by decide⟩, by decide, by decide, by decide, rfl, by decide⟩

/-- A command that raises from a state with the invariant: the hypotheses of NoInternalFault and FaultingStep. -/
theorem witness_NoInternalFault :
    let s := sched [.task 0] (one { ready .none .interrupt 0x68 with tpc := .inCmd (.fcAssert 0) [.start] } [])
    Inv s ∧ s.fault = none ∧ step s = .next (nextOf (step s))
      ∧ (nextOf (step s)).fault = some ⟨.noStrategy, 0, 0x0C⟩
      ∧ ((nextOf (step s)).port 0).tpc = .inCmd (.fcAssert 0) [.start] :=
  ⟨⟨by decide, by decide, by decide, by decide, by decide⟩, by decide, rfl, by decide⟩

/-- A decode fault, for FaultingStep: it moves no micro-PC either. -/
theorem witness_FaultingStep :
    let s := issuing 0x0000000E (fresh .interrupt)
    s.fault = none ∧ step s = .next (nextOf (step s)) ∧ (nextOf (step s)).fault = some ⟨.illegalOp, 0, 0x0E⟩
      ∧ ((nextOf (step s)).port 0).tpc = .idle := ⟨by decide, rfl, by decide⟩

/-- The three moves of `life` and the one case without a move. -/
theorem witness_LifeNeverMovesBack :
    (∀ b ∈ [true, false],
      let q : Port := { fresh .polled with tpc := .inCmd (.initPoll 0) [.op (.alloc 0), .allocTest, .op (.portInitializer 0), .initReady, .ret (.int 0)] }
      let s : State := { one q [] with env := { Env.reset with allocs := [b], sched := [.task 0] } }
      taskOk 4 0 q = true ∧ after (fun t => (t.port 0).life) (step s) = some (if b then .initializing else .failed))
    ∧ (let q : Port := { fresh .polled with life := .initializing, mc := some 0x68, tpc := .inCmd (.initPoll 0) [.initReady, .ret (.int 0)] }
      taskOk 4 0 q = true ∧ after (fun t => (t.port 0).life) (step (sched [.task 0] (one q []))) = some .ready) := by decide

theorem witness_ShadowFollowsTheRegister :
    let s := sched [.task 0] (one { ready .none .interrupt 0x68 with tpc := .inCmd (.openPort 0) [.op (.assertDtr 0), .ret (.int 0)] } [])
    step s = .next (nextOf (step s)) ∧ ((nextOf (step s)).port 0).mc = some 0xE8
      ∧ newEvents s (nextOf (step s)) = [.wrReg ⟨0⟩ ⟨2⟩ 0xE8 .selMc] := ⟨rfl, by decide⟩

/-- An activation's transmit phase, on a ring with bytes and on an empty one. -/
theorem witness_ActivationFrame :
    ∀ q ∈ [nearlyFull (ready .none .interrupt 0xEA), ready .none .interrupt 0xEA],
      let s := sched [.idle] (inIsr [.op (.txPhase 0), .isrNext] (one { q with txActive := some true } [0x24]))
      (s.launch.wf = true ∧ ringsOk s = true ∧ s.ports.all readyDefined = true ∧ taskOk s.par.rbCap 0 (s.port 0) = true
        ∧ isrOk s = true) ∧ s.cpu = .isr
        ∧ after (fun t => ((t.port 0).txActive, (t.port 0).mc)) (step s)
          = some (if q.rb.map Ring.count = some 0 then (some false, some 0xE8) else (some true, some 0xEA)) := by decide

/-- A polled port is not serviced: the first clause of ActivationFrame. -/
theorem witness_ActivationFrame_not_serviced :
    let s := sched [.idle] (inIsr [.op (.txPhase 0), .isrNext]
      { State.reset with ports := [ready .none .interrupt 0x68, ready .none .polled 0x68], env := { Env.reset with bytes := [0x24] } })
    serviced s 0 = true ∧ serviced s 1 = false ∧ isrOk s = true := by decide

theorem witness_TaskTouchesOnlyItsPort :
    let s := { pair (ready .none .interrupt 0x68) with env := { Env.reset with sched := [.task 1] } }
    Inv s ∧ s.cpu = .task ∧ nextChoice s = .task 1 ∧ step s = .next (nextOf (step s)) :=
  ⟨⟨by decide, by decide, by decide, by decide, by decide⟩, rfl, rfl, rfl⟩

/-! ### Placing a word for the next step -/

/-- A host command, a micro-operation and ISR_ENTRY, each run as the first instruction after reset. -/
theorem test_with_fetch_word :
    after (fun t => t.trace) (step (State.reset.withFetchWord 32 0x00000001)) = some [.ret 0 0x01 (.int 1)]
    ∧ after (fun t => t.trace) (step (State.reset.withFetchWord 32 0x00000104)) = some [.fault .badPort 0 0x04]
    ∧ after (fun t => (t.port 0).rb) (step (State.reset.withFetchWord 32 0x00000080))
      = some (some ⟨[none, none, none, none], 0, 0, 0⟩)
    ∧ after (fun t => (t.cpu, t.offer)) (step (State.reset.withFetchWord 32 0x0000009D)) = some (.task, none) := by decide

end Sys2Proof.Tests
end

section
/-! PROOFS. Which launches have an initial state (R11, R12): each check of `Launch.wf` as the proposition it decides. -/

namespace Sys2Proof

/-! ### Well-formed launches (R12) -/

theorem singleBit_iff (m : Byte) : singleBit m = true ↔ ∃ i < 8, m = 1#8 <<< i := by
  revert m
  decide

/-- WF1 to WF3 (R12). -/
theorem Params.wf_iff (par : Params) :
    par.wf = true ↔
      1 ≤ par.rbCap
      ∧ ((∃ i < 8, par.mcRts = 1#8 <<< i) ∧ (∃ i < 8, par.mcDtr = 1#8 <<< i) ∧ (∃ i < 8, par.mcTxen = 1#8 <<< i)
        ∧ par.mcRts ≠ par.mcDtr ∧ par.mcRts ≠ par.mcTxen ∧ par.mcDtr ≠ par.mcTxen
        ∧ par.mcRts &&& par.mcTx8 = 0 ∧ par.mcDtr &&& par.mcTx8 = 0 ∧ par.mcTxen &&& par.mcTx8 = 0)
      ∧ (par.pTbe ≠ 0 ∧ par.pRca ≠ 0 ∧ par.pCts ≠ 0) := by
  simp only [Params.wf, Bool.and_eq_true, bne_iff_ne, beq_iff_eq, decide_eq_true_eq, singleBit_iff, and_assoc]

@[simp] theorem PortCfg.isChannelA_iff (c : PortCfg) : c.isChannelA = true ↔ c.ctrlPrimary = c.ctrlOwn := by
  simp [PortCfg.isChannelA]

/-- WF5 and WF6 of two ports. -/
theorem PortCfg.compatible_iff (a b : PortCfg) :
    a.compatible b = true ↔
      (a.ctrlPrimary ≠ a.ctrlOwn → b.ctrlPrimary ≠ b.ctrlOwn → a.ctrlPrimary ≠ b.ctrlPrimary)
      ∧ (a.mode = .interrupt → b.mode = .interrupt → a.ctrlPrimary = b.ctrlPrimary → a.vector = b.vector) := by
  simp only [PortCfg.compatible, Bool.or_eq_true, Bool.and_eq_true, bne_iff_ne, beq_iff_eq, PortCfg.isChannelA_iff]
  tauto

theorem PortCfg.compatible_symm {a b : PortCfg} (h : a.compatible b = true) : b.compatible a = true := by
  rw [compatible_iff] at h ⊢
  obtain ⟨h5, h6⟩ := h
  exact ⟨fun hb ha e => h5 ha hb e.symm, fun hb ha e => (h6 ha hb e.symm).symm⟩

theorem cfgsWf_iff_pairwise (l : List (PortCfg × List Command)) :
    cfgsWf l = true ↔ l.Pairwise fun c d => c.1.compatible d.1 = true := by
  induction l with
  | nil => simp [cfgsWf]
  | cons c cs ih => simp only [cfgsWf, Bool.and_eq_true, List.all_eq_true, List.pairwise_cons, ih]

/-- WF5 and WF6 hold of every two different ports. -/
theorem cfgsWf_iff (l : List (PortCfg × List Command)) :
    cfgsWf l = true ↔
      ∀ (p q : Nat) (c d : PortCfg × List Command), p ≠ q → l[p]? = some c → l[q]? = some d →
        c.1.compatible d.1 = true := by
  rw [cfgsWf_iff_pairwise, List.pairwise_iff_getElem]
  constructor
  · intro h p q c d hpq hc hd
    obtain ⟨hp, rfl⟩ := List.getElem?_eq_some_iff.mp hc
    obtain ⟨hq, rfl⟩ := List.getElem?_eq_some_iff.mp hd
    obtain hlt | hgt := Nat.lt_or_gt_of_ne hpq
    · exact h p q hp hq hlt
    · exact PortCfg.compatible_symm (h q p hq hp hgt)
  · intro h p q hp hq hlt
    exact h p q _ _ (Nat.ne_of_lt hlt) (List.getElem?_eq_getElem hp) (List.getElem?_eq_getElem hq)

theorem hasPayload_iff (op : Byte) : hasPayload op = true ↔ op = 0x07 ∨ op = 0x08 := by
  simp [hasPayload]

theorem Command.wf_iff (c : Command) :
    c.wf = true ↔
      (wordOp c.word = 0x07 ∨ wordOp c.word = 0x08 → c.payload.length = wordLen c.word)
      ∧ (wordOp c.word ≠ 0x07 → wordOp c.word ≠ 0x08 → c.payload = []) := by
  simp only [Command.wf, hasPayload_iff]
  split
  · simp only [beq_iff_eq]
    tauto
  · simp only [List.isEmpty_iff]
    tauto

theorem progWf_iff (n p : Nat) (prog : List Command) :
    progWf n p prog = true ↔ ∀ w ∈ prog, w.wf = true ∧ (wordPort w.word < n → wordPort w.word = p) := by
  simp only [progWf, List.all_eq_true, Bool.and_eq_true, Bool.or_eq_true, decide_eq_true_eq, beq_iff_eq,
    ← Nat.not_lt, ← imp_iff_not_or]

theorem progsWf_iff (n k : Nat) (l : List (PortCfg × List Command)) :
    progsWf n k l = true ↔ ∀ p c, l[p]? = some c → progWf n (k + p) c.2 = true := by
  induction l generalizing k with
  | nil => simp [progsWf]
  | cons d ds ih =>
    simp only [progsWf, Bool.and_eq_true, ih]
    constructor
    · rintro ⟨h0, h⟩ p c hc
      cases p with
      | zero => cases hc; exact h0
      | succ p => rw [Nat.add_comm p 1, ← Nat.add_assoc]; exact h p c hc
    · intro h
      refine ⟨h 0 d rfl, fun p c hc => ?_⟩
      rw [Nat.add_assoc, Nat.add_comm 1 p]
      exact h (p + 1) c hc

theorem Launch.wf_iff (l : Launch) :
    l.wf = true ↔
      (1 ≤ l.ports.length ∧ l.ports.length ≤ 256) ∧ l.par.wf = true ∧ cfgsWf l.ports = true
      ∧ progsWf l.ports.length 0 l.ports = true := by
  simp only [Launch.wf, Bool.and_eq_true, decide_eq_true_eq, and_assoc]

theorem Launch.boot_eq_some_iff (l : Launch) (s : Machine.State) :
    l.boot = some s ↔ l.wf = true ∧ s = Machine.resetOf l := by
  rw [Launch.boot, Option.ite_none_right_eq_some, Option.some.injEq, eq_comm (a := s)]

/-- Settles O2: `Launch.wf` clause by clause, the pairs of ports by the symmetry of WF5 and WF6. -/
theorem launchBootsIffWellFormed : Obligations.LaunchBootsIffWellFormed := by
  unfold Obligations.LaunchBootsIffWellFormed
  intro l
  refine ⟨fun s hs => ((l.boot_eq_some_iff s).mp hs).2, ?_⟩
  have hboot : (∃ s, l.boot = some s) ↔ l.wf = true := by simp [Launch.boot_eq_some_iff]
  rw [hboot, Launch.wf_iff, Params.wf_iff, cfgsWf_iff, progsWf_iff]
  simp only [PortCfg.compatible_iff, progWf_iff, Command.wf_iff, Nat.zero_add]
  constructor
  · rintro ⟨hn, ⟨h1, h2, h3⟩, hcfg, hprog⟩
    exact ⟨hn, h1, h2, h3, fun p q c d hpq hc hd => (hcfg p q c d hpq hc hd).1,
      fun p q c d hpq hc hd => (hcfg p q c d hpq hc hd).2, fun p c w hc hw => (hprog p c hc w hw).2,
      fun p c w hc hw => (hprog p c hc w hw).1⟩
  · rintro ⟨hn, h1, h2, h3, h5, h6, h7, hpay⟩
    exact ⟨hn, ⟨h1, h2, h3⟩, fun p q c d hpq hc hd => ⟨h5 p q c d hpq hc hd, h6 p q c d hpq hc hd⟩,
      fun p c hc w hw => ⟨hpay p c w hc hw, h7 p c w hc hw⟩⟩

end Sys2Proof
end

section
/-! PROOFS. No state with the invariant answers a refusal (R17, R20, R252): what the invariant says of the statement at a
micro-PC is what that statement's meaning needs to answer a next state. -/

namespace Sys2Proof

/-! ### The command words that pass R116's checks decode -/

/-- LEN is its two bytes (R110, R86). -/
theorem wordLen_eq_lenField (w : Word) : wordLen w = lenField (w.extractLsb' 16 8) (w.extractLsb' 24 8) := by
  simp only [wordLen, lenField, BitVec.extractLsb'_toNat, Nat.shiftRight_eq_div_pow]
  omega

theorem high_eq_zero_iff (w : Word) :
    w.extractLsb' 16 16 = 0 ↔ w.extractLsb' 16 8 = 0 ∧ w.extractLsb' 24 8 = 0 := by
  have h : (w.extractLsb' 16 16).toNat = (w.extractLsb' 16 8).toNat + 256 * (w.extractLsb' 24 8).toNat :=
    wordLen_eq_lenField w
  simp [← BitVec.toNat_inj, h]

/-- R116's checks 1 and 2, passed: a host command's OP, the reserved field of its format zero. -/
theorem hostWordFault_eq_none {w : Word} (h : Machine.hostWordFault w = none) :
    (wordOp w).toNat = 0x07 ∨ (wordOp w).toNat = 0x08
    ∨ ((wordOp w).toNat = 0x09 ∧ w.extractLsb' 24 8 = 0)
    ∨ ((1 ≤ (wordOp w).toNat ∧ (wordOp w).toNat ≤ 0x06 ∨ 0x0A ≤ (wordOp w).toNat ∧ (wordOp w).toNat ≤ 0x0D)
        ∧ w.extractLsb' 16 8 = 0 ∧ w.extractLsb' 24 8 = 0) := by
  simp only [Machine.hostWordFault, high_eq_zero_iff] at h
  split_ifs at h with hop hS hB hB3 hP
  · exact hS.elim .inl fun h8 => .inr (.inl h8)
  · exact .inr (.inr (.inl ⟨hB, hB3⟩))
  · exact .inr (.inr (.inr ⟨by omega, hP⟩))

/-- The host commands of format P (R110, R113). -/
theorem decodeFixed_bare {op : Byte} (p : Byte)
    (h : 1 ≤ op.toNat ∧ op.toNat ≤ 0x06 ∨ 0x0A ≤ op.toNat ∧ op.toNat ≤ 0x0D) :
    ∃ i, decodeFixed op p 0 0 = .ok i ∧ i.port = p := by
  unfold decodeFixed
  obtain ⟨h1, h6⟩ | ⟨hA, hD⟩ := h
  · interval_cases op.toNat <;> exact ⟨_, rfl, rfl⟩
  · interval_cases op.toNat <;> exact ⟨_, rfl, rfl⟩

/-- Outside format S the bytes after the word are left over (R111). -/
theorem decode_fixed {op p b2 b3 : Byte} {i : Instr} (h7 : op.toNat ≠ 0x07) (h8 : op.toNat ≠ 0x08)
    (h : decodeFixed op p b2 b3 = .ok i) (rest : List Byte) : decode (op :: p :: b2 :: b3 :: rest) = .ok (i, rest) := by
  simp only [decode, h]

/-- A payload of LEN bytes is consumed whole (R111). -/
theorem decodeStream_all {b2 b3 : Byte} {xs : List Byte} (h : xs.length = lenField b2 b3) (i : List Byte → Instr) :
    decodeStream b2 b3 xs i = .ok (i xs, []) := by
  simp [decodeStream, ← h]

/-- A command the host interface can carry, its word past R116's checks 1 and 2, decodes to an instruction on the port its
word names, with no byte left over. -/
theorem decode_hostCommand {c : Command} (hw : Machine.hostWordFault c.word = none) (hc : c.wf = true) :
    ∃ i, decode c.bytes = .ok (i, []) ∧ i.port.toNat = wordPort c.word := by
  obtain ⟨hS, hnone⟩ := (Command.wf_iff c).mp hc
  have e7 : wordOp c.word = 0x07 ↔ (wordOp c.word).toNat = 0x07 := BitVec.toNat_inj.symm
  have e8 : wordOp c.word = 0x08 ↔ (wordOp c.word).toNat = 0x08 := BitVec.toNat_inj.symm
  simp only [ne_eq, e7, e8, wordLen_eq_lenField] at hS hnone
  have hbytes : c.bytes = wordOp c.word :: c.word.extractLsb' 8 8 :: c.word.extractLsb' 16 8
      :: c.word.extractLsb' 24 8 :: c.payload := rfl
  rw [hbytes]
  obtain h7 | h8 | ⟨h9, hb3⟩ | ⟨hop, hb2, hb3⟩ := hostWordFault_eq_none hw
  · simp only [decode, h7, decodeStream_all (hS (.inl h7))]
    exact ⟨_, rfl, rfl⟩
  · simp only [decode, h8, decodeStream_all (hS (.inr h8))]
    exact ⟨_, rfl, rfl⟩
  · rw [hnone (by omega) (by omega), hb3]
    exact ⟨_, decode_fixed (by omega) (by omega) (by simp only [decodeFixed, h9]; rfl) [], rfl⟩
  · rw [hnone (by omega) (by omega), hb2, hb3]
    obtain ⟨i, hi, hp⟩ := decodeFixed_bare (c.word.extractLsb' 8 8) hop
    exact ⟨i, decode_fixed (by omega) (by omega) hi [], congrArg BitVec.toNat hp⟩

/-! ### Which instructions and statements answer -/

/-- A tag the meaning of the instruction accepts: GET_REG a readable selector, CTL an action (log 16). -/
def Instr.tagOk : Instr → Bool
  | .getReg _ tag => tag.readable
  | .ctl _ _ (.act _) => true
  | .ctl _ _ .selStatus | .ctl _ _ .selPending | .ctl _ _ .selMc => false
  | .probe _ | .initInt _ | .initPoll _ | .openPort _ | .closePort _ | .flush _ | .writeInt _ _ | .writePoll _ _
  | .writePolled _ _ | .readPolled _ | .setAttr _ | .fcAssert _ | .fcNegate _ | .rbInit _ | .rbIsEmpty _ | .rbIsFull _
  | .rbEnq _ _ | .rbDeq _ | .assertRts _ | .negateRts _ | .assertDtr _ | .negateDtr _ | .mcw _ _ | .alloc _
  | .channelReset _ | .portInitializer _ | .registerVector _ | .rxPhase _ | .txPhase _ | .extPhase _ | .eoi _
  | .process _ _ | .isrEntry _ | .kick _ | .wait _ | .setReg _ _ _ | .getData _ | .setData _ _ | .up _ _ => true

/-- A host command (R113) has no tag. -/
theorem Instr.tagOk_of_host {i : Instr} (h : i.op.toNat ≤ 0x0D) : i.tagOk = true := by
  cases i with
  | getReg => exact absurd h (show ¬(0xA0 : Byte).toNat ≤ 0x0D by decide)
  | ctl => exact absurd h (show ¬(0xA4 : Byte).toNat ≤ 0x0D by decide)
  | _ => rfl

namespace Machine

/-- An instruction on a configured port, with a tag its meaning accepts, is not refused. -/
theorem exec_next {i : Instr} {s : State} (hp : i.port.toNat < s.nports) (ht : i.tagOk = true) :
    ∃ t, exec i s = .next t := by
  cases i with
  | probe | initInt | initPoll | openPort | closePort | flush | writeInt | writePoll | writePolled | readPolled
  | setAttr | fcAssert | fcNegate => exact ⟨_, onHost_of_lt hp _ _⟩
  | isrEntry p =>
    simp only [exec, execIsrEntry]
    cases s.offer <;> exact ⟨_, rfl⟩
  | getReg p tag => exact ⟨_, (if_pos ht).trans (onPort_of_lt hp _)⟩
  | ctl p a tag =>
    cases tag with
    | act k => exact ⟨_, onPort_of_lt hp _⟩
    | selStatus | selPending | selMc => cases ht
  | rbInit | rbIsEmpty | rbIsFull | rbEnq | rbDeq | assertRts | negateRts | assertDtr | negateDtr | mcw | alloc
  | channelReset | portInitializer | registerVector | rxPhase | txPhase | extPhase | eoi | process | kick | wait
  | setReg | getData | setData | up => exact ⟨_, onPort_of_lt hp _⟩

/-- A statement TASK(p) can run: its micro-operation is port p's own, its test finds a result of its kind in the latch. -/
def Stmt.taskRuns (p : Nat) (lat : MicroResult) : Stmt → Bool
  | .op i => i.port.toNat == p && i.tagOk
  | .allocTest | .flushTest | .fullTest _ => lat.toBool.isSome
  | .putTest _ | .readTest | .retByte => lat.toByte.isSome
  | .start | .baud | .initReady | .ret _ | .writeByte _ | .kickTest _ | .enqueue _ | .pollByte _ => true
  | .isrNext | .serviceTest _ => false

/-- A statement the activation can run: its micro-operation is on a configured port, its test finds a byte in the latch. -/
def Stmt.isrRuns (n : Nat) (lat : MicroResult) : Stmt → Bool
  | .op i => decide (i.port.toNat < n) && i.tagOk
  | .isrNext => true
  | .serviceTest _ => lat.toByte.isSome
  | .start | .allocTest | .baud | .initReady | .ret _ | .flushTest | .writeByte _ | .fullTest _ | .kickTest _ | .enqueue _
  | .pollByte _ | .putTest _ | .readTest | .retByte => false

theorem taskStmt_next {p : Nat} {cmd : Instr} {st : Stmt} {rest : List Stmt} {s : State} (hp : p < s.nports)
    (hn : s.nports ≤ 256) (hcmd : cmd.port.toNat = p) (hop : cmd.op.toNat ≤ 0x0D)
    (hst : st.taskRuns p (s.port p).lat = true) : ∃ t, taskStmt p cmd st rest s = .next t := by
  have hpb : (BitVec.ofNat 8 p).toNat = p := Nat.mod_eq_of_lt (Nat.lt_of_lt_of_le hp hn)
  cases st with
  | start => exact exec_next (hcmd ▸ hp) (Instr.tagOk_of_host hop)
  | op i =>
    simp only [Stmt.taskRuns, Bool.and_eq_true, beq_iff_eq] at hst
    obtain ⟨hi, ht⟩ := hst
    exact exec_next (hi ▸ hp) ht
  | allocTest | flushTest | fullTest k =>
    obtain ⟨b, hb⟩ := Option.isSome_iff_exists.mp hst
    simp only [taskStmt, hb]
    cases b <;> exact ⟨_, rfl⟩
  | putTest b | readTest =>
    obtain ⟨v, hv⟩ := Option.isSome_iff_exists.mp hst
    simp only [taskStmt, hv]
    split <;> exact ⟨_, rfl⟩
  | retByte =>
    obtain ⟨v, hv⟩ := Option.isSome_iff_exists.mp hst
    simp only [taskStmt, hv]
    exact ⟨_, rfl⟩
  | baud | writeByte | kickTest | pollByte =>
    simp only [taskStmt]
    split <;> exact ⟨_, rfl⟩
  | initReady =>
    obtain ⟨t, ht⟩ := exec_next (i := .rbInit (BitVec.ofNat 8 p)) (hpb.symm ▸ hp) rfl
    simp only [taskStmt, ht]
    exact ⟨_, rfl⟩
  | enqueue k =>
    obtain ⟨t, ht⟩ := exec_next (i := .rbEnq (BitVec.ofNat 8 p) (cmd.payload.getD k 0)) (hpb.symm ▸ hp) rfl
    simp only [taskStmt, ht]
    split_ifs <;> exact ⟨_, rfl⟩
  | ret r => exact ⟨_, rfl⟩
  | isrNext | serviceTest => cases hst

theorem isrStmt_next {c : IsrPc} {st : Stmt} {rest : List Stmt} {s : State}
    (hst : st.isrRuns s.nports s.isrLat = true) : ∃ t, isrStmt c st rest s = .next t := by
  cases st with
  | op i =>
    simp only [Stmt.isrRuns, Bool.and_eq_true, decide_eq_true_eq] at hst
    obtain ⟨hi, ht⟩ := hst
    exact exec_next hi ht
  | isrNext =>
    simp only [isrStmt]
    split <;> exact ⟨_, rfl⟩
  | serviceTest a =>
    obtain ⟨v, hv⟩ := Option.isSome_iff_exists.mp hst
    simp only [isrStmt, hv]
    exact ⟨_, rfl⟩
  | start | allocTest | baud | initReady | ret | flushTest | writeByte | fullTest | kickTest | enqueue | pollByte | putTest
  | readTest | retByte => cases hst

theorem holdPc_of_next {p : Nat} {s : State} {r : Host.Outcome State Fault Refusal} (h : ∃ u, r = .next u) :
    ∃ t, holdPc p s r = .next t := by
  obtain ⟨u, rfl⟩ := h
  simp only [holdPc]
  split <;> exact ⟨_, rfl⟩

theorem holdIpc_of_next {s : State} {r : Host.Outcome State Fault Refusal} (h : ∃ u, r = .next u) :
    ∃ t, holdIpc s r = .next t := by
  obtain ⟨u, rfl⟩ := h
  simp only [holdIpc]
  split <;> exact ⟨_, rfl⟩

/-- The decode step of a command a launch can hold (WF7, R111) is not refused. -/
theorem issue_next_of_wf {p : Nat} {c : Command} {s : State} (hc : c.wf = true)
    (h7 : wordPort c.word < s.nports → wordPort c.word = p) : ∃ t, issue p c s = .next t := by
  cases hw : hostWordFault c.word with
  | some f =>
    simp only [issue, hw]
    exact ⟨_, rfl⟩
  | none =>
    obtain ⟨i, hd, hi⟩ := decode_hostCommand hw hc
    simp only [issue, hw, hd, hi]
    by_cases hn : s.nports ≤ wordPort c.word
    · exact ⟨_, if_pos hn⟩
    · exact ⟨_, (if_neg hn).trans (if_pos (h7 (Nat.lt_of_not_le hn)))⟩

/-! ### What the invariant says of the next statement -/

theorem aloneAt_tagOk {l : Life} {i : Instr} (h : aloneAt l i = true) : i.tagOk = true := by
  cases i with
  | getReg p tag =>
    cases tag with
    | selStatus | selPending => rfl
    | selMc | act => cases h
  | ctl p a tag =>
    cases tag with
    | act => rfl
    | selStatus | selPending | selMc => cases h
  | _ => rfl

theorem posOk_op {p : Nat} {l : Life} {m : Bool} {i : Instr} {rest : List Stmt}
    (h : posOk p l m (.op i :: rest) = true) : i.port.toNat = p ∧ i.tagOk = true := by
  unfold posOk at h
  split at h
  case h_9 heq =>
    obtain ⟨hi, -⟩ := List.cons.inj heq
    cases hi
    simp only [Bool.and_eq_true, beq_iff_eq] at h
    obtain ⟨⟨hp, ha⟩, -⟩ := h
    exact ⟨hp, aloneAt_tagOk ha⟩
  case h_16 => cases h
  all_goals
    rename_i heq
    cases heq
  all_goals
    simp only [Bool.and_eq_true, beq_iff_eq] at h
    obtain ⟨⟨hp, -⟩, -⟩ := h
    exact ⟨hp, rfl⟩

theorem posOk_taskRuns {p : Nat} {l : Life} {m : Bool} {st : Stmt} {rest : List Stmt}
    (h : posOk p l m (st :: rest) = true) (lat : MicroResult) : st.taskRuns p lat = true := by
  cases st with
  | op i =>
    obtain ⟨hp, ht⟩ := posOk_op h
    simp only [Stmt.taskRuns, hp, ht, beq_self_eq_true, Bool.and_self]
  | baud | initReady | ret | writeByte | kickTest | pollByte | start | enqueue => rfl
  | allocTest | flushTest | fullTest | putTest | readTest | retByte | isrNext | serviceTest => cases h

/-- The micro-PC of a TASK inside a command: a host command of its own port, at a statement it can run. -/
theorem taskOk_inCmd {cap p : Nat} {q : Port} {cmd : Instr} {st : Stmt} {rest : List Stmt}
    (h : taskOk cap p q = true) (ht : q.tpc = .inCmd cmd (st :: rest)) :
    cmd.port.toNat = p ∧ cmd.op.toNat ≤ 0x0D ∧ st.taskRuns p q.lat = true := by
  simp only [taskOk, ht, Bool.and_eq_true, beq_iff_eq, decide_eq_true_eq] at h
  obtain ⟨⟨hp, ho⟩, h⟩ := h
  refine ⟨hp, ho, ?_⟩
  cases st with
  | start | enqueue => rfl
  | op | baud | initReady | ret | writeByte | kickTest | pollByte | isrNext | serviceTest => exact posOk_taskRuns h q.lat
  | allocTest =>
    simp only [Bool.or_eq_true, Bool.and_eq_true, beq_iff_eq] at h
    obtain ⟨⟨hl, -⟩, -⟩ | ⟨hl, -⟩ := h <;> simp only [Stmt.taskRuns, hl] <;> rfl
  | fullTest =>
    simp only [Bool.or_eq_true, Bool.and_eq_true, beq_iff_eq] at h
    obtain ⟨⟨-, hl | ⟨hl, -⟩⟩, -⟩ := h <;> simp only [Stmt.taskRuns, hl] <;> rfl
  | flushTest | putTest | readTest | retByte =>
    simp only [Bool.and_eq_true] at h
    obtain ⟨⟨-, hl⟩, -⟩ := h
    exact hl

theorem serviced_lt {s : State} {p : Nat} (h : serviced s p = true) : p < s.nports := by
  simp only [serviced, Bool.and_eq_true, decide_eq_true_eq] at h
  exact h.1.1

theorem isrRuns_op {n : Nat} {lat : MicroResult} {i : Instr} (hp : i.port.toNat < n) (ht : i.tagOk = true) :
    (Stmt.op i).isrRuns n lat = true :=
  Bool.and_eq_true_iff.mpr ⟨decide_eq_true hp, ht⟩

theorem stageOk_isrRuns {s : State} {st : Stmt} {rest : List Stmt} (h : stageOk s (st :: rest) = true)
    (lat : MicroResult) : st.isrRuns s.nports lat = true := by
  unfold stageOk at h
  split at h
  case h_1 heq =>
    cases heq
    rfl
  case h_2 q a rest heq =>
    cases heq
    simp only [Bool.and_eq_true, beq_iff_eq] at h
    obtain ⟨⟨hq, ha⟩, -⟩ := h
    exact isrRuns_op (show q.toNat < s.nports from hq ▸ serviced_lt ha) rfl
  case h_8 => cases h
  all_goals
    rename_i heq
    cases heq
    obtain ⟨hq, -⟩ := Bool.and_eq_true_iff.mp h
    exact isrRuns_op (serviced_lt hq) rfl

/-- In interrupt context the ISR micro-PC is at a statement the activation can run. -/
theorem isrOk_isrRuns {s : State} (h : isrOk s = true) (hc : s.cpu = .isr) :
    ∃ c st rest, s.ipc = some c ∧ c.stage = st :: rest ∧ st.isrRuns s.nports s.isrLat = true := by
  cases hi : s.ipc with
  | none => simp [isrOk, hc, hi] at h
  | some c =>
    simp only [isrOk, hc, hi, Bool.and_eq_true] at h
    obtain ⟨-, h⟩ := h
    cases hs : c.stage with
    | nil => simp [hs, stageOk] at h
    | cons st rest =>
      refine ⟨c, st, rest, rfl, hs, ?_⟩
      rw [hs] at h
      cases st with
      | serviceTest a =>
        simp only [Bool.and_eq_true] at h
        obtain ⟨⟨-, hv⟩, -⟩ := h
        exact hv
      | _ => exact stageOk_isrRuns h s.isrLat

/-- WF7 and R111 of the programs of a state whose launch is well formed (R12). -/
theorem command_of_launch_wf {s : State} (h : s.launch.wf = true) {p : Nat} (hp : p < s.nports) {c : Command}
    (hc : c ∈ (s.port p).prog) : c.wf = true ∧ (wordPort c.word < s.nports → wordPort c.word = p) := by
  obtain ⟨-, -, -, hprogs⟩ := (Launch.wf_iff _).mp h
  have hget : s.launch.ports[p]? = some ((s.port p).cfg, (s.port p).prog) := by
    have hp' : p < s.ports.length := hp
    simp [State.launch, State.port, hp']
  have hlen : s.launch.ports.length = s.nports := List.length_map _
  have hprog := (progsWf_iff _ _ _).mp hprogs p _ hget
  rw [hlen, Nat.zero_add] at hprog
  exact (progWf_iff _ _ _).mp hprog c hc

theorem nports_le_of_launch_wf {s : State} (h : s.launch.wf = true) : s.nports ≤ 256 := by
  obtain ⟨⟨-, hle⟩, -⟩ := (Launch.wf_iff _).mp h
  simpa [State.launch, State.nports] using hle

/-! ### The steps of the agents -/

theorem stepTask_next {s : State} (hinv : Inv s) (p : Nat) : ∃ t, stepTask p (takeChoice s) = .next t := by
  by_cases hp : p < s.nports
  · cases ht : (s.port p).tpc with
    | idle =>
      cases hc : (s.port p).prog[(s.port p).hpc]? with
      | some c =>
        obtain ⟨hwf, h7⟩ := command_of_launch_wf hinv.launch hp (List.mem_of_getElem? hc)
        rw [stepTask_issue hp ht hc]
        exact issue_next_of_wf hwf h7
      | none =>
        simp only [stepTask, takeChoice_nports, takeChoice_port, ht, hc, if_neg (Nat.not_le.mpr hp)]
        exact ⟨_, rfl⟩
    | inCmd cmd pos =>
      cases pos with
      | nil =>
        simp only [stepTask, takeChoice_nports, takeChoice_port, ht, if_neg (Nat.not_le.mpr hp)]
        exact ⟨_, rfl⟩
      | cons st rest =>
        obtain ⟨hcmd, hop, hst⟩ := taskOk_inCmd (hinv.tasks p hp) ht
        rw [stepTask_inCmd hp ht]
        refine holdPc_of_next (taskStmt_next (by simpa using hp) ?_ hcmd hop ?_)
        · simpa using nports_le_of_launch_wf hinv.launch
        · rw [upd_port_same (by simpa using hp)]
          exact hst
  · exact ⟨_, if_pos (Nat.le_of_not_lt hp)⟩

theorem stepIsr_next {s : State} (h : isrOk s = true) (hc : s.cpu = .isr) :
    ∃ t, stepIsr (takeChoice s) = .next t := by
  obtain ⟨c, st, rest, hi, hs, hst⟩ := isrOk_isrRuns h hc
  simp only [stepIsr, takeChoice_ipc, hi, hs]
  exact holdIpc_of_next (isrStmt_next hst)

/-- Settles O54, by the context and ENV's choice: the steps of a TASK and of the activation answer by what the invariant says of
their micro-PCs. -/
theorem nothingIsRefused : Obligations.NothingIsRefused := by
  unfold Obligations.NothingIsRefused
  intro s hinv hf
  cases hc : s.cpu with
  | isr =>
    by_cases hu : nextChoice s = .sysUp
    · simp only [step, hf, hu]
      exact ⟨_, rfl⟩
    · rw [step_of_isr hf hc hu]
      exact stepIsr_next hinv.isr hc
  | task =>
    cases hn : nextChoice s with
    | sysUp | idle =>
      simp only [step, hf, hn, hc]
      exact ⟨_, rfl⟩
    | task p =>
      rw [step_of_task hf hc hn]
      exact stepTask_next hinv p
    | irq v =>
      simp only [step, hf, hn, hc, exec, execIsrEntry]
      exact ⟨_, rfl⟩

end Machine

end Sys2Proof
end

section
/-! PROOFS. The encoding (R110 to R122): a format at a time, what the decoder reads is what the encoder wrote, the word a line
of assembly stands for, and the instructions that stop by name. -/

namespace Sys2Proof

/-! ### Format S (R110, R111) -/

/-- LEN's two bytes, written back (R110). -/
theorem lenBytes_lenField (b2 b3 : Byte) : lenBytes (lenField b2 b3) = [b2, b3] := by
  have h2 : BitVec.ofNat 8 (lenField b2 b3) = b2 := by
    apply BitVec.eq_of_toNat_eq
    simp only [lenField, BitVec.toNat_ofNat]
    omega
  have h3 : BitVec.ofNat 8 (lenField b2 b3 / 256) = b3 := by
    apply BitVec.eq_of_toNat_eq
    simp only [lenField, BitVec.toNat_ofNat]
    omega
  rw [lenBytes, h2, h3]

/-- A format-S word that decodes is followed by LEN bytes, and they are its payload (R111). -/
theorem encode_of_decodeStream {op p b2 b3 : Byte} {bs rest : List Byte} {f : List Byte → Instr} {i : Instr}
    (h : decodeStream b2 b3 bs f = .ok (i, rest)) (hf : ∀ xs, encode (f xs) = op :: p :: (lenBytes xs.length ++ xs)) :
    encode i ++ rest = op :: p :: b2 :: b3 :: bs := by
  simp only [decodeStream] at h
  split at h
  next hlen =>
    obtain ⟨rfl, rfl⟩ := Prod.mk.inj (Except.ok.inj h)
    rw [hf, List.length_take_of_le hlen, lenBytes_lenField]
    simp
  next => cases h

/-- A payload that LEN can count is read back, and the bytes after it are left over (R111, R112). -/
theorem decodeStream_append {xs : List Byte} (hx : xs.length < 65536) (rest : List Byte) (f : List Byte → Instr) :
    decodeStream (BitVec.ofNat 8 xs.length) (BitVec.ofNat 8 (xs.length / 256)) (xs ++ rest) f = .ok (f xs, rest) := by
  simp [decodeStream, lenField_lenBytes hx]

/-! ### The formats of one word (R110, R114) -/

/-- A word with no operand but PORT that decodes has zero above it. -/
theorem encode_of_decodeBare {op p b2 b3 : Byte} {i j : Instr} (h : decodeBare op b2 b3 i = .ok j)
    (hop : op.toNat = i.op.toNat) (hi : encode i = [i.op, p, 0, 0]) : encode j = [op, p, b2, b3] := by
  unfold decodeBare at h
  split at h
  next hz =>
    obtain ⟨rfl, rfl⟩ := hz
    rw [← Except.ok.inj h, hi, BitVec.eq_of_toNat_eq hop]
  next => cases h

/-- A word with a byte operand that decodes has zero above it. -/
theorem encode_of_decodeByte {op p b2 b3 : Byte} {i j : Instr} (h : decodeByte op b3 i = .ok j)
    (hop : op.toNat = i.op.toNat) (hi : encode i = [i.op, p, b2, 0]) : encode j = [op, p, b2, b3] := by
  unfold decodeByte at h
  split at h
  next hz =>
    obtain rfl := hz
    rw [← Except.ok.inj h, hi, BitVec.eq_of_toNat_eq hop]
  next => cases h

/-- The tag an AUX byte names has that byte as its code (R115). -/
theorem code_of_ofCode {c : Byte} {t : RegTag} (h : RegTag.ofCode c = some t) : t.code = c := by
  revert c t
  decide

/-- A tagged word that decodes has its tag's code in AUX. -/
theorem encode_of_decodeTagged {op p b2 b3 : Byte} {f : RegTag → Instr} {j : Instr} (h : decodeTagged b3 f = .ok j)
    (hop : ∀ t, op.toNat = (f t).op.toNat) (hf : ∀ t, encode (f t) = [(f t).op, p, b2, t.code]) :
    encode j = [op, p, b2, b3] := by
  unfold decodeTagged at h
  split at h
  next t ht => rw [← Except.ok.inj h, hf, BitVec.eq_of_toNat_eq (hop t), code_of_ofCode ht]
  next => cases h

@[simp] theorem decodeTagged_code (t : RegTag) (f : RegTag → Instr) : decodeTagged t.code f = .ok (f t) := by
  simp only [decodeTagged, ofCode_code]

/-- A word outside format S that decodes is the encoding of what it decodes to, row by row of R113 and R114. -/
theorem encode_of_decodeFixed {op p b2 b3 : Byte} {i : Instr} (h : decodeFixed op p b2 b3 = .ok i) :
    encode i = [op, p, b2, b3] := by
  unfold decodeFixed at h
  split at h <;> rename_i hop
  -- the rows with a byte operand: WRITE_POLLED, RB_ENQ, MCW, PROCESS, SET_DATA, UP
  case h_7 | h_15 | h_21 | h_30 | h_37 | h_39 => exact encode_of_decodeByte h hop rfl
  -- the tagged rows: GET_REG, SET_REG, CTL
  case h_34 =>
    split at h
    next hz =>
      obtain rfl := hz
      exact encode_of_decodeTagged h (fun _ => hop) fun _ => rfl
    next => cases h
  case h_35 | h_38 => exact encode_of_decodeTagged h (fun _ => hop) fun _ => rfl
  -- the OP bytes of no row
  case h_40 => cases h
  -- every other row has no operand but PORT
  all_goals exact encode_of_decodeBare h hop rfl

/-- An instruction outside format S is one word, and that word decodes to it, row by row of R113 and R114. -/
theorem decodeFixed_encode {i : Instr} (hi : hasPayload i.op = false) :
    ∃ b2 b3, encode i = [i.op, i.port, b2, b3] ∧ decodeFixed i.op i.port b2 b3 = .ok i := by
  cases i with
  | writeInt | writePoll => cases hi
  | getReg p t | setReg p v t | ctl p v t => exact ⟨_, _, rfl, decodeTagged_code t _⟩
  | _ => exact ⟨_, _, rfl, rfl⟩

/-! ### Round trips -/

theorem decode_encode_of_fixed {i : Instr} (hi : hasPayload i.op = false) (rest : List Byte) :
    decode (encode i ++ rest) = .ok (i, rest) := by
  obtain ⟨b2, b3, he, hd⟩ := decodeFixed_encode hi
  obtain ⟨h7, h8⟩ : i.op ≠ 0x07 ∧ i.op ≠ 0x08 := by simpa [hasPayload] using hi
  rw [he]
  exact decode_fixed (BitVec.toNat_ne.mp h7) (BitVec.toNat_ne.mp h8) hd rest

/-- Settles O4, by format: a format-S payload is read back by its length, any other instruction is one word. -/
theorem decodeEncodeRoundTrip : Obligations.DecodeEncodeRoundTrip := by
  unfold Obligations.DecodeEncodeRoundTrip
  intro i rest hi
  cases i with
  | writeInt p xs | writePoll p xs => exact decodeStream_append (of_decide_eq_true hi) rest _
  | _ => exact decode_encode_of_fixed rfl rest

/-- What decodes is a word of format S with its payload, or a word of another format alone (R111). -/
theorem decode_eq_ok {bs rest : List Byte} {i : Instr} (h : decode bs = .ok (i, rest)) :
    ∃ op p b2 b3 tl, bs = op :: p :: b2 :: b3 :: tl ∧
      ((op = 0x07 ∧ decodeStream b2 b3 tl (.writeInt p) = .ok (i, rest))
      ∨ (op = 0x08 ∧ decodeStream b2 b3 tl (.writePoll p) = .ok (i, rest))
      ∨ (decodeFixed op p b2 b3 = .ok i ∧ tl = rest)) := by
  unfold decode at h
  split at h
  next op p b2 b3 tl =>
    refine ⟨op, p, b2, b3, tl, rfl, ?_⟩
    split at h
    next h7 => exact .inl ⟨BitVec.eq_of_toNat_eq h7, h⟩
    next h8 => exact .inr (.inl ⟨BitVec.eq_of_toNat_eq h8, h⟩)
    next =>
      split at h
      next hd =>
        obtain ⟨rfl, rfl⟩ := Prod.mk.inj (Except.ok.inj h)
        exact .inr (.inr ⟨hd, rfl⟩)
      next => cases h
  next => cases h

/-- Settles O5, by format: no decoder of a format drops a bit of the word. -/
theorem decodedBytesAreTheEncoding : Obligations.DecodedBytesAreTheEncoding := by
  unfold Obligations.DecodedBytesAreTheEncoding
  intro bs rest i h
  obtain ⟨op, p, b2, b3, tl, rfl, ⟨rfl, hS⟩ | ⟨rfl, hS⟩ | ⟨hF, rfl⟩⟩ := decode_eq_ok h
  · exact (encode_of_decodeStream hS fun _ => rfl).symm
  · exact (encode_of_decodeStream hS fun _ => rfl).symm
  · rw [encode_of_decodeFixed hF]
    rfl

/-- Settles O3: the decoder evaluated on each of R122's words, the byte string by the round trip. -/
theorem exampleWordsDecode : Obligations.ExampleWordsDecode := by
  unfold Obligations.ExampleWordsDecode
  exact ⟨by decide, by decide, decodeEncodeRoundTrip (.writeInt 2 [0x48, 0x49]) [] (by decide), by decide, by decide,
    by decide⟩

/-! ### Assembly (R120, R121) -/

/-- A word as the union of its fields in place (R110). -/
theorem bytesWord_eq_or (b0 b1 b2 b3 : Byte) :
    bytesWord b0 b1 b2 b3
      = b3.setWidth 32 <<< 24 ||| b2.setWidth 32 <<< 16 ||| b1.setWidth 32 <<< 8 ||| b0.setWidth 32 := by
  ext i hi
  rw [← BitVec.getLsbD_eq_getElem, bytesWord_getLsbD]
  simp only [BitVec.getElem_or, BitVec.getElem_shiftLeft]
  grind

/-- LEN's two bytes in place are LEN in place (R110). -/
theorem lenBytes_eq_or (n : Nat) :
    (BitVec.ofNat 8 (n / 256)).setWidth 32 <<< 24 ||| (BitVec.ofNat 8 n).setWidth 32 <<< 16
      = BitVec.ofNat 32 n <<< 16 := by
  apply BitVec.eq_of_getLsbD_eq
  intro i hi
  have hdiv (h : 24 ≤ i) : (n / 256).testBit (i - 24) = n.testBit (i - 16) := by
    rw [show i - 16 = i - 24 + 8 by omega]
    exact Nat.testBit_div_two_pow (n := 8) n (i - 24)
  simp only [BitVec.getLsbD_or, BitVec.getLsbD_shiftLeft, BitVec.getLsbD_setWidth, BitVec.getLsbD_ofNat]
  generalize n.testBit = low, (n / 256).testBit = high at *
  grind

theorem ofBytes_bare (op n : Byte) :
    Command.ofBytes [op, n, 0, 0] = ⟨n.setWidth 32 <<< 8 ||| op.setWidth 32, []⟩ := by
  simp [Command.ofBytes, bytesWord_eq_or]

theorem ofBytes_byte (op n b : Byte) :
    Command.ofBytes [op, n, b, 0] = ⟨b.setWidth 32 <<< 16 ||| n.setWidth 32 <<< 8 ||| op.setWidth 32, []⟩ := by
  simp [Command.ofBytes, bytesWord_eq_or]

theorem ofBytes_stream (op n : Byte) (xs : List Byte) :
    Command.ofBytes (op :: n :: (lenBytes xs.length ++ xs))
      = ⟨BitVec.ofNat 32 xs.length <<< 16 ||| n.setWidth 32 <<< 8 ||| op.setWidth 32, xs⟩ := by
  simp only [Command.ofBytes, lenBytes, List.cons_append, List.nil_append, bytesWord_eq_or, lenBytes_eq_or]

theorem assemble_init (mode : Byte → Mode) (n : Byte) :
    Asm.assemble mode (.init n) = Asm.assemble mode (if mode n = .interrupt then .initInt n else .initPoll n) := by
  cases hm : mode n <;> simp [Asm.assemble, Asm.expand, hm]

theorem assemble_write (mode : Byte → Mode) (n : Byte) (xs : List Byte) :
    Asm.assemble mode (.write n xs)
      = Asm.assemble mode (if mode n = .interrupt then .writeInt n xs else .writePoll n xs) := by
  cases hm : mode n <;> simp [Asm.assemble, Asm.expand, hm]

/-- Settles O6, by the format of each line's instruction; the pseudo-instructions by the port's mode. -/
theorem assembledWords : Obligations.AssembledWords := by
  unfold Obligations.AssembledWords
  intro mode n b xs _
  exact ⟨ofBytes_bare 0x01 n, ofBytes_bare 0x02 n, ofBytes_bare 0x03 n, ofBytes_bare 0x04 n, ofBytes_bare 0x05 n,
    ofBytes_bare 0x06 n, ofBytes_stream 0x07 n xs, ofBytes_stream 0x08 n xs, ofBytes_byte 0x09 n b,
    ofBytes_bare 0x0A n, ofBytes_bare 0x0B n, ofBytes_bare 0x0C n, ofBytes_bare 0x0D n, assemble_init mode n,
    assemble_write mode n xs, rfl, rfl, rfl⟩

namespace Machine

/-! ### Forms that stop by name -/

theorem onPort_of_le {p : Byte} {s : State} (hp : s.nports ≤ p.toNat) (f : State) :
    onPort p s f = .refused .portNotConfigured :=
  if_neg (Nat.not_lt.mpr hp)

/-- A well-formed micro-operation but ISR_ENTRY on a port that is not configured stops by name (R112; log 15). -/
theorem exec_portNotConfigured {i : Instr} {s : State} (hwf : i.wf = true) (hop : 0x80 ≤ i.op.toNat)
    (hisr : ∀ p, i ≠ .isrEntry p) (hp : s.nports ≤ i.port.toNat) : exec i s = .refused .portNotConfigured := by
  cases i with
  | probe | initInt | initPoll | openPort | closePort | flush | writeInt | writePoll | writePolled | readPolled
  | setAttr | fcAssert | fcNegate => simp [Instr.op] at hop
  | isrEntry p => exact absurd rfl (hisr p)
  | getReg p tag => exact (if_pos hwf).trans (onPort_of_le hp _)
  | ctl p a tag =>
    cases tag with
    | act k => exact onPort_of_le hp _
    | selStatus | selPending | selMc => cases hwf
  | rbInit | rbIsEmpty | rbIsFull | rbEnq | rbDeq | assertRts | negateRts | assertDtr | negateDtr | mcw | alloc
  | channelReset | portInitializer | registerVector | rxPhase | txPhase | extPhase | eoi | process | kick | wait
  | setReg | getData | setData | up => exact onPort_of_le hp _

/-- Settles O18, by the tag in GET_REG and CTL and by the instruction on a port that is not configured. -/
theorem formsThatStop : Obligations.FormsThatStop := by
  unfold Obligations.FormsThatStop
  refine ⟨fun s p tag h0 h1 => ?_, fun s p a tag ht => ?_, fun s i => exec_portNotConfigured⟩
  · cases tag with
    | selStatus => exact absurd rfl h0
    | selPending => exact absurd rfl h1
    | selMc | act => rfl
  · cases tag with
    | act k => exact absurd rfl (ht k)
    | selStatus | selPending | selMc => rfl

end Machine

end Sys2Proof
end

section
/-! PROOFS. The Ring Buffer (R150 to R157): what each guarded use of a ring does to the queue it stands for, and what the
five micro-operations leave of the port's ring, of the result and of the fault record. -/

namespace Sys2Proof.Machine

open Sys2Proof

/-! ### The FIFO law (R155) -/

/-- The law along a sequence of uses: the ring meets R43, and the bytes accepted are the bytes returned followed by the
queue the ring stands for. -/
structure RingRun.Fifo (c : Nat) (x : RingRun) : Prop where
  wf    : x.ring.wf c = true
  queue : x.accepted.map some = x.returned.map some ++ x.ring.queue c

/-- A guarded use does nothing, or it is an enqueue that was accepted, or a dequeue that returned a byte. -/
theorem RingRun.use_cases (c : Nat) (x : RingRun) (u : RingUse) :
    x.use c u = x
    ∨ (∃ b r, x.ring.enq c b = some r ∧ x.use c u = ⟨x.accepted ++ [b], x.returned, r⟩)
    ∨ (∃ b r, x.ring.deq c = .ok b r ∧ x.use c u = ⟨x.accepted, x.returned ++ [b], r⟩) := by
  cases u with
  | enq b =>
    simp only [RingRun.use]
    split
    · exact .inl rfl
    · split
      next r hr => exact .inr (.inl ⟨b, r, hr, rfl⟩)
      next => exact .inl rfl
  | deq =>
    simp only [RingRun.use]
    split
    · exact .inl rfl
    · split
      next b r hr => exact .inr (.inr ⟨b, r, hr, rfl⟩)
      next => exact .inl rfl
      next => exact .inl rfl

theorem RingRun.fifo_fresh {c : Nat} (hc : 1 ≤ c) : RingRun.Fifo c ⟨[], [], .empty c⟩ where
  wf    := Ring.wf_empty hc
  queue := rfl

theorem RingRun.Fifo.use {c : Nat} {x : RingRun} (h : x.Fifo c) (u : RingUse) : (x.use c u).Fifo c := by
  obtain hx | ⟨b, r, hr, hx⟩ | ⟨b, r, hr, hx⟩ := RingRun.use_cases c x u
  · rw [hx]
    exact h
  · rw [hx]
    exact ⟨Ring.enq_wf h.wf hr, by simp [h.queue, Ring.queue_enq h.wf hr]⟩
  · rw [hx]
    exact ⟨Ring.deq_wf h.wf hr, by simp [h.queue, Ring.queue_deq h.wf hr]⟩

theorem RingRun.Fifo.uses {c : Nat} (us : List RingUse) {x : RingRun} (h : x.Fifo c) :
    (us.foldl (RingRun.use c) x).Fifo c := by
  induction us generalizing x with
  | nil => exact h
  | cons u us ih => exact ih (h.use u)

theorem RingRun.Fifo.returned_isPrefix {c : Nat} {x : RingRun} (h : x.Fifo c) : x.returned <+: x.accepted :=
  (List.prefix_map_iff_of_injective (Option.some_injective _)).mp ⟨_, h.queue.symm⟩

/-- Settles O13, by induction on the uses: each keeps R43 and the equation between the bytes and the queue. -/
theorem ringFifoLaw : Obligations.RingFifoLaw := by
  unfold Obligations.RingFifoLaw
  intro c us hc
  have h : (ringUses c us).Fifo c := (RingRun.fifo_fresh hc).uses us
  exact ⟨h.wf, h.returned_isPrefix, h.queue, h.returned_isPrefix.length_le⟩

/-! ### The operations by what the ring holds (R150 to R154) -/

theorem rbIsEmptyOp_none {s : State} {p : Nat} (hr : (s.port p).rb = none) :
    rbIsEmptyOp p s = .raise .undefRead p 0x81 s := by
  simp only [rbIsEmptyOp, hr]
  rfl

theorem rbIsFullOp_none {s : State} {p : Nat} (hr : (s.port p).rb = none) :
    rbIsFullOp p s = .raise .undefRead p 0x82 s := by
  simp only [rbIsFullOp, hr]
  rfl

theorem rbEnqOp_none {s : State} {p : Nat} (hr : (s.port p).rb = none) (b : Byte) :
    rbEnqOp p b s = .raise .undefRead p 0x83 s := by
  simp only [rbEnqOp, hr]
  rfl

theorem rbDeqOp_none {s : State} {p : Nat} (hr : (s.port p).rb = none) :
    rbDeqOp p s = .raise .undefRead p 0x84 s := by
  simp only [rbDeqOp, hr]
  rfl

theorem rbEnqOp_overflow {s : State} {p : Nat} {r : Ring} {b : Byte} (hr : (s.port p).rb = some r)
    (he : r.enq s.par.rbCap b = none) : rbEnqOp p b s = .pure false s := by
  simp only [rbEnqOp, hr, he]

theorem rbDeqOp_underflow {s : State} {p : Nat} {r : Ring} (hr : (s.port p).rb = some r)
    (hd : r.deq s.par.rbCap = .underflow) : rbDeqOp p s = .pure none s := by
  simp only [rbDeqOp, hr, hd]

theorem Ring.enq_of_room {c : Nat} {r : Ring} (h : r.count ≠ c) (b : Byte) :
    r.enq c b = some ⟨r.buf.set r.tail (some b), r.head, (r.tail + 1) % c, r.count + 1⟩ :=
  if_neg h

theorem Ring.enq_of_full {c : Nat} {r : Ring} (h : r.count = c) (b : Byte) : r.enq c b = none :=
  if_pos h

theorem Ring.deq_of_slot {r : Ring} {b : Byte} (h : r.count ≠ 0) (hb : r.buf.getD r.head none = some b) (c : Nat) :
    r.deq c = .ok b ⟨r.buf.set r.head none, (r.head + 1) % c, r.tail, r.count - 1⟩ := by
  simp only [Ring.deq, if_neg h, hb]

theorem Ring.deq_of_empty {r : Ring} (h : r.count = 0) (c : Nat) : r.deq c = .underflow :=
  if_pos h

/-- A ring of at least one slot is never both empty and full (R157). -/
theorem Ring.not_empty_and_full {c : Nat} (hc : 1 ≤ c) (r : Ring) : ¬(r.isEmpty = true ∧ r.isFull c = true) := by
  rintro ⟨he, hf⟩
  have he' : r.count = 0 := beq_iff_eq.mp he
  have hf' : r.count = c := beq_iff_eq.mp hf
  omega

/-! ### The micro-operations on a configured port -/

theorem exec_rbIsEmpty {s : State} {p : Byte} (hp : p.toNat < s.nports) :
    exec (.rbIsEmpty p) s = .next ((rbIsEmptyOp p.toNat s).toLat p.toNat .bool) :=
  onPort_of_lt hp _

theorem exec_rbIsFull {s : State} {p : Byte} (hp : p.toNat < s.nports) :
    exec (.rbIsFull p) s = .next ((rbIsFullOp p.toNat s).toLat p.toNat .bool) :=
  onPort_of_lt hp _

theorem exec_rbEnq {s : State} {p : Byte} (hp : p.toNat < s.nports) (b : Byte) :
    exec (.rbEnq p b) s = .next ((rbEnqOp p.toNat b s).toLat p.toNat fun ok => if ok then .ok else .overflow) :=
  onPort_of_lt hp _

theorem exec_rbDeq {s : State} {p : Byte} (hp : p.toNat < s.nports) :
    exec (.rbDeq p) s = .next ((rbDeqOp p.toNat s).toLat p.toNat fun d => d.elim .underflow .deq) := by
  refine (onPort_of_lt hp _).trans ?_
  congr 2
  funext d
  cases d <;> rfl

/-- Settles O11: the two tests by whether the port has a ring. -/
theorem ringInitAndTests : Obligations.RingInitAndTests := by
  unfold Obligations.RingInitAndTests
  refine ⟨fun s p hp => onPort_of_lt hp _, fun s p r hp hr => ⟨?_, ?_, fun hc => r.not_empty_and_full hc⟩,
    fun s p hp hr => ⟨?_, ?_⟩⟩
  · rw [exec_rbIsEmpty hp, rbIsEmptyOp_some hr]
    rfl
  · rw [exec_rbIsFull hp, rbIsFullOp_some hr]
    rfl
  · rw [exec_rbIsEmpty hp, rbIsEmptyOp_none hr]
    rfl
  · rw [exec_rbIsFull hp, rbIsFullOp_none hr]
    rfl

/-- Settles O12: each operation by whether the port has a ring, and by the ring's count. -/
theorem ringEnqueueDequeue : Obligations.RingEnqueueDequeue := by
  unfold Obligations.RingEnqueueDequeue
  refine ⟨fun s p b hp hr => ⟨?_, ?_⟩,
    fun s p b r hp hr => ⟨fun hn => ?_, fun hf => ?_, fun hn x hx => ?_, fun he => ?_⟩⟩
  · rw [exec_rbEnq hp, rbEnqOp_none hr]
    rfl
  · rw [exec_rbDeq hp, rbDeqOp_none hr]
    rfl
  · rw [exec_rbEnq hp, rbEnqOp_some hr (Ring.enq_of_room hn b), ← setRb_eq]
    rfl
  · rw [exec_rbEnq hp, rbEnqOp_overflow hr (Ring.enq_of_full hf b)]
    rfl
  · rw [exec_rbDeq hp, rbDeqOp_ok hr (Ring.deq_of_slot hn hx _), ← setRb_eq]
    rfl
  · rw [exec_rbDeq hp, rbDeqOp_underflow hr (Ring.deq_of_empty he _)]
    rfl

end Sys2Proof.Machine
end

section
/-! PROOFS. The register bus (R170 to R181): where a control action is written, the value it writes and what it does to each
field of the interrupt-enable image, and the bus micro-operations on a configured port. -/

namespace Sys2Proof

/-! ### Control actions (R178) -/

theorem Action.addr_eq (c : PortCfg) (k : Action) :
    k.addr c = if k = .mie then c.ctrlPrimary else c.ctrlOwn := by
  cases k <;> rfl

theorem Action.usesArg_iff (k : Action) : k.usesArg = true ↔ k = .brgLo ∨ k = .brgHi := by
  cases k <;> decide

theorem Params.chipVal_of_usesArg (par : Params) {k : Action} (h : k.usesArg = true) (a : Byte) :
    par.chipVal k a = ((par.chip.get k.idx).diff.lookup a).getD a :=
  if_pos h

theorem Params.chipVal_of_not_usesArg (par : Params) {k : Action} (h : ¬k.usesArg = true) (a : Byte) :
    par.chipVal k a = (par.chip.get k.idx).val :=
  if_neg h

namespace Machine

/-! ### The interrupt-enable image (R179) -/

/-- What an action does to a line of the image that all lines share: a channel reset makes it ⊥, the two actions on all
interrupts set it. -/
def lineAfter (k : Action) (old : Option Bool) : Option Bool :=
  if k = .chresetA ∨ k = .chresetB then none
  else if k = .intDisAll then some false else if k = .intEnAll then some true else old

/-- The effect of an action on the image, field by field. -/
theorem IeImage.apply_eq (k : Action) (ie : IeImage) :
    ie.apply k =
      { rx := lineAfter k ie.rx
        tx := if k = .txintDis then some false else if k = .txintEn then some true else lineAfter k ie.tx
        ext := lineAfter k ie.ext
        mie := if k = .chresetA ∨ k = .chresetB then none else if k = .mie then some true else ie.mie
        extSrc := if k = .chresetA ∨ k = .chresetB then none
          else if k = .extCtsOnly then some .ctsOnly else ie.extSrc } := by
  cases k <;> rfl

/-! ### The micro-operations on a configured port -/

theorem exec_getReg {s : State} {p : Byte} (hp : p.toNat < s.nports) {tag : RegTag} (ht : tag.readable = true) :
    exec (.getReg p tag) s = .next (setLat p.toNat (.byte (nextByte s))
      (busRdReg (tag.addr (s.port p.toNat).cfg) (s.par.tagSel tag) s)) :=
  (if_pos ht).trans (onPort_of_lt hp _)

theorem exec_getData {s : State} {p : Byte} (hp : p.toNat < s.nports) :
    exec (.getData p) s = .next (setLat p.toNat (.byte (nextByte s)) (readData p.toNat s)) :=
  onPort_of_lt hp _

theorem exec_setReg {s : State} {p : Byte} (hp : p.toNat < s.nports) (v : Byte) (tag : RegTag) :
    exec (.setReg p v tag) s
      = .next (busWrReg (tag.addr (s.port p.toNat).cfg) (s.par.tagSel tag) v tag s) :=
  onPort_of_lt hp _

theorem exec_setData {s : State} {p : Byte} (hp : p.toNat < s.nports) (v : Byte) :
    exec (.setData p v) s = .next (writeData p.toNat v s) :=
  onPort_of_lt hp _

theorem exec_ctl {s : State} {p : Byte} (hp : p.toNat < s.nports) (a : Byte) (k : Action) :
    exec (.ctl p a (.act k)) s = .next (ctlOp p.toNat k a s) :=
  onPort_of_lt hp _

theorem exec_mcw {s : State} {p : Byte} (hp : p.toNat < s.nports) (v : Byte) :
    exec (.mcw p v) s = .next (mcwOp p.toNat v s) :=
  onPort_of_lt hp _

/-- Settles O14: each read draws the answer, appends its event and leaves the answer in the latch. -/
theorem busReads : Obligations.BusReads := by
  unfold Obligations.BusReads
  intro s p hp
  exact ⟨exec_getReg hp rfl, exec_getReg hp rfl, exec_getData hp⟩

/-- Settles O15: each write appends its event; an action's is at the address R178 gives it. -/
theorem busWrites : Obligations.BusWrites := by
  unfold Obligations.BusWrites
  intro s p v hp
  refine ⟨exec_setData hp v, exec_setReg hp v _, exec_setReg hp v _, exec_setReg hp v _, fun k => ?_⟩
  rw [exec_setReg hp, RegTag.addr, Action.addr_eq]
  rfl

/-- Settles O16: the write and the image by `ctlOp_eq`, the value by whether the action is a divisor half. -/
theorem controlActions : Obligations.ControlActions := by
  unfold Obligations.ControlActions
  intro s p a k hp
  refine ⟨?_, fun hlo hhi => ?_, fun hk => ⟨fun hd => ?_, fun v hd => ?_⟩⟩
  · rw [exec_ctl hp, ctlOp_eq, ctlEvent, IeImage.apply_eq, Action.addr_eq]
    simp only [lineAfter, decide_eq_true_eq]
    rfl
  · have hn : ¬k.usesArg = true := fun h => (k.usesArg_iff.mp h).elim hlo hhi
    rw [s.par.chipVal_of_not_usesArg hn, s.par.chipVal_of_not_usesArg hn]
  · rw [s.par.chipVal_of_usesArg (k.usesArg_iff.mpr hk), hd, Option.getD_none]
  · rw [s.par.chipVal_of_usesArg (k.usesArg_iff.mpr hk), hd, Option.getD_some]

/-- Settles O17: the shadow byte and the register write by `mcwOp_eq`. -/
theorem modemControlWrite : Obligations.ModemControlWrite := by
  unfold Obligations.ModemControlWrite
  intro s p v hp
  rw [exec_mcw hp, mcwOp_eq]
  rfl

end Machine

end Sys2Proof
end

section
/-! PROOFS. A port's life state (R37, R209): only ALLOC and the statement `initReady` write it, and the invariant says where a
run of a launch has them. -/

namespace Sys2Proof.Machine

open Sys2Proof

/-! ### The shared operations keep every port's life -/

/-- A record put in a port's place with that port's life keeps every port's life. -/
theorem life_setPort {s : State} {p : Nat} {q : Port} (hq : q.life = (s.port p).life) (r : Nat) :
    ((s.setPort p q).port r).life = (s.port r).life := by
  rw [port_setPort]
  split
  next h => rw [hq, h.1]
  next => rfl

theorem life_upd {s : State} {p : Nat} {q : Port} (hq : q.life = (s.port p).life) (es : List Event) (r : Nat) :
    ((s.upd p q es).port r).life = (s.port r).life :=
  life_setPort hq r

section
variable (s : State) (p r : Nat)

@[simp] theorem life_ctlOp (k : Action) (a : Byte) : ((ctlOp p k a s).port r).life = (s.port r).life :=
  life_setPort (by rfl) r
@[simp] theorem life_mcwOp (v : Byte) : ((mcwOp p v s).port r).life = (s.port r).life := life_setPort (by rfl) r
@[simp] theorem life_setTxActive (b : Bool) : ((setTxActive p b s).port r).life = (s.port r).life := life_setPort (by rfl) r
@[simp] theorem life_setRb (b : Ring) : ((setRb p b s).port r).life = (s.port r).life := life_setPort (by rfl) r
@[simp] theorem life_setTpc (t : TaskPc) : ((setTpc p t s).port r).life = (s.port r).life := life_setPort (by rfl) r
@[simp] theorem life_upOp (c : Byte) : ((upOp p c s).port r).life = (s.port r).life := life_setPort (by rfl) r
@[simp] theorem life_returnOp (op : Byte) (x : Res) : ((returnOp p op x s).port r).life = (s.port r).life :=
  life_setPort (by rfl) r
@[simp] theorem life_readStatus : ((readStatus p s).port r).life = (s.port r).life := rfl
@[simp] theorem life_readData : ((readData p s).port r).life = (s.port r).life := rfl
@[simp] theorem life_writeData (v : Byte) : ((writeData p v s).port r).life = (s.port r).life := rfl
@[simp] theorem life_busRdReg (a : Addr) (l : Sel) : ((busRdReg a l s).port r).life = (s.port r).life := rfl

@[simp] theorem life_setLat (x : MicroResult) : ((setLat p x s).port r).life = (s.port r).life := by
  unfold setLat
  split
  · rfl
  · exact life_setPort (by rfl) r

@[simp] theorem life_pushStmts (i : Instr) (l : List Stmt) : ((pushStmts i p l s).port r).life = (s.port r).life := by
  unfold pushStmts
  split
  · rfl
  · split <;> exact life_setTpc _ _ _ _

@[simp] theorem life_beginCmd (i : Instr) (chk : Option FaultCode) (body : List Stmt) :
    ((beginCmd i p chk body s).port r).life = (s.port r).life := by
  cases chk with
  | some c => rfl
  | none => exact life_setTpc _ _ _ _

end

/-! ### Pseudocode that may raise -/

/-- A piece of pseudocode run from `s` leaves every port's life as it was. -/
def Flow.KeepsLife {α : Type} (s : State) (f : Flow α) : Prop := ∀ r, (f.st.port r).life = (s.port r).life

theorem Flow.KeepsLife.andThen {α β : Type} {s : State} {f : Flow α} {k : α → State → Flow β} (hf : f.KeepsLife s)
    (hk : ∀ a t, (k a t).KeepsLife t) : (f.andThen k).KeepsLife s := by
  intro r
  unfold Flow.andThen
  split
  · exact (hk _ _ r).trans (hf r)
  · exact hf r

theorem Flow.KeepsLife.toLat {α : Type} {s : State} {f : Flow α} (hf : f.KeepsLife s) (p : Nat) (g : α → MicroResult)
    (r : Nat) : ((f.toLat p g).port r).life = (s.port r).life := by
  unfold Flow.toLat
  split
  · exact (life_setLat _ _ _ _).trans (hf r)
  · exact hf r

theorem lineOp_keepsLife (p : Nat) (op : Byte) (f : Byte → Byte) (s : State) : (lineOp p op f s).KeepsLife s := by
  intro r
  unfold lineOp
  split <;> simp

theorem rbIsEmptyOp_keepsLife (p : Nat) (s : State) : (rbIsEmptyOp p s).KeepsLife s := by
  intro r
  unfold rbIsEmptyOp
  split <;> simp

theorem rbIsFullOp_keepsLife (p : Nat) (s : State) : (rbIsFullOp p s).KeepsLife s := by
  intro r
  unfold rbIsFullOp
  split <;> simp

theorem rbEnqOp_keepsLife (p : Nat) (b : Byte) (s : State) : (rbEnqOp p b s).KeepsLife s := by
  intro r
  unfold rbEnqOp
  split
  · simp
  · split <;> simp

theorem rbDeqOp_keepsLife (p : Nat) (s : State) : (rbDeqOp p s).KeepsLife s := by
  intro r
  unfold rbDeqOp
  split
  · simp
  · split <;> simp

theorem negRtsCond_keepsLife (p : Nat) (s : State) : (negRtsCond p s).KeepsLife s := by
  unfold negRtsCond
  split
  · exact fun _ => rfl
  · exact lineOp_keepsLife _ _ _ _

theorem txPhaseOp_keepsLife (p : Nat) (s : State) : (txPhaseOp p s).KeepsLife s := by
  intro r
  unfold txPhaseOp
  dsimp only
  split
  · simp
  · split
    · simp
    · refine (Flow.KeepsLife.andThen (rbIsEmptyOp_keepsLife p _) (fun e t r => ?_) r).trans (life_readStatus s p r)
      split
      · refine (Flow.KeepsLife.andThen (negRtsCond_keepsLife p _) (fun _ u r => ?_) r).trans (life_setTxActive t p r _)
        simp
      · refine Flow.KeepsLife.andThen (rbDeqOp_keepsLife p _) (fun d u r => ?_) r
        split <;> simp

theorem kickOp_keepsLife (p : Nat) (s : State) : (kickOp p s).KeepsLife s := by
  unfold kickOp
  split
  · exact fun _ => rfl
  · exact fun _ => rfl
  · refine Flow.KeepsLife.andThen (lineOp_keepsLife _ _ _ _) fun _ t r => ?_
    refine (Flow.KeepsLife.andThen (txPhaseOp_keepsLife _ _) (fun _ u r => ?_) r).trans (life_setTxActive t p r _)
    simp

theorem life_rxTurn (p : Byte) (s : State) (r : Nat) : ((rxTurn p s).port r).life = (s.port r).life := by
  unfold rxTurn
  dsimp only
  split <;> simp

/-! ### The instructions -/

theorem life_of_onPort {p : Byte} {s f t : State} (h : onPort p s f = .next t) {r : Nat}
    (hf : (f.port r).life = (s.port r).life) : (t.port r).life = (s.port r).life := by
  obtain ⟨-, rfl⟩ := onPort_next h
  exact hf

theorem life_of_onHost {p op : Byte} {s f t : State} (h : onHost p op s f = .next t) {r : Nat}
    (hf : (f.port r).life = (s.port r).life) : (t.port r).life = (s.port r).life := by
  obtain ⟨-, rfl⟩ | ⟨-, rfl⟩ := onHost_next h
  · exact hf
  · rfl

/-- Every instruction but ALLOC keeps every port's life. -/
theorem life_exec {i : Instr} {s t : State} (h : exec i s = .next t) (ha : ∀ q, i ≠ .alloc q) (r : Nat) :
    (t.port r).life = (s.port r).life := by
  cases i with
  | alloc q => exact absurd rfl (ha q)
  | probe p => exact life_of_onHost h (life_returnOp _ _ _ _ _)
  | initInt | initPoll | openPort | closePort | flush | writeInt | writePoll | writePolled | readPolled | setAttr
  | fcAssert | fcNegate => exact life_of_onHost h (life_beginCmd _ _ _ _ _ _)
  | rbInit p => exact life_of_onPort h (life_setRb _ _ _ _)
  | rbIsEmpty p => exact life_of_onPort h ((rbIsEmptyOp_keepsLife _ _).toLat _ _ r)
  | rbIsFull p => exact life_of_onPort h ((rbIsFullOp_keepsLife _ _).toLat _ _ r)
  | rbEnq p b => exact life_of_onPort h ((rbEnqOp_keepsLife _ _ _).toLat _ _ r)
  | rbDeq p => exact life_of_onPort h ((rbDeqOp_keepsLife _ _).toLat _ _ r)
  | kick p => exact life_of_onPort h ((kickOp_keepsLife _ _).toLat _ _ r)
  | assertRts | negateRts | assertDtr | negateDtr => exact life_of_onPort h (lineOp_keepsLife _ _ _ _ r)
  | txPhase p => exact life_of_onPort h (txPhaseOp_keepsLife _ _ r)
  | mcw p v => exact life_of_onPort h (life_mcwOp _ _ _ _)
  | channelReset | portInitializer => exact life_of_onPort h (life_pushStmts _ _ _ _ _)
  | process p bits => exact life_of_onPort h (life_pushStmts { s with pbits := _ } _ _ _ _)
  | rxPhase p =>
    refine life_of_onPort h ?_
    split
    · exact life_rxTurn _ _ _
    · rfl
  | extPhase p =>
    refine life_of_onPort h ?_
    split <;> simp
  | eoi p => exact life_of_onPort h (life_ctlOp _ _ _ _ _)
  | isrEntry p =>
    simp only [exec, execIsrEntry] at h
    split at h <;> obtain rfl := Host.Outcome.next.inj h
    · split <;> rfl
    · rfl
  | getReg p tag =>
    simp only [exec, execGetReg] at h
    split at h
    · exact life_of_onPort h (life_setLat _ _ _ _)
    · cases h
  | getData p => exact life_of_onPort h (life_setLat _ _ _ _)
  | ctl p a tag =>
    cases tag with
    | act k => exact life_of_onPort h (life_ctlOp _ _ _ _ _)
    | selStatus | selPending | selMc => cases h
  | up p c => exact life_of_onPort h (life_upOp _ _ _ _)
  | registerVector | wait | setReg | setData => exact life_of_onPort h rfl

/-- ALLOC leaves its own port INITIALIZING or FAILED and every other port's life as it was (R200). -/
theorem life_exec_alloc {q : Byte} {s t : State} (h : exec (.alloc q) s = .next t) (r : Nat) :
    (t.port r).life = (s.port r).life
    ∨ r = q.toNat ∧ ((t.port r).life = .initializing ∨ (t.port r).life = .failed) := by
  obtain ⟨hq, rfl⟩ := onPort_next h
  by_cases hr : q.toNat = r
  · subst hr
    refine .inr ⟨rfl, ?_⟩
    rw [allocOp, life_setLat, setLife, port_setPort_same _ _ _ (by simpa using hq)]
    cases nextAlloc s
    · exact .inr rfl
    · exact .inl rfl
  · left
    rw [allocOp, life_setLat, setLife, port_setPort_ne _ _ hr]
    rfl

/-! ### The agents' statements -/

/-- `initReady` leaves its port READY and every other port's life as it was (R206, R207). -/
theorem life_initReady {p : Nat} {cmd : Instr} {rest : List Stmt} {s t : State}
    (h : taskStmt p cmd .initReady rest s = .next t) (r : Nat) :
    (t.port r).life = (s.port r).life ∨ r = p ∧ (t.port r).life = .ready := by
  simp only [taskStmt] at h
  split at h
  next u hu =>
    obtain rfl := Host.Outcome.next.inj h
    have hu' : (u.port r).life = (s.port r).life := life_exec hu (by simp) r
    rw [setLife, port_setPort]
    split
    next hr => exact .inr ⟨hr.1.symm, rfl⟩
    next => exact .inl ((life_setTxActive _ _ _ _).trans hu')
  next => cases h
  next => cases h

/-- Every other statement of a TASK, ALLOC apart, keeps every port's life. -/
theorem life_taskStmt {p : Nat} {cmd : Instr} {st : Stmt} {rest : List Stmt} {s t : State}
    (h : taskStmt p cmd st rest s = .next t) (hcmd : ∀ q, cmd ≠ .alloc q) (hop : ∀ q, st ≠ .op (.alloc q))
    (hst : st ≠ .initReady) (r : Nat) : (t.port r).life = (s.port r).life := by
  cases st with
  | initReady => exact absurd rfl hst
  | start => exact life_exec h hcmd r
  | op i => exact life_exec h (fun q e => hop q (congrArg _ e)) r
  | ret x =>
    obtain rfl := Host.Outcome.next.inj h
    exact life_returnOp _ _ _ _ _
  | allocTest | flushTest | fullTest | baud | writeByte | kickTest | pollByte | retByte =>
    simp only [taskStmt] at h
    split at h <;> cases h <;> simp
  | putTest | readTest =>
    simp only [taskStmt] at h
    split at h
    · split at h <;> cases h <;> simp
    · cases h
  | enqueue k =>
    simp only [taskStmt] at h
    split at h
    next u hu =>
      rw [← life_exec hu (by simp) r]
      split_ifs at h <;> cases h <;> simp
    next => cases h
    next => cases h
  | isrNext | serviceTest => cases h

theorem serviceTest_ports (a : Nat) (c : IsrPc) (rest : List Stmt) (v : Byte) (s : State) :
    (serviceTest a c rest v s).ports = s.ports := by
  simp only [serviceTest, apply_ite State.ports, ite_self]

/-- A statement of an activation, ALLOC apart, keeps every port's life. -/
theorem life_isrStmt {c : IsrPc} {st : Stmt} {rest : List Stmt} {s t : State} (h : isrStmt c st rest s = .next t)
    (hop : ∀ q, st ≠ .op (.alloc q)) (r : Nat) : (t.port r).life = (s.port r).life := by
  cases st with
  | op i => exact life_exec (s := { s with ipc := _ }) h (fun q e => hop q (congrArg _ e)) r
  | isrNext =>
    simp only [isrStmt] at h
    split at h <;> obtain rfl := Host.Outcome.next.inj h <;> rfl
  | serviceTest a =>
    simp only [isrStmt] at h
    split at h
    · obtain rfl := Host.Outcome.next.inj h
      rw [port_congr (serviceTest_ports _ _ _ _ s)]
    · cases h
  | start | allocTest | baud | initReady | ret | flushTest | writeByte | fullTest | kickTest | enqueue | pollByte | putTest
  | readTest | retByte => cases h

/-- The micro-PC a raising step puts back is no life state (R300). -/
theorem life_holdPc {p : Nat} {s t : State} {x : Host.Outcome State Fault Refusal} (h : holdPc p s x = .next t) :
    ∃ u, x = .next u ∧ ∀ r, (t.port r).life = (u.port r).life := by
  obtain ⟨u, hu, ⟨-, rfl⟩ | ⟨-, rfl⟩⟩ := holdPc_next h
  · exact ⟨_, hu, fun _ => rfl⟩
  · exact ⟨_, hu, life_upd (by rfl) []⟩

theorem life_holdIpc {s t : State} {x : Host.Outcome State Fault Refusal} (h : holdIpc s x = .next t) :
    ∃ u, x = .next u ∧ ∀ r, (t.port r).life = (u.port r).life := by
  obtain ⟨u, hu, ⟨-, rfl⟩ | ⟨-, rfl⟩⟩ := holdIpc_next h <;> exact ⟨_, hu, fun _ => rfl⟩

/-! ### Where the invariant has ALLOC and `initReady` -/

/-- ALLOC stands at UNINIT, on the TASK's own port. -/
theorem posOk_alloc {p : Nat} {l : Life} {m : Bool} {q : Byte} {rest : List Stmt}
    (h : posOk p l m (.op (.alloc q) :: rest) = true) : q.toNat = p ∧ l = .uninit := by
  unfold posOk at h
  split at h
  case h_1 heq =>
    cases heq
    simp only [Bool.and_eq_true, beq_iff_eq] at h
    obtain ⟨hq, -⟩ := h
    exact hq
  case h_9 heq =>
    obtain ⟨hi, -⟩ := List.cons.inj heq
    cases hi
    simp [aloneAt] at h
  case h_16 => cases h
  all_goals
    rename_i heq
    cases heq

/-- `initReady` stands at INITIALIZING. -/
theorem posOk_initReady {p : Nat} {l : Life} {m : Bool} {rest : List Stmt}
    (h : posOk p l m (.initReady :: rest) = true) : l = .initializing := by
  simp only [posOk, Bool.and_eq_true, beq_iff_eq] at h
  obtain ⟨⟨hl, -⟩, -⟩ := h
  exact hl

theorem taskOk_alloc {cap p : Nat} {q : Port} {cmd : Instr} {a : Byte} {rest : List Stmt} (h : taskOk cap p q = true)
    (ht : q.tpc = .inCmd cmd (.op (.alloc a) :: rest)) : a.toNat = p ∧ q.life = .uninit := by
  simp only [taskOk, ht, Bool.and_eq_true] at h
  obtain ⟨-, hpos⟩ := h
  exact posOk_alloc hpos

theorem taskOk_initReady {cap p : Nat} {q : Port} {cmd : Instr} {rest : List Stmt} (h : taskOk cap p q = true)
    (ht : q.tpc = .inCmd cmd (.initReady :: rest)) : q.life = .initializing := by
  simp only [taskOk, ht, Bool.and_eq_true] at h
  obtain ⟨-, hpos⟩ := h
  exact posOk_initReady hpos

/-- ALLOC is no statement of an activation. -/
theorem not_stageOk_alloc (s : State) (q : Byte) (rest : List Stmt) : stageOk s (.op (.alloc q) :: rest) = false := by
  simp [stageOk]

theorem isrOk_not_alloc {s : State} {c : IsrPc} {st : Stmt} {rest : List Stmt} (h : isrOk s = true) (hc : s.cpu = .isr)
    (hi : s.ipc = some c) (hs : c.stage = st :: rest) (q : Byte) : st ≠ .op (.alloc q) := by
  rintro rfl
  simp [isrOk, hc, hi, hs, not_stageOk_alloc] at h

/-! ### The steps -/

/-- A life state stays, or moves forward (R37). -/
def Life.Moves (l l' : Life) : Prop :=
  l' = l ∨ (l = .uninit ∧ (l' = .initializing ∨ l' = .failed)) ∨ (l = .initializing ∧ l' = .ready)

/-- A statement of a TASK the invariant allows moves no port's life back: ALLOC stands at UNINIT, `initReady` at
INITIALIZING. -/
theorem life_moves_taskStmt {cap p : Nat} {cmd : Instr} {st : Stmt} {rest : List Stmt} {s t u : State}
    (hok : taskOk cap p (s.port p) = true) (ht : (s.port p).tpc = .inCmd cmd (st :: rest))
    (hu : ∀ r, (u.port r).life = (s.port r).life) (h : taskStmt p cmd st rest u = .next t) (r : Nat) :
    (s.port r).life.Moves (t.port r).life := by
  obtain ⟨-, hhost, -⟩ := taskOk_inCmd hok ht
  by_cases ha : ∃ q, st = .op (.alloc q)
  · obtain ⟨q, rfl⟩ := ha
    obtain ⟨hq, hl⟩ := taskOk_alloc hok ht
    obtain hsame | ⟨hr, hnew⟩ := life_exec_alloc h r
    · exact .inl (hsame.trans (hu r))
    · subst hr
      exact .inr (.inl ⟨hq ▸ hl, hnew⟩)
  · by_cases hi : st = .initReady
    · subst hi
      obtain hsame | ⟨rfl, hnew⟩ := life_initReady h r
      · exact .inl (hsame.trans (hu r))
      · exact .inr (.inr ⟨taskOk_initReady hok ht, hnew⟩)
    · have hcmd (q : Byte) : cmd ≠ .alloc q := by
        rintro rfl
        exact absurd hhost (show ¬(0x90 : Byte).toNat ≤ 0x0D by decide)
      exact .inl ((life_taskStmt h hcmd (fun q e => ha ⟨q, e⟩) hi r).trans (hu r))

/-- Settles O56, by what the step is: only a TASK at ALLOC or at `initReady` writes a life state. -/
theorem lifeNeverMovesBack : Obligations.LifeNeverMovesBack := by
  unfold Obligations.LifeNeverMovesBack
  intro s t r hinv h
  obtain ⟨-, ⟨-, rfl⟩ | ⟨-, -, ht⟩ | ⟨p, c, -, -, -, -, -, hi⟩ | ⟨p, cmd, -, -, -, -, rfl⟩
    | ⟨p, cmd, st, rest, -, -, hp, htpc, hx⟩ | ⟨v, -, -, -, rfl⟩ | ⟨c, st, rest, -, hc, hipc, hst, hx⟩⟩ := step_cases h
  · exact .inl rfl
  · rw [ht]
    exact .inl rfl
  · obtain ⟨f, op, rfl⟩ | ⟨i, -, -, -, -, rfl⟩ := issue_next hi
    · exact .inl rfl
    · exact .inl (life_upd (s := s.taskStart p) (by rfl) _ r)
  · exact .inl (life_upd (s := s.taskStart p) (by rfl) _ r)
  · obtain ⟨u, hu, hkeep⟩ := life_holdPc hx
    show (s.port r).life.Moves (t.port r).life
    rw [hkeep r]
    exact life_moves_taskStmt (hinv.tasks p hp) htpc (life_upd (s := s.taskStart p) (by rfl) _) hu r
  · exact .inl rfl
  · obtain ⟨u, hu, hkeep⟩ := life_holdIpc hx
    exact .inl ((hkeep r).trans (life_isrStmt hu (isrOk_not_alloc hinv.isr hc hipc hst) r))

end Sys2Proof.Machine
end

section
/-! PROOFS. Port initialization one operation at a time (R191 to R207): the allocation draw, the two initializers' entry, the
divisor, the vector set, and the checks of INIT_INT and INIT_POLL. -/

namespace Sys2Proof

/-! ### The divisor (R196) -/

theorem baudDivDefault_eq (c b : Nat) :
    baudDivDefault c b =
      if b = 0 ∨ c / (32 * b) < 2 ∨ 65537 < c / (32 * b) then none else some (BitVec.ofNat 16 (c / (32 * b) - 2)) := by
  have htop : 65535 < c / (32 * b) - 2 ↔ 65537 < c / (32 * b) := by omega
  simp only [baudDivDefault, htop, ite_or]

theorem Params.baudDiv_of_lookup_none {par : Params} {c b : Nat} (h : par.baudOver.lookup (c, b) = none) :
    par.baudDiv c b = baudDivDefault c b := by
  rw [Params.baudDiv, h, Option.getD_none]

theorem Params.baudDiv_of_lookup_some {par : Params} {c b : Nat} {d : Option (BitVec 16)}
    (h : par.baudOver.lookup (c, b) = some d) : par.baudDiv c b = d := by
  rw [Params.baudDiv, h, Option.getD_some]

namespace Machine

/-! ### The micro-operations on a configured port -/

theorem exec_alloc {s : State} {p : Byte} (hp : p.toNat < s.nports) : exec (.alloc p) s = .next (allocOp p.toNat s) :=
  onPort_of_lt hp _

/-- Settles O19: the meaning of ALLOC on a configured port. -/
theorem allocationDraw : Obligations.AllocationDraw := by
  unfold Obligations.AllocationDraw
  intro s p hp
  exact exec_alloc hp

theorem exec_channelReset {s : State} {p : Byte} (hp : p.toNat < s.nports) :
    exec (.channelReset p) s
      = .next (pushStmts (.channelReset p) p.toNat (channelResetBody (s.port p.toNat).cfg p) s) :=
  onPort_of_lt hp _

theorem exec_portInitializer {s : State} {p : Byte} (hp : p.toNat < s.nports) :
    exec (.portInitializer p) s = .next (pushStmts (.portInitializer p) p.toNat (initializerBody s.par p) s) :=
  onPort_of_lt hp _

/-- The action that resets the port's channel, by R32's equation of the two control addresses (R191). -/
theorem resetAction_eq (c : PortCfg) :
    (if c.isChannelA then Action.chresetA else .chresetB)
      = if c.ctrlPrimary = c.ctrlOwn then .chresetA else .chresetB := by
  simp

/-- Settles O20: in task context the statements are put before the command's own. -/
theorem initializersEnter : Obligations.InitializersEnter := by
  unfold Obligations.InitializersEnter
  intro s p cmd rest hp hc ht
  constructor
  · rw [exec_channelReset hp, pushStmts_task hc ht, ← setPort_eq_upd, channelResetBody, resetAction_eq]
    rfl
  · rw [exec_portInitializer hp, pushStmts_task hc ht, ← setPort_eq_upd]
    rfl

theorem exec_registerVector {s : State} {p : Byte} (hp : p.toNat < s.nports) :
    exec (.registerVector p) s = .next (registerVectorOp p.toNat s) :=
  onPort_of_lt hp _

theorem registerVectorOp_of_mem {s : State} {p : Nat} (h : (s.port p).cfg.vector ∈ s.vreg) :
    registerVectorOp p s = { s with trace := s.trace ++ [.vreg (s.port p).cfg.vector] } := by
  simp only [registerVectorOp, if_pos h]
  rfl

theorem registerVectorOp_of_not_mem {s : State} {p : Nat} (h : (s.port p).cfg.vector ∉ s.vreg) :
    registerVectorOp p s
      = { s with vreg := s.vreg ++ [(s.port p).cfg.vector], trace := s.trace ++ [.vreg (s.port p).cfg.vector] } := by
  simp only [registerVectorOp, if_neg h]
  rfl

/-- Settles O23, by whether the vector is registered already. -/
theorem vectorRegistration : Obligations.VectorRegistration := by
  unfold Obligations.VectorRegistration
  intro s p hp
  exact ⟨fun h => (exec_registerVector hp).trans (congrArg _ (registerVectorOp_of_mem h)),
    fun h => (exec_registerVector hp).trans (congrArg _ (registerVectorOp_of_not_mem h))⟩

/-! ### Step 6 with an undefined divisor (R306) -/

theorem taskStmt_baud_none {p : Nat} {cmd : Instr} {rest : List Stmt} {s : State}
    (hd : s.par.baudDiv (s.port p).cfg.clockHz (s.port p).cfg.baud = none) :
    taskStmt p cmd .baud rest s = .next (raise .baud p cmd.op s) := by
  simp only [taskStmt, hd]

/-- A statement of a TASK that raises and does nothing else: the position is put back, the event and the record stay (R300). -/
theorem step_of_raise {s : State} {p : Nat} {cmd : Instr} {st : Stmt} {rest : List Stmt} {c : FaultCode} {op : Byte}
    (hf : s.fault = none) (hc : s.cpu = .task) (hn : nextChoice s = .task p) (hp : p < s.nports)
    (ht : (s.port p).tpc = .inCmd cmd (st :: rest))
    (hx : taskStmt p cmd st rest ((s.taskStart p).upd p { s.port p with tpc := .inCmd cmd rest } [])
      = .next (raise c p op ((s.taskStart p).upd p { s.port p with tpc := .inCmd cmd rest } []))) :
    step s = .next (raise c p op (s.taskStart p)) := by
  have hp' : p < (s.taskStart p).nports := by simpa using hp
  have hback (u : Port) : setTpc p u.tpc ((s.taskStart p).upd p { u with tpc := .inCmd cmd rest } [])
      = (s.taskStart p).upd p u [] := by
    rw [setTpc_eq, upd_port_same hp', upd_upd, List.append_nil]
  rw [step_of_task hf hc hn, stepTask_inCmd hp ht, hx]
  show Host.Outcome.next (raise c p op
    (setTpc p (s.port p).tpc ((s.taskStart p).upd p { s.port p with tpc := .inCmd cmd rest } []))) = _
  rw [hback, show s.port p = (s.taskStart p).port p from rfl, upd_self hp']

/-- Settles O22: the step by `step_of_raise`, the divisor by what the launch says of it and by the formula's range. -/
theorem undefinedBaudFaults : Obligations.UndefinedBaudFaults := by
  unfold Obligations.UndefinedBaudFaults
  refine ⟨fun s p cmd rest hp hf hc hn ht hd => ?_, baudDivDefault_eq,
    fun par c b => ⟨Params.baudDiv_of_lookup_none, fun d => Params.baudDiv_of_lookup_some⟩⟩
  refine step_of_raise hf hc hn hp ht (taskStmt_baud_none ?_)
  rw [upd_port_same (by simpa using hp)]
  exact hd

/-! ### The checks of INIT_INT and INIT_POLL (R205) -/

theorem initFault_failed {q : Port} (h : q.life = .failed) (m : Mode) : initFault m q = some .portFailed := by
  simp only [initFault, h]

theorem initFault_already {q : Port} (h : q.life = .initializing ∨ q.life = .ready) (m : Mode) :
    initFault m q = some .alreadyInit := by
  obtain h | h := h <;> simp only [initFault, h]

theorem initFault_mode {q : Port} {m : Mode} (h : q.life = .uninit) (hm : q.cfg.mode ≠ m) :
    initFault m q = some .mode := by
  simp only [initFault, h, modeFault, if_neg hm]

theorem initFault_none {q : Port} {m : Mode} (h : q.life = .uninit) (hm : q.cfg.mode = m) : initFault m q = none := by
  simp only [initFault, h, modeFault, if_pos hm]

/-- The statements of INIT_INT as R206 lists them. -/
theorem initIntStmts_eq (c : PortCfg) (p : Byte) :
    [.op (.alloc p), .allocTest] ++ initIntBody c p
      = [.op (.alloc p), .allocTest, .op (.portInitializer p), .initReady]
      ++ (if c.strategy ≠ .rtscts then [.op (.negateRts p)] else [])
      ++ (if c.ctrlPrimary = c.ctrlOwn then [.op (.registerVector p)] else [])
      ++ [.op (.ctl p 0 (.act .intEnAll)), .op (.ctl p 0 (.act .mie)), .ret (.int 0)] := by
  simp only [initIntBody, ctlStmt, ite_not, PortCfg.isChannelA_iff]
  rfl

theorem exec_initInt {s : State} {p : Byte} (hp : p.toNat < s.nports) :
    exec (.initInt p) s = .next (beginCmd (.initInt p) p.toNat (initFault .interrupt (s.port p.toNat))
      ([.op (.alloc p), .allocTest] ++ initIntBody (s.port p.toNat).cfg p) s) :=
  onHost_of_lt hp _ _

theorem exec_initPoll {s : State} {p : Byte} (hp : p.toNat < s.nports) :
    exec (.initPoll p) s = .next (beginCmd (.initPoll p) p.toNat (initFault .polled (s.port p.toNat))
      [.op (.alloc p), .allocTest, .op (.portInitializer p), .initReady, .ret (.int 0)] s) :=
  onHost_of_lt hp _ _

/-- A command with R205's checks, by the life and the mode of its port. -/
theorem beginCmd_init (s : State) (p : Nat) (i : Instr) (m : Mode) (body : List Stmt) :
    let q := s.port p
    let faulted (f : FaultCode) : State :=
      { s with trace := s.trace ++ [.fault f p i.op], fault := some ⟨f, p, i.op⟩ }
    let begun : State := beginCmd i p (initFault m q) body s
    (q.life = .failed → begun = faulted .portFailed)
    ∧ (q.life = .initializing ∨ q.life = .ready → begun = faulted .alreadyInit)
    ∧ (q.life = .uninit → q.cfg.mode ≠ m → begun = faulted .mode)
    ∧ (q.life = .uninit → q.cfg.mode = m → begun = { s with ports := s.ports.set p { q with tpc := .inCmd i body } }) := by
  refine ⟨fun h => ?_, fun h => ?_, fun h hm => ?_, fun h hm => ?_⟩
  · rw [initFault_failed h]
    rfl
  · rw [initFault_already h]
    rfl
  · rw [initFault_mode h hm]
    rfl
  · rw [initFault_none h hm]
    rfl

/-- Settles O24: both commands begin with R205's checks, and INIT_INT's statements are those of `initIntStmts_eq`. -/
theorem initCommandsBegin : Obligations.InitCommandsBegin := by
  unfold Obligations.InitCommandsBegin
  rintro s p i m body hp (⟨rfl, rfl, rfl⟩ | ⟨rfl, rfl, rfl⟩)
  · simp only [exec_initInt hp, initIntStmts_eq, Host.Outcome.next.injEq]
    exact beginCmd_init s p.toNat _ _ _
  · simp only [exec_initPoll hp, Host.Outcome.next.injEq]
    exact beginCmd_init s p.toNat _ _ _

end Machine

end Sys2Proof
end

section
/-! PROOFS. Initialization run without interruption (R195, R206, R207, R309): the sixteen bus events of PORT_INITIALIZER as one
lemma, and around it the statements of INIT_INT and INIT_POLL from the decode step to the return. -/

namespace Sys2Proof.Machine

open Sys2Proof

/-! ### The environment's side along a run -/

/-- The environment's side after n scheduling choices are used up. -/
def Env.taken : Env → Nat → Env
  | e, 0 => e
  | e, n + 1 => e.afterChoice.taken n

/-- The next n scheduling choices are TASK(p). -/
def Env.Gives (e : Env) (p n : Nat) : Prop := List.replicate n (.task p) <+: e.sched

theorem Env.taken_eq (e : Env) (n : Nat) :
    e.taken n = { e with sched := e.sched.drop n, nSched := e.nSched + n } := by
  induction n generalizing e with
  | zero => rfl
  | succ n ih =>
    rw [Env.taken, ih, Env.afterChoice]
    simp [Nat.add_comm 1 n, Nat.add_assoc]

/-! The choices used up, counted once: with these rules the environment's side of a run is `e.taken n` under the answers
drawn. -/

theorem Env.afterChoice_eq (e : Env) : e.afterChoice = e.taken 1 := rfl

theorem Env.taken_taken (e : Env) (m n : Nat) : (e.taken m).taken n = e.taken (m + n) := by
  simp only [Env.taken_eq, List.drop_drop, Nat.add_assoc]

theorem Env.afterByte_taken (e : Env) (n : Nat) : e.afterByte.taken n = (e.taken n).afterByte := by
  simp only [Env.taken_eq, Env.afterByte]

theorem Env.afterAlloc_taken (e : Env) (n : Nat) : e.afterAlloc.taken n = (e.taken n).afterAlloc := by
  simp only [Env.taken_eq, Env.afterAlloc]

theorem Env.afterByte_afterAlloc (e : Env) : e.afterByte.afterAlloc = e.afterAlloc.afterByte := rfl

theorem Env.Gives.taken {e : Env} {p m n : Nat} (k : Nat) (h : e.Gives p n) (hm : m + k ≤ n) : (e.taken k).Gives p m := by
  obtain ⟨cs, h⟩ := h
  obtain ⟨j, rfl⟩ : ∃ j, n = k + (m + j) := ⟨n - (m + k), by omega⟩
  refine ⟨List.replicate j (.task p) ++ cs, ?_⟩
  rw [Env.taken_eq, ← h, List.replicate_add k, List.append_assoc, List.drop_left' List.length_replicate,
    List.replicate_add, List.append_assoc]

theorem Env.Gives.head {e : Env} {p n : Nat} (h : e.Gives p (n + 1)) : e.sched.head? = some (.task p) := by
  obtain ⟨cs, h⟩ := h
  rw [← h]
  rfl

theorem Env.Gives.next {e : Env} {p n : Nat} (h : e.Gives p (n + 1)) : e.afterChoice.Gives p n :=
  h.taken 1 (Nat.le_refl _)

theorem taken_of_chosen {s : State} {p n : Nat} {cs : List Choice} (h : chosen p n cs s) :
    s.env.taken n = envAfter n 0 cs s := by
  have h' : s.env.sched = List.replicate n (.task p) ++ cs := h
  rw [Env.taken_eq, h', List.drop_left' List.length_replicate]
  rfl

theorem afterByte_of_chosen {s : State} {p n : Nat} {cs : List Choice} (h : chosen p n cs s) :
    (s.env.taken n).afterByte = envAfter n 1 cs s := by
  rw [taken_of_chosen h, Env.afterByte]
  simp only [envAfter, List.drop_zero, List.drop_one, Nat.add_zero]

theorem gives_of_chosen {s : State} {p n : Nat} {cs : List Choice} (h : chosen p n cs s) : s.env.Gives p n :=
  ⟨cs, h.symm⟩

/-! ### PORT_INITIALIZER (R195) -/

/-- Control actions with their arguments, as statements. -/
def ctlStmts (p : Byte) (ks : List (Action × Byte)) : List Stmt := ks.map fun k => .op (.ctl p k.2 (.act k.1))

/-- The bus events of PORT_INITIALIZER in order, given the settle read's answer and the divisor (R191, R195). -/
def initializerEvents (par : Params) (c : PortCfg) (v : Byte) (d : BitVec 16) : List Event :=
  [.rdReg c.ctrlOwn par.selStatus v, ctlEvent par c (if c.ctrlPrimary = c.ctrlOwn then .chresetA else .chresetB) 0,
   ctlEvent par c .fmt 0, ctlEvent par c .rx8Dis 0, mcwEvent par c par.mcTx8, ctlEvent par c .miscClr 0,
   ctlEvent par c .clkBrg 0, ctlEvent par c .brgLo (d.extractLsb' 0 8), ctlEvent par c .brgHi (d.extractLsb' 8 8),
   ctlEvent par c .brgEn 0, ctlEvent par c .extCtsOnly 0, ctlEvent par c .rstLatch 0, ctlEvent par c .rxEn 0,
   mcwEvent par c (par.mcTx8 ||| par.mcTxen), ctlEvent par c .intDisAll 0, ctlEvent par c .rstTxcrc 0]

/-- What PORT_INITIALIZER leaves of its port's record, given the settle read's answer (R41, R195). -/
def Port.initialized (par : Params) (v : Byte) (q : Port) : Port :=
  { q with
    mc := some (par.mcTx8 ||| par.mcTxen)
    ie := ⟨some false, some false, some false, none, some .ctsOnly⟩
    lat := .byte v }

/-- A channel reset makes every field of the image ⊥ (R179). -/
theorem apply_reset (c : PortCfg) (ie : IeImage) :
    ie.apply (if c.isChannelA then .chresetA else .chresetB) = ⟨none, none, none, none, none⟩ := by
  split <;> rfl

theorem run_view_congr {s : State} {p : Nat} {q q' : Port} {es es' : List Event} {e e' : Env} (n : Nat) (hq : q = q')
    (hes : es = es') (he : e = e') : run n (s.view p q es e) = run n (s.view p q' es' e') := by
  rw [hq, hes, he]

section
variable {s : State} {p : Byte} {q : Port} {es : List Event} {e : Env} {cmd : Instr} {rest : List Stmt}
variable (hf : s.fault = none) (hc : s.cpu = .task) (hp : p.toNat < s.nports)
include hf hc hp

/-- Control actions one after the other: the events in order, the effects on the image folded. -/
theorem run_ctls (ks : List (Action × Byte)) {m : Nat} (hm : ks.length = m) (n : Nat) (hs : e.Gives p.toNat m)
    (ht : q.tpc = .inCmd cmd (ctlStmts p ks ++ rest)) :
    run (n + m) (s.view p.toNat q es e)
      = run n (s.view p.toNat { q with tpc := .inCmd cmd rest, ie := ks.foldl (fun ie k => ie.apply k.1) q.ie }
          (es ++ ks.map fun k => ctlEvent s.par q.cfg k.1 k.2) (e.taken m)) := by
  subst hm
  induction ks generalizing q es e with
  | nil =>
    have hq : { q with tpc := .inCmd cmd rest, ie := q.ie } = q := by
      rw [← show q.tpc = .inCmd cmd rest from ht]
    simp only [List.length_nil, List.foldl_nil, List.map_nil, List.append_nil, hq]
    rfl
  | cons k ks ih =>
    refine Eq.trans (run_ctl (n := n + ks.length) hf hc hp hs.head ht) ?_
    refine Eq.trans (ih rfl hs.next) ?_
    simp only [List.foldl_cons, List.map_cons, List.append_assoc, List.singleton_append]
    rfl

/-- PORT_INITIALIZER from its entry to the statement after it, segment by segment: the channel reset, the format, the two
modem-control writes, the divisor, the receiver, the interrupts. -/
theorem run_initializer {d : BitVec 16} (n : Nat) (hs : e.Gives p.toNat 19)
    (ht : q.tpc = .inCmd cmd (.op (.portInitializer p) :: rest))
    (hd : s.par.baudDiv q.cfg.clockHz q.cfg.baud = some d) :
    run (n + 19) (s.view p.toNat q es e)
      = run n (s.view p.toNat { q.initialized s.par e.byte with tpc := .inCmd cmd rest }
          (es ++ initializerEvents s.par q.cfg e.byte d) (e.taken 19).afterByte) := by
  have hat (k m : Nat) (hk : m + k ≤ 19) : (e.taken k).Gives p.toNat m := hs.taken k hk
  have hhd (k : Nat) (hk : k < 19) : (e.taken k).sched.head? = some (.task p.toNat) := (hat k 1 (by omega)).head
  refine Eq.trans (run_portInitializer (n := n + 18) hf hc hp (hhd 0 (by decide)) ht) ?_
  refine Eq.trans (run_channelReset (n := n + 17) hf hc hp (hhd 1 (by decide)) rfl) ?_
  refine Eq.trans (run_getStatus (n := n + 16) hf hc hp (hhd 2 (by decide)) rfl) ?_
  refine Eq.trans (run_ctls hf hc hp [(if q.cfg.isChannelA then .chresetA else .chresetB, 0), (.fmt, 0), (.rx8Dis, 0)]
    (m := 3) rfl (n + 13) (hat 3 3 (by decide)) rfl) ?_
  refine Eq.trans (run_mcw (n := n + 12) hf hc hp (hhd 6 (by decide)) rfl) ?_
  refine Eq.trans (run_ctls hf hc hp [(.miscClr, 0), (.clkBrg, 0)] (m := 2) rfl (n + 10) (hat 7 2 (by decide)) rfl) ?_
  refine Eq.trans (run_baud (n := n + 9) hf hc hp (hhd 9 (by decide)) rfl hd) ?_
  refine Eq.trans (run_ctls hf hc hp [(.brgLo, d.extractLsb' 0 8), (.brgHi, d.extractLsb' 8 8), (.brgEn, 0),
    (.extCtsOnly, 0), (.rstLatch, 0), (.rxEn, 0)] (m := 6) rfl (n + 3) (hat 10 6 (by decide)) rfl) ?_
  refine Eq.trans (run_mcw (n := n + 2) hf hc hp (hhd 16 (by decide)) rfl) ?_
  refine Eq.trans (run_ctls hf hc hp [(.intDisAll, 0), (.rstTxcrc, 0)] (m := 2) rfl n (hat 17 2 (by decide)) rfl) ?_
  refine run_view_congr n ?_ ?_ ?_
  · simp only [List.foldl_cons, List.foldl_nil, apply_reset]
    rfl
  · simp only [initializerEvents, resetAction_eq, afterChoice_byte, List.map_cons, List.map_nil, List.append_assoc, List.cons_append,
      List.nil_append]
  · simp only [Env.afterChoice_eq, Env.afterByte_taken, Env.taken_taken, Nat.reduceAdd]

end

/-- Settles O21, from the view of TASK(p) by `run_initializer`. -/
theorem portInitializerRuns : Obligations.PortInitializerRuns := by
  unfold Obligations.PortInitializerRuns
  intro s p cmd rest d cs hp hf hc hch ht hd
  refine (run_of_view (n := 18) hf hc hp (nextChoice_chosen hch) ht).trans ?_
  refine (run_initializer hf hc hp 0 (gives_of_chosen hch) ht hd).trans ?_
  rw [afterByte_of_chosen hch]
  rfl

end Sys2Proof.Machine
end

section
/-! PROOFS. INIT_INT and INIT_POLL from the decode step to the return (R206, R207), and the allocation that fails (R309). -/

namespace Sys2Proof

/-! ### The command that carries an instruction -/

@[simp] theorem bytes_ofBytes_encode (i : Instr) : (Command.ofBytes (encode i)).bytes = encode i := by
  cases i with
  | writeInt | writePoll => exact bytes_ofBytes _ _ _ _ _
  | _ => exact bytes_ofBytes _ _ _ _ []

theorem decode_ofBytes_encode {i : Instr} (hi : i.wf = true) :
    decode (Command.ofBytes (encode i)).bytes = .ok (i, []) := by
  have h := decodeEncodeRoundTrip i [] hi
  rwa [List.append_nil, ← bytes_ofBytes_encode] at h

namespace Machine

/-- A word of format P with a host command's OP passes R116's checks 1 and 2. -/
theorem hostWordFault_bare {op : Byte} (p : Byte) (h0 : 0 < op.toNat) (hD : op.toNat ≤ 0x0D) :
    hostWordFault (bytesWord op p 0 0) = none := by
  have hop : ¬(op.toNat = 0 ∨ 0x0D < op.toNat) := by omega
  simp [hostWordFault, hop]

/-- The host commands of R113 are words that pass R116's checks 1 and 2. -/
theorem hostWordFault_encode {i : Instr} (h : i.op.toNat ≤ 0x0D) :
    hostWordFault (Command.ofBytes (encode i)).word = none := by
  cases i with
  | writeInt p xs | writePoll p xs =>
    simp [Command.ofBytes, encode, lenBytes, Instr.op, hostWordFault]
  | writePolled p b =>
    simp [Command.ofBytes, encode, Instr.op, hostWordFault]
  | probe p | initInt p | initPoll p | openPort p | closePort p | flush p | readPolled p | setAttr p | fcAssert p
  | fcNegate p => exact hostWordFault_bare p (by simp [Instr.op]) h
  | _ => simp [Instr.op] at h

/-! ### From the decode step to the test of the allocation -/

/-- The two initialization commands with the mode each needs and its statements after the test of the allocation
(R205, R206, R207). -/
def IsInit (i : Instr) (p : Byte) (m : Mode) (c : PortCfg) (rest : List Stmt) : Prop :=
  i = .initInt p ∧ m = .interrupt ∧ rest = initIntBody c p
  ∨ i = .initPoll p ∧ m = .polled ∧ rest = [.op (.portInitializer p), .initReady, .ret (.int 0)]

theorem IsInit.exec_eq {i : Instr} {p : Byte} {m : Mode} {s : State} {rest : List Stmt}
    (h : IsInit i p m (s.port p.toNat).cfg rest) (hp : p.toNat < s.nports) :
    exec i s = .next (beginCmd i p.toNat (initFault m (s.port p.toNat)) (.op (.alloc p) :: .allocTest :: rest) s) := by
  obtain ⟨rfl, rfl, rfl⟩ | ⟨rfl, rfl, rfl⟩ := h
  · exact exec_initInt hp
  · exact exec_initPoll hp

theorem IsInit.decodes {i : Instr} {p : Byte} {m : Mode} {c : PortCfg} {rest : List Stmt} (h : IsInit i p m c rest) :
    i.port = p ∧ i.op.toNat ≤ 0x0D ∧ i.wf = true := by
  obtain ⟨rfl, -, -⟩ | ⟨rfl, -, -⟩ := h <;> exact ⟨rfl, by simp [Instr.op], rfl⟩

/-- The step of an initialization command at its start, its checks passed. -/
theorem run_initStart {i : Instr} {p : Byte} {m : Mode} {s : State} {q : Port} {es : List Event} {e : Env}
    {rest : List Stmt} (hi : IsInit i p m q.cfg rest) (hf : s.fault = none) (hc : s.cpu = .task) (hp : p.toNat < s.nports)
    (hs : e.sched.head? = some (.task p.toNat)) (ht : q.tpc = .inCmd i [.start]) (hl : q.life = .uninit)
    (hm : q.cfg.mode = m) (n : Nat) :
    run (n + 1) (s.view p.toNat q es e)
      = run n (s.view p.toNat { q with tpc := .inCmd i (.op (.alloc p) :: .allocTest :: rest) } es e.afterChoice) := by
  have hchk : initFault m { q with tpc := .inCmd i [] } = none := initFault_none hl hm
  refine run_start hf hc hp hs ht ?_
  rw [IsInit.exec_eq (m := m) (rest := rest) (by rw [view_port hp]; exact hi) (by rw [view_nports]; exact hp), view_port hp,
    hchk, beginCmd, view_setTpc hp]

/-- Decode, checks and ALLOC on an UNINIT port of the command's mode: the command is at the test of the allocation. -/
theorem run_to_allocTest {i : Instr} {p : Byte} {m : Mode} {s : State} {rest : List Stmt} {ok : Bool}
    (hi : IsInit i p m (s.port p.toNat).cfg rest) (h : AboutToRun i s) (hs : s.env.Gives p.toNat 3)
    (hl : (s.port p.toNat).life = .uninit) (hm : (s.port p.toNat).cfg.mode = m) (hok : nextAlloc s = ok) (n : Nat) :
    run (n + 3) s
      = run n (s.view p.toNat { s.port p.toNat with
            tpc := .inCmd i (.allocTest :: rest), hpc := (s.port p.toNat).hpc + 1
            life := if ok then .initializing else .failed, lat := .bool ok }
          [.alloc p.toNat ok] (s.env.taken 3).afterAlloc) := by
  obtain ⟨hip, hop, hwf⟩ := hi.decodes
  have hf := h.noFault
  have hc := h.task
  have hp : p.toNat < s.nports := hip ▸ h.isPort
  have hhd (k : Nat) (hk : k < 3) : (s.env.taken k).sched.head? = some (.task p.toNat) :=
    (hs.taken k (m := 1) (by omega)).head
  subst hok
  refine (run_decode (n := n + 2) h hip (nextChoice_head _ (hhd 0 (by decide))) (hostWordFault_encode hop)
    (decode_ofBytes_encode hwf)).trans ?_
  refine Eq.trans (run_initStart (q := { s.port p.toNat with
    tpc := .inCmd i [.start], hpc := (s.port p.toNat).hpc + 1 }) hi hf hc hp (hhd 1 (by decide)) rfl hl hm (n + 1)) ?_
  exact run_alloc (n := n) hf hc hp (hhd 2 (by decide)) rfl

/-- Settles O27: the test of an allocation that failed returns ERR_NOMEM. -/
theorem failedAllocationReturnsErrNomem : Obligations.FailedAllocationReturnsErrNomem := by
  unfold Obligations.FailedAllocationReturnsErrNomem
  intro s p i m cs hi h hch hl hm ha
  obtain ⟨rest, hi⟩ : ∃ rest, IsInit i p m (s.port p.toNat).cfg rest := by
    obtain ⟨rfl, rfl⟩ | ⟨rfl, rfl⟩ := hi
    · exact ⟨_, .inl ⟨rfl, rfl, rfl⟩⟩
    · exact ⟨_, .inr ⟨rfl, rfl, rfl⟩⟩
  obtain ⟨hip, -, -⟩ := hi.decodes
  have hp : p.toNat < s.nports := hip ▸ h.isPort
  have hidle : (s.port p.toNat).tpc = .idle := hip ▸ h.idle
  have hs : s.env.Gives p.toNat 4 := gives_of_chosen hch
  refine (run_to_allocTest (n := 1) hi h (hs.taken 0 (by decide)) hl hm ha).trans ?_
  refine Eq.trans (run_allocTest (n := 0) (b := false) h.noFault h.task hp (hs.taken 3 (m := 1) (by decide)).head rfl rfl) ?_
  simp only [Env.afterChoice_eq, Env.afterAlloc_taken, Env.taken_taken, Nat.reduceAdd, taken_of_chosen hch]
  rw [← hidle]
  rfl

/-! ### From the allocation to the return (R206, R207) -/

/-- What an initialization command leaves of its port's record when the port gets READY (R206, R207). -/
def Port.madeReady (par : Params) (v : Byte) (q : Port) : Port :=
  { q.initialized par v with
    life := .ready, txActive := some false, rb := some (.empty par.rbCap), hpc := q.hpc + 1 }

/-- An initialization command from its decode step to the statement that makes the port READY. -/
theorem run_to_ready {i : Instr} {p : Byte} {m : Mode} {s : State} {rest : List Stmt} {d : BitVec 16}
    (hi : IsInit i p m (s.port p.toNat).cfg (.op (.portInitializer p) :: .initReady :: rest)) (h : AboutToRun i s)
    (hs : s.env.Gives p.toNat 24) (hl : (s.port p.toNat).life = .uninit) (hm : (s.port p.toNat).cfg.mode = m)
    (hok : nextAlloc s = true) (hd : s.par.baudDiv (s.port p.toNat).cfg.clockHz (s.port p.toNat).cfg.baud = some d)
    (n : Nat) :
    run (n + 24) s
      = run n (s.view p.toNat { (s.port p.toNat).madeReady s.par (nextByte s) with tpc := .inCmd i rest }
          (.alloc p.toNat true :: initializerEvents s.par (s.port p.toNat).cfg (nextByte s) d)
          (s.env.taken 24).afterAlloc.afterByte) := by
  have hf := h.noFault
  have hc := h.task
  have hp : p.toNat < s.nports := hi.decodes.1 ▸ h.isPort
  refine (run_to_allocTest (n := n + 21) hi h (hs.taken 0 (by decide)) hl hm hok).trans ?_
  refine Eq.trans (run_allocTest (n := n + 20) (b := true) hf hc hp (hs.taken 3 (m := 1) (by decide)).head rfl rfl) ?_
  refine Eq.trans (run_initializer hf hc hp (n + 1) (hs.taken 4 (m := 19) (by decide)) rfl hd) ?_
  have hhd : ((s.env.taken 3).afterAlloc.afterChoice.taken 19).afterByte.sched.head? = some (.task p.toNat) := by
    simp only [Env.afterChoice_eq, Env.afterAlloc_taken, Env.taken_taken, Nat.reduceAdd]
    exact (hs.taken 23 (m := 1) (by decide)).head
  refine Eq.trans (run_initReady (n := n) hf hc hp hhd rfl) ?_
  refine run_view_congr n rfl rfl ?_
  simp only [Env.afterChoice_eq, Env.afterByte_taken, Env.afterAlloc_taken, Env.taken_taken, Nat.reduceAdd]

/-- Settles O26: after the port is READY, the return is all that is left. -/
theorem initPollRuns : Obligations.InitPollRuns := by
  unfold Obligations.InitPollRuns
  intro s p d cs h q hch hl hm hok hd
  have hs : s.env.Gives p.toNat 25 := gives_of_chosen hch
  refine Eq.trans (run_to_ready (n := 1) (.inr ⟨rfl, rfl, rfl⟩) h (hs.taken 0 (by decide)) hl hm hok hd) ?_
  refine Eq.trans (run_ret (n := 0) h.noFault h.task h.isPort (hs.taken 24 (m := 1) (by decide)).head rfl) ?_
  simp only [Env.afterChoice_eq, Env.afterByte_taken, Env.afterAlloc_taken, Env.taken_taken, Nat.reduceAdd,
    ← Env.afterByte_afterAlloc, afterByte_of_chosen hch]
  rw [← h.idle]
  rfl

/-- The vector set after R206's registration for a port of configuration c: a channel-A port's vector is in it (R50, R199). -/
def State.registered (s : State) (c : PortCfg) : State :=
  { s with vreg := if c.ctrlPrimary = c.ctrlOwn ∧ c.vector ∉ s.vreg then s.vreg ++ [c.vector] else s.vreg }

/-- The statements of INIT_INT after the port is READY (R206). -/
def initIntEnd (c : PortCfg) (p : Byte) : List Stmt :=
  (if c.strategy ≠ .rtscts then [.op (.negateRts p)] else [])
    ++ ((if c.ctrlPrimary = c.ctrlOwn then [.op (.registerVector p)] else [])
      ++ (ctlStmts p [(.intEnAll, 0), (.mie, 0)] ++ [.ret (.int 0)]))

theorem initIntBody_eq (c : PortCfg) (p : Byte) :
    initIntBody c p = .op (.portInitializer p) :: .initReady :: initIntEnd c p := by
  simp only [initIntBody, initIntEnd, ite_not, PortCfg.isChannelA_iff, List.append_assoc]
  rfl

/-- The number of TASK steps of `initIntEnd`. -/
def initIntEndSteps (c : PortCfg) : Nat :=
  3 + (if c.ctrlPrimary = c.ctrlOwn then 1 else 0) + (if c.strategy ≠ .rtscts then 1 else 0)

section
variable {s : State} {p : Byte} {q : Port} {es : List Event} {e : Env} {cmd : Instr} {rest : List Stmt}
variable (hf : s.fault = none) (hc : s.cpu = .task) (hp : p.toNat < s.nports)
include hf hc hp

/-- The RTS negate of R206, under every strategy but RTSCTS (R225). -/
theorem run_negateUnlessRtscts (c : PortCfg) {m m' : Byte} (n : Nat) (hs : e.Gives p.toNat 1) (hcfg : q.cfg = c)
    (hm : q.mc = some m) (hm' : m' = if c.strategy ≠ .rtscts then m &&& ~~~s.par.mcRts else m)
    (ht : q.tpc = .inCmd cmd ((if c.strategy ≠ .rtscts then [.op (.negateRts p)] else []) ++ rest)) :
    run (n + if c.strategy ≠ .rtscts then 1 else 0) (s.view p.toNat q es e)
      = run n (s.view p.toNat
          { q with tpc := .inCmd cmd rest, mc := some m' }
          (es ++ if c.strategy ≠ .rtscts then [mcwEvent s.par c m'] else [])
          (e.taken (if c.strategy ≠ .rtscts then 1 else 0))) := by
  subst hcfg
  by_cases hst : q.cfg.strategy ≠ .rtscts
  · simp only [if_pos hst] at ht hm' ⊢
    exact run_line hf hc hp hs.head ht hm (.inr (.inl ⟨rfl, hm'⟩))
  · simp only [if_neg hst] at ht hm' ⊢
    rw [List.append_nil]
    refine run_view_congr n ?_ rfl rfl
    rw [hm', ← hm, ← show q.tpc = .inCmd cmd rest from ht]

/-- A statement of a TASK that does not raise, to any state. -/
theorem run_view_next {st : Stmt} {t : State} (n : Nat) (hs : e.Gives p.toNat 1) (ht : q.tpc = .inCmd cmd (st :: rest))
    (hx : taskStmt p.toNat cmd st rest (s.view p.toNat { q with tpc := .inCmd cmd rest } es e.afterChoice) = .next t)
    (hft : t.fault = none) : run (n + 1) (s.view p.toNat q es e) = run n t := by
  have hp' : p.toNat < (s.view p.toNat q es e).nports := by rwa [view_nports]
  have hstart : ((s.view p.toNat q es e).taskStart p.toNat).upd p.toNat
      { (s.view p.toNat q es e).port p.toNat with tpc := .inCmd cmd rest } []
      = s.view p.toNat { q with tpc := .inCmd cmd rest } es e.afterChoice := by
    rw [view_port hp]
    show (s.view p.toNat q es e.afterChoice).upd _ _ _ = _
    rw [view_upd, List.append_nil]
  have hstep : step (s.view p.toNat q es e) = .next t := by
    rw [step_of_task (s := s.view p.toNat q es e) hf hc (nextChoice_head _ hs.head),
      stepTask_inCmd hp' (by rw [view_port hp]; exact ht), hstart, hx]
    exact if_pos hft
  rw [run, hstep]

/-- The vector registration of R206, on a channel-A port (R199). -/
theorem run_registerOnChannelA (c : PortCfg) (n : Nat) (hs : e.Gives p.toNat 1) (hcfg : q.cfg = c)
    (ht : q.tpc = .inCmd cmd
      ((if c.ctrlPrimary = c.ctrlOwn then [.op (.registerVector p)] else []) ++ rest)) :
    run (n + if c.ctrlPrimary = c.ctrlOwn then 1 else 0) (s.view p.toNat q es e)
      = run n ((s.registered c).view p.toNat { q with tpc := .inCmd cmd rest }
          (es ++ if c.ctrlPrimary = c.ctrlOwn then [.vreg c.vector] else [])
          (e.taken (if c.ctrlPrimary = c.ctrlOwn then 1 else 0))) := by
  subst hcfg
  by_cases hA : q.cfg.ctrlPrimary = q.cfg.ctrlOwn
  · simp only [State.registered, hA, if_true, true_and, ite_not] at ht ⊢
    refine run_view_next hf hc hp n hs ht ?_ hf
    rw [taskStmt, exec_registerVector (by rwa [view_nports]), registerVectorOp, view_port hp]
    simp only [State.view, State.upd, emit, List.append_assoc]
    rfl
  · simp only [State.registered, hA, if_false, false_and] at ht ⊢
    rw [List.append_nil]
    refine run_view_congr n ?_ rfl rfl
    rw [← show q.tpc = .inCmd cmd rest from ht]

/-- INIT_INT from the READY port to its return (R206): the conditional RTS negate, the conditional registration, the two
enables. -/
theorem run_initIntEnd (c : PortCfg) {m m' : Byte} (hs : e.Gives p.toNat (initIntEndSteps c)) (hcfg : q.cfg = c)
    (hm : q.mc = some m) (hm' : m' = if c.strategy ≠ .rtscts then m &&& ~~~s.par.mcRts else m)
    (ht : q.tpc = .inCmd cmd (initIntEnd c p)) :
    run (initIntEndSteps c) (s.view p.toNat q es e)
      = .next ((s.registered c).view p.toNat
          { q with
            mc := some m'
            ie := (q.ie.apply .intEnAll).apply .mie
            res := some (.int 0)
            tpc := .idle }
          (es ++ (if c.strategy ≠ .rtscts then [mcwEvent s.par c m'] else [])
            ++ (if c.ctrlPrimary = c.ctrlOwn then [.vreg c.vector] else [])
            ++ [ctlEvent s.par c .intEnAll 0, ctlEvent s.par c .mie 0, .ret p.toNat cmd.op (.int 0)])
          (e.taken (initIntEndSteps c))) := by
  unfold initIntEndSteps at hs ⊢
  generalize ha : (if c.strategy ≠ .rtscts then 1 else 0) = a at hs ⊢
  generalize hb : (if c.ctrlPrimary = c.ctrlOwn then 1 else 0) = b at hs ⊢
  rw [← ha]
  refine Eq.trans (run_negateUnlessRtscts hf hc hp c (3 + b) (hs.taken 0 (by omega)) hcfg hm hm' ht) ?_
  rw [ha, ← hb]
  refine Eq.trans (run_registerOnChannelA hf hc hp c 3 (hs.taken a (by omega)) hcfg rfl) ?_
  rw [hb, Env.taken_taken]
  refine Eq.trans (run_ctls (s := s.registered c) hf hc hp [(.intEnAll, 0), (.mie, 0)] (m := 2) rfl 1
    (hs.taken (a + b) (by omega)) rfl) ?_
  rw [Env.taken_taken]
  refine Eq.trans (run_ret (s := s.registered c) (n := 0) hf hc hp (hs.taken (a + b + 2) (m := 1) (by omega)).head rfl) ?_
  rw [Env.afterChoice_eq, Env.taken_taken, show a + b + 2 + 1 = 3 + b + a by omega]
  subst hcfg
  simp only [List.map_cons, List.map_nil, List.append_assoc, List.cons_append, List.nil_append]
  rfl

end

/-- Settles O25: after the port is READY, the statements of `initIntEnd`. -/
theorem initIntRuns : Obligations.InitIntRuns := by
  unfold Obligations.InitIntRuns
  intro s p d cs h q negates chanA n hch hl hm hok hd
  have hn : n = initIntEndSteps q.cfg + 24 := by
    simp only [n, initIntEndSteps, negates, chanA, decide_eq_true_eq]
    omega
  have hs : s.env.Gives p.toNat (initIntEndSteps q.cfg + 24) := hn ▸ gives_of_chosen hch
  rw [hn]
  refine Eq.trans (run_to_ready (.inl ⟨rfl, rfl, (initIntBody_eq q.cfg p).symm⟩) h (hs.taken 0 (by omega)) hl hm hok hd
    (initIntEndSteps q.cfg)) ?_
  refine Eq.trans (run_initIntEnd h.noFault h.task h.isPort q.cfg (hs.taken 24 (Nat.le_refl _)) rfl rfl rfl rfl) ?_
  simp only [Env.afterByte_taken, Env.afterAlloc_taken, Env.taken_taken, ← Env.afterByte_afterAlloc]
  rw [Nat.add_comm 24, ← hn, afterByte_of_chosen hch, ← h.idle]
  simp only [State.view, State.upd, negates, chanA, decide_eq_true_eq, List.append_assoc]
  rfl

end Machine

end Sys2Proof
end

section
/-! PROOFS. Flow control (R221 to R230): what each line micro-operation makes of the shadow byte, said once for the four;
KICK, which asserts RTS under every strategy; and FC_ASSERT and FC_NEGATE from the decode step to the return. -/

namespace Sys2Proof

/-- What a line micro-operation of port p does to the shadow byte, and the mask of the one line it drives (R221 to
R224). -/
inductive IsLine (par : Params) (p : Byte) : Instr → Byte → (Byte → Byte) → Prop
  | assertRts : IsLine par p (.assertRts p) par.mcRts fun m => m ||| par.mcRts
  | negateRts : IsLine par p (.negateRts p) par.mcRts fun m => m &&& ~~~par.mcRts
  | assertDtr : IsLine par p (.assertDtr p) par.mcDtr fun m => m ||| par.mcDtr
  | negateDtr : IsLine par p (.negateDtr p) par.mcDtr fun m => m &&& ~~~par.mcDtr

section
variable {par : Params} {p : Byte} {i : Instr} {mask : Byte} {f : Byte → Byte}

theorem IsLine.of_instr (par : Params) (h : i = .assertRts p ∨ i = .negateRts p ∨ i = .assertDtr p ∨ i = .negateDtr p) :
    ∃ mask f, IsLine par p i mask f := by
  obtain rfl | rfl | rfl | rfl := h
  · exact ⟨_, _, .assertRts⟩
  · exact ⟨_, _, .negateRts⟩
  · exact ⟨_, _, .assertDtr⟩
  · exact ⟨_, _, .negateDtr⟩

theorem IsLine.of_mask
    (h : (i = .assertRts p ∨ i = .negateRts p) ∧ mask = par.mcRts
      ∨ (i = .assertDtr p ∨ i = .negateDtr p) ∧ mask = par.mcDtr) : ∃ f, IsLine par p i mask f := by
  obtain ⟨rfl | rfl, rfl⟩ | ⟨rfl | rfl, rfl⟩ := h
  · exact ⟨_, .assertRts⟩
  · exact ⟨_, .negateRts⟩
  · exact ⟨_, .assertDtr⟩
  · exact ⟨_, .negateDtr⟩

/-! ### The shadow byte (R230) -/

/-- Setting the bits of a mask changes no other bit. -/
theorem xor_or_mask (m mask : Byte) : m ^^^ (m ||| mask) = (m ^^^ (m ||| mask)) &&& mask := by
  ext j
  simp only [BitVec.getElem_xor, BitVec.getElem_or, BitVec.getElem_and]
  cases m[j] <;> cases mask[j] <;> rfl

/-- Clearing the bits of a mask changes no other bit. -/
theorem xor_and_not_mask (m mask : Byte) : m ^^^ (m &&& ~~~mask) = (m ^^^ (m &&& ~~~mask)) &&& mask := by
  ext j
  simp only [BitVec.getElem_xor, BitVec.getElem_not, BitVec.getElem_and]
  cases m[j] <;> cases mask[j] <;> rfl

theorem IsLine.changes (h : IsLine par p i mask f) (m : Byte) : m ^^^ f m = (m ^^^ f m) &&& mask := by
  cases h with
  | assertRts | assertDtr => exact xor_or_mask m _
  | negateRts | negateDtr => exact xor_and_not_mask m _

theorem IsLine.again (h : IsLine par p i mask f) (m : Byte) : f (f m) = f m := by
  cases h with
  | assertRts | assertDtr => simp only [BitVec.or_assoc, BitVec.or_self]
  | negateRts | negateDtr => simp only [BitVec.and_assoc, BitVec.and_self]

/-- Under well-formed masks a line's mask is one bit, and not the transmitter's (WF2). -/
theorem IsLine.singleBit (h : IsLine par p i mask f) (hw : par.wf = true) :
    (∃ n < 8, mask = 1#8 <<< n) ∧ mask ≠ par.mcTxen := by
  obtain ⟨-, ⟨hrts, hdtr, -, -, hrt, hdt, -⟩, -⟩ := (Params.wf_iff par).mp hw
  cases h with
  | assertRts | negateRts => exact ⟨hrts, hrt⟩
  | assertDtr | negateDtr => exact ⟨hdtr, hdt⟩

end

theorem and_shiftLeft_one (x : Byte) (n : Nat) : x &&& 1#8 <<< n = 0 ∨ x &&& 1#8 <<< n = 1#8 <<< n := by
  rw [← BitVec.twoPow_eq, BitVec.and_twoPow]
  split
  · exact .inr rfl
  · exact .inl rfl

/-- Two different one-bit masks have no bit in common. -/
theorem and_eq_zero_of_singleBit {a b : Byte} (ha : ∃ n < 8, a = 1#8 <<< n) (hb : ∃ n < 8, b = 1#8 <<< n)
    (h : a ≠ b) : a &&& b = 0 := by
  obtain ⟨m, -, rfl⟩ := ha
  obtain ⟨n, -, rfl⟩ := hb
  obtain h0 | hn := and_shiftLeft_one (1#8 <<< m) n
  · exact h0
  · obtain h0 | hm := and_shiftLeft_one (1#8 <<< n) m
    · rwa [BitVec.and_comm] at h0
    · exact absurd (hm.symm.trans ((BitVec.and_comm _ _).trans hn)) h

theorem and_xor_distrib (a b x : Byte) : (a ^^^ b) &&& x = (a &&& x) ^^^ (b &&& x) := by
  ext j
  simp only [BitVec.getElem_xor, BitVec.getElem_and, Bool.and_xor_distrib_right]

/-- A change inside a mask leaves every bit outside it (R230). -/
theorem and_eq_of_changes {m m' mask x : Byte} (h : m ^^^ m' = (m ^^^ m') &&& mask) (hx : mask &&& x = 0) :
    m' &&& x = m &&& x := by
  have h0 : (m ^^^ m') &&& x = 0 := by
    rw [h, BitVec.and_assoc, hx]
    exact BitVec.and_zero
  rw [and_xor_distrib] at h0
  exact (BitVec.xor_eq_zero_iff.mp h0).symm

namespace Machine

/-! ### The four line micro-operations on a configured port -/

theorem lineOp_none {s : State} {p : Nat} (hm : (s.port p).mc = none) (op : Byte) (f : Byte → Byte) :
    lineOp p op f s = .raise .undefRead p op s := by
  simp only [lineOp, hm]

section
variable {s t : State} {p : Byte} {i : Instr} {mask m : Byte} {f : Byte → Byte}

theorem exec_line (h : IsLine s.par p i mask f) (hp : p.toNat < s.nports) :
    exec i s = .next (lineOp p.toNat i.op f s).st := by
  cases h with
  | assertRts | negateRts | assertDtr | negateDtr => exact onPort_of_lt hp _

theorem exec_line_some (h : IsLine s.par p i mask f) (hp : p.toNat < s.nports) (hm : (s.port p.toNat).mc = some m) :
    exec i s = .next (s.upd p.toNat { s.port p.toNat with mc := some (f m) }
      [mcwEvent s.par (s.port p.toNat).cfg (f m)]) := by
  rw [exec_line h hp, lineOp_some hm, Flow.pure_st]

/-- What a line micro-operation that answers a next state leaves of its port, the trace and the launch. -/
theorem exec_line_next (h : IsLine s.par p i mask f) (hp : p.toNat < s.nports) (hm : (s.port p.toNat).mc = some m)
    (ht : exec i s = .next t) :
    t.par = s.par ∧ t.nports = s.nports ∧ t.port p.toNat = { s.port p.toNat with mc := some (f m) }
      ∧ t.trace = s.trace ++ [mcwEvent s.par (s.port p.toNat).cfg (f m)] := by
  obtain rfl := Host.Outcome.next.inj ((exec_line_some h hp hm).symm.trans ht)
  exact ⟨rfl, upd_nports _ _ _ _, upd_port_same hp _ _, rfl⟩

end

/-- Settles O28: the four by `exec_line`, on a shadow byte that is ⊥ and on one that is not. -/
theorem lineOperations : Obligations.LineOperations := by
  unfold Obligations.LineOperations
  refine ⟨fun s p i hp hm hi => ?_, fun s p m hp hm => ?_⟩
  · obtain ⟨mask, f, hl⟩ := IsLine.of_instr s.par hi
    rw [exec_line hl hp, lineOp_none hm]
    rfl
  · exact ⟨(exec_line_some .assertRts hp hm :), (exec_line_some .negateRts hp hm :),
      (exec_line_some .assertDtr hp hm :), (exec_line_some .negateDtr hp hm :)⟩

/-- Settles O29: the bits that change are within the mask, which WF2 makes one bit, and the second operation finds them
changed. -/
theorem oneBitLaw : Obligations.OneBitLaw := by
  unfold Obligations.OneBitLaw
  intro s t u p m m' m'' mask i hw hp hi hst htu hm hm' hm''
  obtain ⟨f, hl⟩ := IsLine.of_mask hi
  obtain ⟨hbit, hne⟩ := hl.singleBit hw
  obtain ⟨hpar, hn, hport, -⟩ := exec_line_next hl hp hm hst
  obtain rfl : f m = m' := Option.some.inj (by rw [← hm', hport])
  obtain ⟨-, -, hport', htrace⟩ := exec_line_next (hpar ▸ hl) (hn ▸ hp) hm' htu
  rw [hl.again] at hport' htrace
  obtain rfl : f m = m'' := Option.some.inj (by rw [← hm'', hport'])
  have htx : mask &&& s.par.mcTxen = 0 := by
    obtain ⟨-, ⟨-, -, htxen, -⟩, -⟩ := (Params.wf_iff s.par).mp hw
    exact and_eq_zero_of_singleBit hbit htxen hne
  refine ⟨hbit, ?_, and_eq_of_changes (hl.changes m) htx, rfl, by rw [htrace, hpar, hport]⟩
  obtain ⟨n, -, rfl⟩ := hbit
  rw [hl.changes m]
  exact and_shiftLeft_one _ n

/-! ### KICK (R256, R226) -/

theorem exec_kick {s : State} {p : Byte} (hp : p.toNat < s.nports) :
    exec (.kick p) s = .next ((kickOp p.toNat s).toLat p.toNat fun k => if k then .kicked else .busy) :=
  onPort_of_lt hp _

theorem exec_txPhase {s : State} {p : Byte} (hp : p.toNat < s.nports) :
    exec (.txPhase p) s = .next (txPhaseOp p.toNat s).st :=
  onPort_of_lt hp _

theorem kickOp_none {s : State} {p : Nat} (ha : (s.port p).txActive = none) :
    kickOp p s = .raise .undefRead p 0x9E s := by
  simp only [kickOp, ha]
  rfl

theorem kickOp_active {s : State} {p : Nat} (ha : (s.port p).txActive = some true) : kickOp p s = .pure false s := by
  simp only [kickOp, ha]

/-- A kick of an inactive transmitter whose shadow byte is written: RTS is asserted, `tx_active` set, and the transmit
phase runs. -/
theorem kickOp_inactive {s : State} {p : Nat} {m : Byte} (hp : p < s.nports) (ha : (s.port p).txActive = some false)
    (hm : (s.port p).mc = some m) :
    kickOp p s
      = (txPhaseOp p (s.upd p { s.port p with mc := some (m ||| s.par.mcRts), txActive := some true }
          [mcwEvent s.par (s.port p).cfg (m ||| s.par.mcRts)])).andThen fun _ t => .pure true t := by
  simp only [kickOp, ha, assertRtsOp]
  rw [lineOp_some hm, Flow.pure_andThen, setTxActive_eq, upd_port_same hp, upd_upd, List.append_nil]

/-- Settles O39, by `tx_active`; inactive, the transmit phase does not raise on a ring that meets R43. -/
theorem kickStart : Obligations.KickStart := by
  unfold Obligations.KickStart
  intro s p hp q
  refine ⟨fun ha => ?_, fun ha => ?_, fun ha m r hm hr hw hf => ?_⟩
  · rw [exec_kick hp, kickOp_none ha]
    rfl
  · rw [exec_kick hp, kickOp_active ha]
    rfl
  · intro m' s1
    have hport : s1.port p.toNat = { q with mc := some m', txActive := some true } := port_setPort_same s _ _ hp
    have hp1 : p.toNat < s1.nports := by rwa [show s1.nports = s.nports from upd_nports s _ _ _]
    obtain ⟨q', es, htx, -⟩ := txPhaseOp_leaves (m := m') hp1 (by rw [hport]; exact hr) hw (by rw [hport])
    refine ⟨(takeByte s1).upd p.toNat q' es, ?_, hf, ?_⟩
    · rw [exec_txPhase hp1, htx, Flow.pure_st]
    · rw [exec_kick hp, kickOp_inactive hp ha hm]
      show Host.Outcome.next (Flow.toLat _ _ ((txPhaseOp p.toNat s1).andThen _)) = _
      rw [htx]
      rfl

/-! ### FC_ASSERT and FC_NEGATE (R228, R229) -/

theorem lifeFault_ready {q : Port} (h : q.life = .ready) : lifeFault q = none := by
  simp only [lifeFault, h]

theorem strategyFault_none {q : Port} (h : q.cfg.strategy ≠ .none) : strategyFault q = none :=
  if_neg h

/-- The line micro-operation a strategy's command runs (R228, R229). -/
inductive IsCallback (p : Byte) : Instr → Strategy → Instr → Prop
  | assertRts : IsCallback p (.fcAssert p) .rtscts (.assertRts p)
  | assertDtr : IsCallback p (.fcAssert p) .dtrcts (.assertDtr p)
  | negateRts : IsCallback p (.fcNegate p) .rtscts (.negateRts p)
  | negateDtr : IsCallback p (.fcNegate p) .dtrcts (.negateDtr p)

theorem exec_fcAssert {s : State} {p : Byte} (hp : p.toNat < s.nports) :
    exec (.fcAssert p) s = .next (beginCmd (.fcAssert p) p.toNat
      (firstFault (lifeFault (s.port p.toNat)) (strategyFault (s.port p.toNat)))
      (assertCallback p (s.port p.toNat).cfg.strategy ++ [.ret (.int 0)]) s) :=
  onHost_of_lt hp _ _

theorem exec_fcNegate {s : State} {p : Byte} (hp : p.toNat < s.nports) :
    exec (.fcNegate p) s = .next (beginCmd (.fcNegate p) p.toNat
      (firstFault (lifeFault (s.port p.toNat)) (strategyFault (s.port p.toNat)))
      (negateCallback p (s.port p.toNat).cfg.strategy ++ [.ret (.int 0)]) s) :=
  onHost_of_lt hp _ _

/-- On a READY port a strategy's command passes its checks and is at its callback. -/
theorem exec_callback {s : State} {p : Byte} {i op : Instr} (h : IsCallback p i (s.port p.toNat).cfg.strategy op)
    (hp : p.toNat < s.nports) (hl : (s.port p.toNat).life = .ready) :
    exec i s = .next (setTpc p.toNat (.inCmd i [.op op, .ret (.int 0)]) s) := by
  generalize hst : (s.port p.toNat).cfg.strategy = st at h
  cases h with
  | assertRts | assertDtr =>
    rw [exec_fcAssert hp, lifeFault_ready hl, strategyFault_none (by simp [hst]), hst]
    rfl
  | negateRts | negateDtr =>
    rw [exec_fcNegate hp, lifeFault_ready hl, strategyFault_none (by simp [hst]), hst]
    rfl

/-- The command and the strategy determine the callback, a line micro-operation (R228, R229). -/
theorem exists_callback {par : Params} {p : Byte} {i : Instr} {st : Strategy} {f : Byte → Byte}
    (h : i = .fcAssert p
        ∧ (st = .rtscts ∧ f = (fun m => m ||| par.mcRts) ∨ st = .dtrcts ∧ f = fun m => m ||| par.mcDtr)
      ∨ i = .fcNegate p
        ∧ (st = .rtscts ∧ f = (fun m => m &&& ~~~par.mcRts) ∨ st = .dtrcts ∧ f = fun m => m &&& ~~~par.mcDtr)) :
    ∃ op mask, IsCallback p i st op ∧ IsLine par p op mask f := by
  obtain ⟨rfl, ⟨rfl, rfl⟩ | ⟨rfl, rfl⟩⟩ | ⟨rfl, ⟨rfl, rfl⟩ | ⟨rfl, rfl⟩⟩ := h
  · exact ⟨_, _, .assertRts, .assertRts⟩
  · exact ⟨_, _, .assertDtr, .assertDtr⟩
  · exact ⟨_, _, .negateRts, .negateRts⟩
  · exact ⟨_, _, .negateDtr, .negateDtr⟩

theorem IsCallback.decodes {p : Byte} {i op : Instr} {st : Strategy} (h : IsCallback p i st op) :
    i.port = p ∧ i.op.toNat ≤ 0x0D ∧ i.wf = true := by
  cases h with
  | assertRts | assertDtr | negateRts | negateDtr => exact ⟨rfl, by simp [Instr.op], rfl⟩

section
variable {s : State} {p : Byte} {q : Port} {es : List Event} {e : Env}
variable (hf : s.fault = none) (hc : s.cpu = .task) (hp : p.toNat < s.nports)
include hf hc hp

/-- The step of a line micro-operation, whichever line it drives. -/
theorem run_isLine {cmd op : Instr} {rest : List Stmt} {mask m : Byte} {f : Byte → Byte} (h : IsLine s.par p op mask f)
    (n : Nat) (hs : e.Gives p.toNat 1) (ht : q.tpc = .inCmd cmd (.op op :: rest)) (hm : q.mc = some m) :
    run (n + 1) (s.view p.toNat q es e)
      = run n (s.view p.toNat { q with tpc := .inCmd cmd rest, mc := some (f m) } (es ++ [mcwEvent s.par q.cfg (f m)])
          (e.taken 1)) := by
  refine run_line hf hc hp hs.head ht hm ?_
  cases h with
  | assertRts => exact .inl ⟨rfl, rfl⟩
  | negateRts => exact .inr (.inl ⟨rfl, rfl⟩)
  | assertDtr => exact .inr (.inr (.inl ⟨rfl, rfl⟩))
  | negateDtr => exact .inr (.inr (.inr ⟨rfl, rfl⟩))

/-- The step of a strategy's command at its start, its checks passed. -/
theorem run_callbackStart {i op : Instr} (h : IsCallback p i q.cfg.strategy op) (n : Nat) (hs : e.Gives p.toNat 1)
    (ht : q.tpc = .inCmd i [.start]) (hl : q.life = .ready) :
    run (n + 1) (s.view p.toNat q es e)
      = run n (s.view p.toNat { q with tpc := .inCmd i [.op op, .ret (.int 0)] } es (e.taken 1)) := by
  refine run_start hf hc hp hs.head ht ?_
  rw [exec_callback (op := op) (by rw [view_port hp]; exact h) (by rwa [view_nports]) (by rw [view_port hp]; exact hl),
    view_setTpc hp]
  rfl

end

/-- Settles O30: the checks and the entry by `exec_callback`, then the run's four steps: decode, entry, line and return. -/
theorem strategyCommandsBegin : Obligations.StrategyCommandsBegin := by
  unfold Obligations.StrategyCommandsBegin
  refine ⟨fun s p hp hl => ⟨fun hst => ?_, fun hst => ?_, fun hst => ?_⟩, ?_⟩
  · exact ⟨exec_callback (hst ▸ .assertRts) hp hl, exec_callback (hst ▸ .negateRts) hp hl⟩
  · exact ⟨exec_callback (hst ▸ .assertDtr) hp hl, exec_callback (hst ▸ .negateDtr) hp hl⟩
  · constructor
    · rw [exec_fcAssert hp, lifeFault_ready hl, strategyFault, if_pos hst]
      rfl
    · rw [exec_fcNegate hp, lifeFault_ready hl, strategyFault, if_pos hst]
      rfl
  · intro s p m i f cs q hi h hch hl hm
    obtain ⟨op, mask, hcb, hline⟩ := exists_callback hi
    obtain ⟨hip, hop, hwf⟩ := hcb.decodes
    have hf := h.noFault
    have hc := h.task
    have hp : p.toNat < s.nports := hip ▸ h.isPort
    have hidle : (s.port p.toNat).tpc = .idle := hip ▸ h.idle
    have hs : s.env.Gives p.toNat 4 := gives_of_chosen hch
    refine (run_decode (n := 3) h hip (nextChoice_head _ hs.head) (hostWordFault_encode hop)
      (decode_ofBytes_encode hwf)).trans ?_
    refine Eq.trans (run_callbackStart (q := { q with tpc := .inCmd i [.start], hpc := q.hpc + 1 }) hf hc hp hcb 2
      (hs.taken 1 (by decide)) rfl hl) ?_
    refine Eq.trans (run_isLine hf hc hp hline 1 (hs.taken 2 (by decide)) rfl hm) ?_
    refine Eq.trans (run_ret (n := 0) hf hc hp (hs.taken 3 (m := 1) (by decide)).head rfl) ?_
    simp only [Env.afterChoice_eq, Env.taken_taken, Nat.reduceAdd, taken_of_chosen hch]
    rw [← hidle]
    rfl

end Machine

end Sys2Proof
end

section
/-! PROOFS. The process engine one operation at a time (R241 to R249): the hand-off, the phases by the pending bits and by what
the status read says, and the entry of PROCESS. -/

namespace Sys2Proof

/-! ### The status predicates (R47) -/

theorem Params.tbe_iff (par : Params) (v : Byte) : par.tbe v = true ↔ v &&& par.pTbe ≠ 0 := bne_iff_ne

theorem Params.cts_iff (par : Params) (v : Byte) : par.cts v = true ↔ v &&& par.pCts ≠ 0 := bne_iff_ne

theorem Params.rca_iff (par : Params) (v : Byte) : par.rca v = true ↔ v &&& par.pRca ≠ 0 := bne_iff_ne

namespace Machine

/-! ### UP, EXT_PHASE, EOI and PROCESS -/

/-- An action without an effect on the interrupt-enable image (R179) is its register write alone. -/
theorem ctlOp_of_apply_eq {s : State} {p : Nat} (hp : p < s.nports) {k : Action}
    (hk : (s.port p).ie.apply k = (s.port p).ie) (a : Byte) :
    ctlOp p k a s = emit (ctlEvent s.par (s.port p).cfg k a) s := by
  rw [ctlOp_eq, hk, emit_eq_upd hp]

theorem exec_extPhase {s : State} {p : Byte} (hp : p.toNat < s.nports) :
    exec (.extPhase p) s
      = .next (if pendExt s.pbits then
          readStatus p.toNat (emit (ctlEvent s.par (s.port p.toNat).cfg .rstExt 0) s) else s) := by
  rw [← ctlOp_of_apply_eq hp rfl]
  exact onPort_of_lt hp _

theorem exec_eoi {s : State} {p : Byte} (hp : p.toNat < s.nports) :
    exec (.eoi p) s = .next (emit (ctlEvent s.par (s.port p.toNat).cfg .rstHius 0) s) := by
  rw [← ctlOp_of_apply_eq hp rfl]
  exact onPort_of_lt hp _

/-- The status read after an event. -/
theorem readStatus_emit (p : Nat) (e : Event) (s : State) :
    readStatus p (emit e s) = { takeByte s with
      trace := s.trace ++ [e, .rdReg (s.port p).cfg.ctrlOwn s.par.selStatus (nextByte s)] } := by
  rw [List.append_cons]
  rfl

/-- Settles O34, by the EXT bit; neither action writes the interrupt-enable image. -/
theorem externalPhaseEoiAndUp : Obligations.ExternalPhaseEoiAndUp := by
  unfold Obligations.ExternalPhaseEoiAndUp
  intro s p c hp q
  refine ⟨fun hb => ?_, fun hb => ?_, exec_eoi hp, onPort_of_lt hp _⟩
  · rw [exec_extPhase hp, pendExt, hb, if_neg Bool.false_ne_true]
  · rw [exec_extPhase hp, pendExt, hb, if_pos rfl, readStatus_emit]

/-- Settles O35, by `pushStmts_isr`. -/
theorem processEntersItsPhases : Obligations.ProcessEntersItsPhases := by
  unfold Obligations.ProcessEntersItsPhases
  intro s p bits k hp hc hk
  refine (onPort_of_lt hp _).trans ?_
  rw [pushStmts_isr (s := { s with pbits := bits.extractLsb' 0 3 }) hc hk]

/-! ### RX_PHASE (R241) -/

theorem exec_rxPhase {s : State} {p : Byte} (hp : p.toNat < s.nports) :
    exec (.rxPhase p) s = .next (if pendRx s.pbits then rxTurn p s else s) :=
  onPort_of_lt hp _

theorem rxTurn_of_not_rca {s : State} {p : Byte} (h : s.par.rca (nextByte s) = false) :
    rxTurn p s = readStatus p.toNat s := by
  simp only [rxTurn, h, Bool.false_eq_true, if_false]

/-- A turn that finds a byte: the status read, the data read, the hand-off, and in interrupt context the loop again. -/
theorem rxTurn_of_rca {s : State} {p : Byte} {k : IsrPc} (hc : s.cpu = .isr) (hk : s.ipc = some k)
    (h : s.par.rca (nextByte s) = true) :
    rxTurn p s = { upOp p.toNat (nextByte (readStatus p.toNat s)) (readData p.toNat (readStatus p.toNat s)) with
      ipc := some { k with stage := .op (.rxPhase p) :: k.stage } } := by
  simp only [rxTurn, h, if_true]
  exact pushStmts_isr (s := upOp p.toNat _ (readData p.toNat (readStatus p.toNat s))) hc hk _ _ _

/-- Settles O31, by the RX bit and RCA of the status read. -/
theorem receivePhase : Obligations.ReceivePhase := by
  unfold Obligations.ReceivePhase
  intro s p hp q v s1 c
  refine ⟨fun hb => ?_, fun hb hr => ?_, fun hb hr hc k hk => ?_⟩
  · rw [exec_rxPhase hp, pendRx, hb, if_neg Bool.false_ne_true]
  · have hr' : s.par.rca v = false := Bool.eq_false_iff.mpr fun h => (s.par.rca_iff v).mp h hr
    rw [exec_rxPhase hp, pendRx, hb, if_pos rfl, rxTurn_of_not_rca hr']
    rfl
  · rw [exec_rxPhase hp, pendRx, hb, if_pos rfl, rxTurn_of_rca hc hk ((s.par.rca_iff v).mpr hr)]
    simp only [List.append_cons s.trace _ [_, _], List.append_cons (s.trace ++ [_]) _ [_]]
    rfl

/-! ### TX_PHASE (R242) -/

/-- The event of TX_PHASE's one status read (R175). -/
def statusRead (s : State) (p : Nat) : Event := .rdReg (s.port p).cfg.ctrlOwn s.par.selStatus (nextByte s)

section
variable {s : State} {p : Nat} {r : Ring} (hp : p < s.nports)
include hp

theorem txPhaseOp_of_not_tbe (ht : s.par.tbe (nextByte s) = false) :
    txPhaseOp p s = .pure () ((takeByte s).upd p (s.port p) [statusRead s p]) := by
  simp only [txPhaseOp, ht, Bool.not_false, if_true, readStatus_eq hp, statusRead]

variable (ht : s.par.tbe (nextByte s) = true)
include ht

theorem txPhaseOp_of_not_cts (hc : s.par.cts (nextByte s) = false) :
    txPhaseOp p s = .pure () ((takeByte s).upd p { s.port p with ie := (s.port p).ie.apply .txintDis }
      [statusRead s p, ctlEvent s.par (s.port p).cfg .txintDis 0]) := by
  simp [txPhaseOp, ht, hc, readStatus_eq hp, statusRead, ctlOp_eq, hp]

variable (hc : s.par.cts (nextByte s) = true) (hr : (s.port p).rb = some r)
include hc hr

/-- With an empty ring `tx_active` is cleared, RTS negated where `NegRTS_cond` has it, and the transmit interrupt disabled. -/
theorem txPhaseOp_of_empty (he : r.count = 0) :
    txPhaseOp p s
      = (negRtsCond p ((takeByte s).upd p { s.port p with txActive := some false } [statusRead s p])).andThen fun _ t =>
          .pure () (ctlOp p .txintDis 0 t) := by
  have he' : r.isEmpty = true := beq_iff_eq.mpr he
  simp only [txPhaseOp, ht, hc, Bool.not_true, Bool.false_eq_true, if_false, rbIsEmptyOp_some (s := readStatus p s) hr,
    Flow.pure_andThen, he', if_true]
  simp [readStatus_eq hp, setTxActive_eq, statusRead, hp]

theorem txPhaseOp_of_empty_rtscts (he : r.count = 0) (hst : (s.port p).cfg.strategy = .rtscts) :
    txPhaseOp p s = .pure () ((takeByte s).upd p
      { s.port p with txActive := some false, ie := (s.port p).ie.apply .txintDis }
      [statusRead s p, ctlEvent s.par (s.port p).cfg .txintDis 0]) := by
  rw [txPhaseOp_of_empty hp ht hc hr he, negRtsCond_rtscts (by rwa [upd_port_same (by exact hp)]), Flow.pure_andThen,
    ctlOp_eq, upd_port_same (by exact hp), upd_upd]
  rfl

theorem txPhaseOp_of_empty_negate {m : Byte} (he : r.count = 0) (hst : (s.port p).cfg.strategy ≠ .rtscts)
    (hm : (s.port p).mc = some m) :
    txPhaseOp p s = .pure () ((takeByte s).upd p
      { s.port p with
        txActive := some false, mc := some (m &&& ~~~s.par.mcRts), ie := (s.port p).ie.apply .txintDis }
      [statusRead s p, mcwEvent s.par (s.port p).cfg (m &&& ~~~s.par.mcRts),
        ctlEvent s.par (s.port p).cfg .txintDis 0]) := by
  rw [txPhaseOp_of_empty hp ht hc hr he, negRtsCond_some (m := m) (by rwa [upd_port_same (by exact hp)])
    (by rwa [upd_port_same (by exact hp)]), Flow.pure_andThen]
  simp [ctlOp_eq, hp]

theorem txPhaseOp_of_empty_undef (he : r.count = 0) (hst : (s.port p).cfg.strategy ≠ .rtscts)
    (hm : (s.port p).mc = none) :
    txPhaseOp p s = .raise .undefRead p (Instr.negateRts 0).op
      ((takeByte s).upd p { s.port p with txActive := some false } [statusRead s p]) := by
  rw [txPhaseOp_of_empty hp ht hc hr he, negRtsCond, if_neg (by rwa [upd_port_same (by exact hp)]), negateRtsOp,
    lineOp_none (by rwa [upd_port_same (by exact hp)]), Flow.raise_andThen]

/-- With a byte at the head it is dequeued and written, and the transmit interrupt enabled. -/
theorem txPhaseOp_of_byte {b : Byte} {r' : Ring} (hd : r.deq s.par.rbCap = .ok b r') :
    txPhaseOp p s = .pure () ((takeByte s).upd p
      { s.port p with rb := some r', ie := (s.port p).ie.apply .txintEn }
      [statusRead s p, .wrData (s.port p).cfg.dataAddr b, ctlEvent s.par (s.port p).cfg .txintEn 0]) := by
  have he' : r.isEmpty = false := beq_eq_false_iff_ne.mpr (Ring.deq_ok hd).1
  have hdeq := rbDeqOp_ok (s := readStatus p s) hr hd
  simp only [txPhaseOp, ht, hc, Bool.not_true, Bool.false_eq_true, if_false, rbIsEmptyOp_some (s := readStatus p s) hr,
    Flow.pure_andThen, he', hdeq]
  simp [readStatus_eq hp, writeData_eq, ctlOp_eq, statusRead, hp]

end

/-- Settles O32, by TBE and CTS of the status read, the ring's count and the strategy. -/
theorem transmitPhase : Obligations.TransmitPhase := by
  unfold Obligations.TransmitPhase
  intro s p r hp hr q v read tbe cts ie left
  have htbe : tbe → s.par.tbe v = true := (s.par.tbe_iff v).mpr
  have hcts : cts → s.par.cts v = true := (s.par.cts_iff v).mpr
  refine ⟨fun ht => ?_, fun ht hc => ?_, fun ht hc he hst => ?_, fun ht hc he hst m hm => ?_, fun ht hc hn b hb => ?_⟩
  · have ht' : s.par.tbe v = false := Bool.eq_false_iff.mpr fun h => ht ((s.par.tbe_iff v).mp h)
    rw [exec_txPhase hp, txPhaseOp_of_not_tbe hp ht']
    exact congrArg _ (readStatus_eq hp).symm
  · have hc' : s.par.cts v = false := Bool.eq_false_iff.mpr fun h => hc ((s.par.cts_iff v).mp h)
    rw [exec_txPhase hp, txPhaseOp_of_not_cts hp (htbe ht) hc']
    rfl
  · rw [exec_txPhase hp, txPhaseOp_of_empty_rtscts hp (htbe ht) (hcts hc) hr he hst]
    rfl
  · rw [exec_txPhase hp, txPhaseOp_of_empty_negate hp (htbe ht) (hcts hc) hr he hst hm]
    rfl
  · rw [exec_txPhase hp, txPhaseOp_of_byte hp (htbe ht) (hcts hc) hr (Ring.deq_of_slot hn hb _)]
    rfl

/-! ### The at-most-one-byte law (R243) -/

/-- The events of TX_PHASE's branches after the status read: with an empty ring the modem-control write, the disabled
interrupt or the fault, whichever they are, write no data. -/
theorem txPhaseOp_newEvents {s : State} {p : Nat} {r : Ring} (hp : p < s.nports) (hr : (s.port p).rb = some r)
    (hw : r.wf s.par.rbCap = true) :
    s.par.tbe (nextByte s) = false ∧ newEvents s (txPhaseOp p s).st = [statusRead s p]
    ∨ s.par.tbe (nextByte s) = true ∧ s.par.cts (nextByte s) = false
      ∧ newEvents s (txPhaseOp p s).st = [statusRead s p, ctlEvent s.par (s.port p).cfg .txintDis 0]
    ∨ s.par.tbe (nextByte s) = true ∧ s.par.cts (nextByte s) = true ∧ r.count = 0
      ∧ (newEvents s (txPhaseOp p s).st).filter Event.isAnyWrData = []
    ∨ s.par.tbe (nextByte s) = true ∧ s.par.cts (nextByte s) = true ∧ r.count ≠ 0
      ∧ ∃ b, newEvents s (txPhaseOp p s).st
          = [statusRead s p, .wrData (s.port p).cfg.dataAddr b, ctlEvent s.par (s.port p).cfg .txintEn 0] := by
  cases ht : s.par.tbe (nextByte s) with
  | false =>
    rw [txPhaseOp_of_not_tbe hp ht]
    exact .inl ⟨rfl, by simp [newEvents]⟩
  | true =>
    cases hc : s.par.cts (nextByte s) with
    | false =>
      rw [txPhaseOp_of_not_cts hp ht hc]
      exact .inr (.inl ⟨rfl, rfl, by simp [newEvents]⟩)
    | true =>
      by_cases he : r.count = 0
      · refine .inr (.inr (.inl ⟨rfl, rfl, he, ?_⟩))
        by_cases hst : (s.port p).cfg.strategy = .rtscts
        · rw [txPhaseOp_of_empty_rtscts hp ht hc hr he hst]
          simp [newEvents, statusRead, ctlEvent, Event.isAnyWrData]
        · cases hm : (s.port p).mc with
          | none =>
            rw [txPhaseOp_of_empty_undef hp ht hc hr he hst hm]
            simp [newEvents, statusRead, Event.isAnyWrData]
          | some m =>
            rw [txPhaseOp_of_empty_negate hp ht hc hr he hst hm]
            simp [newEvents, statusRead, ctlEvent, mcwEvent, Event.isAnyWrData]
      · obtain ⟨b, r', hd⟩ := Ring.deq_of_wf hw he
        rw [txPhaseOp_of_byte hp ht hc hr hd]
        exact .inr (.inr (.inr ⟨rfl, rfl, he, b, by simp [newEvents]⟩))

/-- Settles O33, by the branches of TX_PHASE: the one that dequeues writes one byte, every other none. -/
theorem atMostOneByte : Obligations.AtMostOneByte := by
  unfold Obligations.AtMostOneByte
  intro s t p r hr hw h es v
  obtain ⟨hp, rfl⟩ := onPort_next h
  obtain ⟨ht, hes⟩ | ⟨ht, hc, hes⟩ | ⟨ht, hc, he, hes⟩ | ⟨ht, hc, hn, b, hes⟩ := txPhaseOp_newEvents hp hr hw
  · simp [es, v, ht, hes, statusRead, Event.isAnyWrData]
  · simp [es, v, ht, hc, hes, statusRead, ctlEvent, Event.isAnyWrData, Event.isCtl]
  · simp [es, v, ht, hc, hes, he]
  · simp [es, v, ht, hc, hes, hn, statusRead, ctlEvent, Event.isAnyWrData, List.filter_cons]

end Machine

end Sys2Proof
end

section
/-! PROOFS. Interrupt entry, the service loop of an activation and its return (R252, R253, R320, R326, R327). -/

namespace Sys2Proof

/-! ### The channel-local pending sets (R176) -/

/-- Three bits of a byte, as a byte. -/
theorem extractLsb'_three (v : Byte) (n : Nat) : (v.extractLsb' n 3).setWidth 8 = v >>> n &&& 7 := by
  apply BitVec.eq_of_toNat_eq
  rw [BitVec.toNat_setWidth, BitVec.extractLsb'_toNat, BitVec.toNat_and, BitVec.toNat_ushiftRight,
    Nat.mod_eq_of_lt (Nat.lt_trans (Nat.mod_lt _ (by decide)) (by decide))]
  exact (Nat.and_two_pow_sub_one_eq_mod _ 3).symm

namespace Machine

/-! ### Interrupt entry (R252, R320) -/

/-- `A_list` by the four properties of R252. -/
theorem aListOf_eq (v : Vec) (s : State) :
    aListOf v s = (List.range s.nports).filter fun a =>
      decide ((s.port a).cfg.vector = v ∧ (s.port a).cfg.ctrlPrimary = (s.port a).cfg.ctrlOwn
        ∧ (s.port a).cfg.mode = .interrupt ∧ (s.port a).life = .ready) := by
  refine List.filter_congr fun a _ => ?_
  rw [Bool.eq_iff_iff]
  simp [PortCfg.isChannelA, and_assoc]

theorem exec_isrEntry_offered {s : State} {v : Vec} (ho : s.offer = some v) (p : Byte) :
    exec (.isrEntry p) s
      = .next (if s.fault = none ∧ s.cpu = .task ∧ v ∈ s.vreg then enterIsr v { s with offer := none }
          else { s with offer := none }) := by
  simp only [exec, execIsrEntry, ho]

/-- Settles O36, by whether R320 enables the offer, and by the equation of `step` at ENV's choice. -/
theorem interruptEntry : Obligations.InterruptEntry := by
  unfold Obligations.InterruptEntry
  refine ⟨fun s p v ho => ⟨fun hf hc hv => ?_, fun hn => ?_⟩, fun s v hf hc hn => ?_, fun s hf hn => ?_⟩
  · rw [exec_isrEntry_offered ho, if_pos ⟨hf, hc, hv⟩, enterIsr, aListOf_eq]
    rfl
  · rw [exec_isrEntry_offered ho, if_neg hn]
  · simp only [step, hf, hn, hc]
  · simp only [step, hf, hn]

/-! ### The service loop (R252, R253) -/

/-- A step of the activation whose statement does not raise. -/
theorem step_isrStmt {s t : State} {k : IsrPc} {st : Stmt} {rest : List Stmt} (hf : s.fault = none) (hc : s.cpu = .isr)
    (hn : nextChoice s ≠ .sysUp) (hk : s.ipc = some k) (hs : k.stage = st :: rest)
    (h : isrStmt k st rest (takeChoice s) = .next t) (ht : t.fault = none) : step s = .next t := by
  rw [step_of_isr hf hc hn]
  simp only [stepIsr, takeChoice_ipc, hk, hs, h, holdIpc, ht, if_true]

theorem isrStmt_isrNext_some {k : IsrPc} {a : Nat} (h : k.aList[k.i]? = some a) (rest : List Stmt) (s : State) :
    isrStmt k .isrNext rest s = .next { s with ipc := some { k with
      stage := [.op (.getReg (BitVec.ofNat 8 a) .selPending), .serviceTest a, .isrNext] } } := by
  simp only [isrStmt, h]

theorem isrStmt_isrNext_none {k : IsrPc} (h : k.aList[k.i]? = none) (rest : List Stmt) (s : State) :
    isrStmt k .isrNext rest s = .next (leaveIsr k.v s) := by
  simp only [isrStmt, h]

theorem isrStmt_serviceTest {s : State} {v : Byte} (h : s.isrLat = .byte v) (k : IsrPc) (a : Nat) (rest : List Stmt) :
    isrStmt k (.serviceTest a) rest s = .next (serviceTest a k rest v s) := by
  simp only [isrStmt, h, MicroResult.toByte]

/-- The PROCESS of a channel with the pending set `bits`; none where the set is empty (R253). -/
def processOf (p : Nat) (bits : BitVec 3) : List Stmt :=
  if bits = 0 then [] else [.op (.process (BitVec.ofNat 8 p) (bits.setWidth 8))]

/-- With both sets empty, or A's where there is no partner, the activation goes on to the next port of its list. -/
theorem serviceTest_done {s : State} {a : Nat} {v : Byte} (k : IsrPc) (rest : List Stmt) (hA : s.par.chanA v = 0)
    (hB : ∀ b, partnerB a s = some b → s.par.chanB v = 0) :
    serviceTest a k rest v s = { s with ipc := some { k with i := k.i + 1, stage := rest } } := by
  unfold serviceTest
  cases hb : partnerB a s with
  | none => simp only [hA, and_self, if_true]
  | some b => simp only [hA, hB b hb, and_self, if_true]

theorem serviceTest_none {s : State} {a : Nat} {v : Byte} (k : IsrPc) (rest : List Stmt) (hb : partnerB a s = none)
    (hA : s.par.chanA v ≠ 0) :
    serviceTest a k rest v s = { s with ipc := some { k with
      stage := processOf a (s.par.chanA v)
        ++ ([.op (.getReg (BitVec.ofNat 8 a) .selPending), .serviceTest a] ++ rest) } } := by
  simp only [serviceTest, hb, hA, false_and, if_false, processOf, List.append_nil, List.append_assoc]

theorem serviceTest_some {s : State} {a b : Nat} {v : Byte} (k : IsrPc) (rest : List Stmt) (hb : partnerB a s = some b)
    (h : ¬(s.par.chanA v = 0 ∧ s.par.chanB v = 0)) :
    serviceTest a k rest v s = { s with ipc := some { k with
      stage := processOf a (s.par.chanA v) ++ processOf b (s.par.chanB v)
        ++ ([.op (.getReg (BitVec.ofNat 8 a) .selPending), .serviceTest a] ++ rest) } } := by
  simp only [serviceTest, hb, h, if_false, processOf, List.append_assoc]

/-- Settles O38, by the statement at the ISR micro-PC, and at the test by the partner and the two pending sets. -/
theorem serviceLoopAndReturn : Obligations.ServiceLoopAndReturn := by
  unfold Obligations.ServiceLoopAndReturn
  refine ⟨fun s k hf hc hn hk => ⟨fun hs a ha => ?_, fun hs hlen => ?_, fun a rest v hs hv => ?_⟩, fun par v => ?_⟩
  · exact step_isrStmt hf hc hn hk hs (isrStmt_isrNext_some ha _ _) hf
  · exact step_isrStmt hf hc hn hk hs (isrStmt_isrNext_none (List.getElem?_eq_none hlen) _ _) hf
  · intro setA again procA at_
    have hstep {t : State} (h : serviceTest a k rest v (takeChoice s) = t) (ht : t.fault = none) : step s = .next t :=
      h ▸ step_isrStmt hf hc hn hk hs (isrStmt_serviceTest (s := takeChoice s) hv k a rest) (h ▸ ht)
    have hprocA (hA : setA ≠ 0) : processOf a setA = procA := if_neg hA
    refine ⟨fun hb => ⟨fun hA => ?_, fun hA => ?_⟩, fun b hb => ?_⟩
    · exact hstep (serviceTest_done k rest hA fun b hb' => by cases hb.symm.trans hb') hf
    · rw [← hprocA hA]
      exact hstep (serviceTest_none k rest hb hA) hf
    · intro setB procB
      have hprocB (hB : setB ≠ 0) : processOf b setB = procB := if_neg hB
      have htest (h : ¬(setA = 0 ∧ setB = 0)) : step s = .next (at_ (processOf a setA ++ processOf b setB ++ again)) :=
        hstep (serviceTest_some k rest hb h) hf
      refine ⟨fun hA hB => ?_, fun hA hB => ?_, fun hA hB => ?_, fun hA hB => ?_⟩
      · exact hstep (serviceTest_done k rest hA fun _ _ => hB) hf
      · rw [htest fun h => hA h.1, hprocA hA, processOf, if_pos hB, List.append_nil]
      · rw [htest fun h => hB h.2, hprocB hB, processOf, if_pos hA, List.nil_append]
      · rw [htest fun h => hA h.1, hprocA hA, hprocB hB]
  · refine ⟨fun h => ?_, fun x h => ?_, fun h => ?_, fun x h => ?_⟩
    · rw [Params.chanA, h, Option.getD_none, extractLsb'_three]
    · rw [Params.chanA, h, Option.getD_some]
    · rw [Params.chanB, h, Option.getD_none, extractLsb'_three, BitVec.ushiftRight_zero]
    · rw [Params.chanB, h, Option.getD_some]

end Machine

end Sys2Proof
end

section
/-! PROOFS. What a step of an activation touches (R255, R99): each instruction an activation runs replaces the record of at most
one port, a serviced one, by a record with nothing changed but what the phases of PROCESS may change. -/

namespace Sys2Proof.Machine

open Sys2Proof

/-! ### The instructions of an activation -/

/-- The instructions an activation runs on port p (R253, R246). -/
inductive RunInIsr (p : Byte) : Instr → Prop
  | pendingRead : RunInIsr p (.getReg p .selPending)
  | process (bits : Byte) : RunInIsr p (.process p bits)
  | rxPhase : RunInIsr p (.rxPhase p)
  | txPhase : RunInIsr p (.txPhase p)
  | extPhase : RunInIsr p (.extPhase p)
  | eoi : RunInIsr p (.eoi p)

theorem stageOk_op {s : State} {i : Instr} {rest : List Stmt} (h : stageOk s (.op i :: rest) = true) :
    ∃ p : Byte, RunInIsr p i ∧ serviced s p.toNat = true := by
  unfold stageOk at h
  split at h
  case h_1 heq => cases heq
  case h_2 q a rest heq =>
    cases heq
    simp only [Bool.and_eq_true, beq_iff_eq] at h
    obtain ⟨⟨hq, ha⟩, -⟩ := h
    exact ⟨q, .pendingRead, hq ▸ ha⟩
  case h_8 => cases h
  all_goals
    rename_i heq
    cases heq
    obtain ⟨hq, -⟩ := Bool.and_eq_true_iff.mp h
    exact ⟨_, by constructor, hq⟩

theorem isrOk_op {s : State} {c : IsrPc} {i : Instr} {rest : List Stmt} (h : isrOk s = true) (hc : s.cpu = .isr)
    (hi : s.ipc = some c) (hs : c.stage = .op i :: rest) : ∃ p : Byte, RunInIsr p i ∧ serviced s p.toNat = true := by
  simp only [isrOk, hc, hi, hs, Bool.and_eq_true] at h
  obtain ⟨-, hstage⟩ := h
  exact stageOk_op hstage

/-! ### What the invariant says of a serviced port -/

theorem Inv.ring_wf {s : State} (h : Inv s) {p : Nat} (hp : p < s.nports) {r : Ring} (hr : (s.port p).rb = some r) :
    r.wf s.par.rbCap = true := by
  have hq := List.all_eq_true.mp h.rings _ (port_mem s hp)
  simpa only [hr] using hq

/-- A READY port has a shadow byte and a ring (R304). -/
theorem readyDefined_ready {q : Port} (h : readyDefined q = true) (hl : q.life = .ready) :
    (∃ m, q.mc = some m) ∧ ∃ r, q.rb = some r := by
  simp only [readyDefined, hl, bne_self_eq_false, Bool.false_or, Bool.and_eq_true] at h
  obtain ⟨⟨hm, -⟩, hr⟩ := h
  exact ⟨Option.isSome_iff_exists.mp hm, Option.isSome_iff_exists.mp hr⟩

theorem serviced_ready {s : State} {p : Nat} (h : serviced s p = true) : (s.port p).life = .ready := by
  simp only [serviced, Bool.and_eq_true, beq_iff_eq] at h
  exact h.1.2

theorem Inv.serviced_defined {s : State} (h : Inv s) {p : Nat} (hs : serviced s p = true) :
    (∃ m, (s.port p).mc = some m) ∧ ∃ r, (s.port p).rb = some r ∧ r.wf s.par.rbCap = true := by
  have hp := serviced_lt hs
  obtain ⟨hm, r, hr⟩ := readyDefined_ready (List.all_eq_true.mp h.ready _ (port_mem s hp)) (serviced_ready hs)
  exact ⟨hm, r, hr, h.ring_wf hp hr⟩

/-! ### What an activation can leave of a port's record -/

theorem TxLeaves.withIe (par : Params) (q : Port) (ie : IeImage) : TxLeaves par q { q with ie := ie } :=
  ⟨rfl, .inl rfl, .inl rfl, .inl rfl⟩

/-- Bytes handed up (R249), and what the transmit phase can leave; the other phases change the interrupt-enable image at
most. -/
def IsrLeaves (par : Params) (q q' : Port) : Prop := ∃ us, TxLeaves par { q with upq := q.upq ++ us } q'

theorem IsrLeaves.of_tx {par : Params} {q q' : Port} (h : TxLeaves par q q') : IsrLeaves par q q' :=
  ⟨[], by rwa [List.append_nil]⟩

theorem IsrLeaves.up (par : Params) (q : Port) (c : Byte) : IsrLeaves par q { q with upq := q.upq ++ [c] } :=
  ⟨[c], .withIe par _ q.ie⟩

theorem IsrLeaves.keeps {par : Params} {q q' : Port} (h : IsrLeaves par q q') :
    q'.cfg = q.cfg ∧ q'.prog = q.prog ∧ q'.life = q.life ∧ q'.res = q.res ∧ q'.tpc = q.tpc ∧ q'.hpc = q.hpc
      ∧ q.upq <+: q'.upq := by
  obtain ⟨us, hrest, -⟩ := h
  rw [hrest]
  exact ⟨rfl, rfl, rfl, rfl, rfl, rfl, List.prefix_append _ _⟩

/-- The ring loses at most the head of its queue (R154). -/
theorem IsrLeaves.queue {par : Params} {q q' : Port} (h : IsrLeaves par q q')
    (hw : ∀ r, q.rb = some r → r.wf par.rbCap = true) :
    q'.rb = q.rb ∨ ∃ r r' b, q.rb = some r ∧ q'.rb = some r' ∧ r.queue par.rbCap = some b :: r'.queue par.rbCap := by
  obtain ⟨us, -, hsame | ⟨r, r', b, hr, hr', hd⟩, -, -⟩ := h
  · exact .inl hsame
  · exact .inr ⟨r, r', b, hr, hr', Ring.queue_deq (hw r hr) hd⟩

/-- From `s` to `t` at most one port's record is replaced, a serviced one, and as `IsrLeaves` says; parameters, vector set and
`sys_up` are kept. -/
structure IsrKeeps (s t : State) : Prop where
  par   : t.par = s.par
  vreg  : t.vreg = s.vreg
  sysUp : t.sysUp = s.sysUp
  ports : t.ports = s.ports
    ∨ ∃ p q', serviced s p = true ∧ t.ports = s.ports.set p q' ∧ IsrLeaves s.par (s.port p) q'

theorem IsrKeeps.launch {s t : State} (h : IsrKeeps s t) : t.launch = s.launch := by
  obtain hsame | ⟨p, q', -, hset, hq⟩ := h.ports
  · simp only [State.launch, h.par, hsame]
  · obtain ⟨hcfg, hprog, -⟩ := hq.keeps
    refine Eq.trans ?_ (launch_upd (s := s) hcfg hprog [])
    simp only [State.launch, h.par, hset, upd_par, upd_ports]

theorem IsrKeeps.port {s t : State} (h : IsrKeeps s t) (p : Nat) :
    t.port p = s.port p ∨ serviced s p = true ∧ IsrLeaves s.par (s.port p) (t.port p) := by
  obtain hsame | ⟨r, q', hr, hset, hq⟩ := h.ports
  · exact .inl (port_congr hsame p)
  · have ht : t.port p = (s.setPort r q').port p := port_congr hset p
    rw [ht]
    by_cases hrp : r = p
    · subst hrp
      rw [port_setPort_same s r q' (serviced_lt hr)]
      exact .inr ⟨hr, hq⟩
    · exact .inl (port_setPort_ne s q' hrp)

/-! ### The instructions and the steps -/

section
variable {s t : State}

/-- In interrupt context entering a pseudocode moves the ISR micro-PC alone. -/
theorem pushStmts_ipc (hc : s.cpu = .isr) (i : Instr) (p : Nat) (l : List Stmt) :
    ∃ k, pushStmts i p l s = { s with ipc := k } := by
  simp only [pushStmts, hc]
  exact ⟨_, rfl⟩

theorem isrKeeps_rxTurn {p : Byte} (hc : s.cpu = .isr) (hs : serviced s p.toNat = true) : IsrKeeps s (rxTurn p s) := by
  unfold rxTurn
  dsimp only
  split
  · obtain ⟨k, hk⟩ := pushStmts_ipc
      (s := upOp p.toNat (nextByte (readStatus p.toNat s)) (readData p.toNat (readStatus p.toNat s))) hc (.rxPhase p)
      p.toNat [.op (.rxPhase p)]
    rw [hk]
    exact ⟨rfl, rfl, rfl, .inr ⟨_, _, hs, rfl, .up _ _ _⟩⟩
  · exact ⟨rfl, rfl, rfl, .inl rfl⟩

/-- An instruction of an activation on a serviced port whose shadow byte is written and whose ring meets R43. -/
theorem isrKeeps_exec {p : Byte} {i : Instr} (hc : s.cpu = .isr) (hi : RunInIsr p i) (hs : serviced s p.toNat = true)
    {m : Byte} {r : Ring} (hm : (s.port p.toNat).mc = some m) (hr : (s.port p.toNat).rb = some r)
    (hw : r.wf s.par.rbCap = true) (h : exec i s = .next t) : IsrKeeps s t := by
  have hp := serviced_lt hs
  cases hi with
  | pendingRead =>
    rw [exec_getReg hp rfl, setLat_isr (s := busRdReg _ _ s) hc] at h
    obtain rfl := Host.Outcome.next.inj h
    exact ⟨rfl, rfl, rfl, .inl rfl⟩
  | process bits =>
    obtain ⟨-, rfl⟩ := onPort_next h
    obtain ⟨k, hk⟩ := pushStmts_ipc (s := { s with pbits := bits.extractLsb' 0 3 }) hc (.process p bits) p.toNat
      [.op (.rxPhase p), .op (.txPhase p), .op (.extPhase p), .op (.eoi p)]
    rw [hk]
    exact ⟨rfl, rfl, rfl, .inl rfl⟩
  | rxPhase =>
    obtain ⟨-, rfl⟩ := onPort_next h
    split
    · exact isrKeeps_rxTurn hc hs
    · exact ⟨rfl, rfl, rfl, .inl rfl⟩
  | txPhase =>
    obtain ⟨-, rfl⟩ := onPort_next h
    obtain ⟨q', es, htx, hq⟩ := txPhaseOp_leaves hp hr hw hm
    rw [htx]
    exact ⟨rfl, rfl, rfl, .inr ⟨_, _, hs, rfl, .of_tx hq⟩⟩
  | extPhase =>
    obtain ⟨-, rfl⟩ := onPort_next h
    split
    · exact ⟨rfl, rfl, rfl, .inr ⟨_, _, hs, rfl, .of_tx (.withIe _ _ _)⟩⟩
    · exact ⟨rfl, rfl, rfl, .inl rfl⟩
  | eoi =>
    obtain ⟨-, rfl⟩ := onPort_next h
    exact ⟨rfl, rfl, rfl, .inr ⟨_, _, hs, rfl, .of_tx (.withIe _ _ _)⟩⟩

/-- A read of the pending register leads to a position of the ISR micro-PC and to nothing else (R253). -/
theorem serviceTest_ipc (a : Nat) (c : IsrPc) (rest : List Stmt) (v : Byte) (s : State) :
    ∃ k, serviceTest a c rest v s = { s with ipc := some k } := by
  unfold serviceTest
  dsimp only
  exact (em _).elim (fun h => ⟨_, if_pos h⟩) fun h => ⟨_, if_neg h⟩

theorem isrKeeps_isrStmt {c : IsrPc} {st : Stmt} {rest : List Stmt} (hinv : Inv s) (hc : s.cpu = .isr)
    (hi : s.ipc = some c) (hs : c.stage = st :: rest) (h : isrStmt c st rest (takeChoice s) = .next t) : IsrKeeps s t := by
  cases st with
  | op i =>
    obtain ⟨p, hrun, hserv⟩ := isrOk_op hinv.isr hc hi hs
    obtain ⟨⟨m, hm⟩, r, hr, hw⟩ := hinv.serviced_defined hserv
    obtain ⟨hpar, hv, hu, hports⟩ :=
      isrKeeps_exec (s := { takeChoice s with ipc := some { c with stage := rest } }) hc hrun hserv hm hr hw h
    exact ⟨hpar, hv, hu, hports⟩
  | isrNext =>
    simp only [isrStmt] at h
    split at h
    · obtain rfl := Host.Outcome.next.inj h
      exact ⟨rfl, rfl, rfl, .inl rfl⟩
    · obtain rfl := Host.Outcome.next.inj h
      exact ⟨rfl, rfl, rfl, .inl rfl⟩
  | serviceTest a =>
    simp only [isrStmt] at h
    split at h
    next v _ =>
      obtain ⟨k, hk⟩ := serviceTest_ipc a c rest v (takeChoice s)
      obtain rfl := Host.Outcome.next.inj (hk ▸ h)
      exact ⟨rfl, rfl, rfl, .inl rfl⟩
    next => cases h
  | start | allocTest | baud | initReady | ret | flushTest | writeByte | fullTest | kickTest | enqueue | pollByte | putTest
  | readTest | retByte => cases h

/-- A step in interrupt context: `sys_up` rises, or the activation steps. -/
theorem isrKeeps_step (hinv : Inv s) (hc : s.cpu = .isr) (h : step s = .next t) :
    IsrKeeps s t ∨ nextChoice s = .sysUp ∧ t = { takeChoice s with sysUp := true } := by
  obtain ⟨-, hu | ⟨-, htask, -⟩ | ⟨_, _, -, htask, -⟩ | ⟨_, _, -, htask, -⟩ | ⟨_, _, _, _, -, htask, -⟩ | ⟨_, -, htask, -⟩
    | ⟨c, st, rest, -, -, hi, hs, hx⟩⟩ := step_cases h
  · exact .inr hu
  · cases hc.symm.trans htask
  · cases hc.symm.trans htask
  · cases hc.symm.trans htask
  · cases hc.symm.trans htask
  · cases hc.symm.trans htask
  · obtain ⟨u, hu, hres⟩ := holdIpc_next hx
    have hk := isrKeeps_isrStmt hinv hc hi hs hu
    obtain ⟨-, rfl⟩ | ⟨-, rfl⟩ := hres
    · exact .inl hk
    · exact .inl ⟨hk.par, hk.vreg, hk.sysUp, hk.ports⟩

end

/-- Settles O59, by whether `sys_up` rises or the activation steps: its step replaces the record of one serviced port at
most. -/
theorem activationFrame : Obligations.ActivationFrame := by
  unfold Obligations.ActivationFrame
  intro s t hinv hc h
  obtain hk | ⟨hu, rfl⟩ := isrKeeps_step hinv hc h
  · refine ⟨hk.vreg, .inl hk.sysUp, hk.launch, fun p => ?_⟩
    obtain hsame | ⟨hs, hq⟩ := hk.port p
    · simp [hsame]
    · obtain ⟨-, -, hl, hr, ht, hh, hup⟩ := hq.keeps
      have hring := hq.queue fun r hr => hinv.ring_wf (serviced_lt hs) hr
      obtain ⟨us, -, -, htx, hmc⟩ := hq
      exact ⟨fun hn => absurd (hs.symm.trans hn) (by decide), hl, hr, ht, hh, hup, htx, hmc, hring⟩
  · exact ⟨rfl, .inr hu, rfl, fun p => ⟨fun _ => rfl, rfl, rfl, rfl, rfl, List.prefix_refl _, .inl rfl, .inl rfl, .inl rfl⟩⟩

end Sys2Proof.Machine
end

section
/-! PROOFS. The lifecycle and I/O commands one statement at a time (R271 to R296): where each command's pseudocode begins, and
what TASK(p) does at each test, loop head and micro-operation of it. -/

namespace Sys2Proof.Machine

open Sys2Proof

/-! ### WAIT (R296) -/

theorem exec_wait {s : State} {p : Byte} (hp : p.toNat < s.nports) :
    exec (.wait p) s = .next (emit (if s.sysUp then .yield p.toNat else .spin p.toNat) s) :=
  onPort_of_lt hp _

/-- Settles O50: the wait on a configured port is one event. -/
theorem waitOnlyTraces : Obligations.WaitOnlyTraces := by
  unfold Obligations.WaitOnlyTraces
  intro s p hp
  exact exec_wait hp

/-! ### Where a command's pseudocode begins -/

/-- On a READY port of configuration c the command passes its checks and is at the statements `body`; nothing else changes. -/
def Enters (i : Instr) (c : PortCfg) (body : List Stmt) : Prop :=
  ∀ s : State, i.port.toNat < s.nports → (s.port i.port.toNat).life = .ready → (s.port i.port.toNat).cfg = c →
    exec i s = .next (setTpc i.port.toNat (.inCmd i body) s)

theorem modeFault_none {m : Mode} {q : Port} (h : q.cfg.mode = m) : modeFault m q = none := if_pos h

theorem firstFault_none {a b : Option FaultCode} (ha : a = none) (hb : b = none) : firstFault a b = none := by
  rw [ha, hb, firstFault]

theorem onHost_beginCmd {s : State} {p : Byte} (hp : p.toNat < s.nports) {chk : Option FaultCode} (hchk : chk = none)
    (i : Instr) (op : Byte) (body : List Stmt) :
    onHost p op s (beginCmd i p.toNat chk body s) = .next (setTpc p.toNat (.inCmd i body) s) := by
  rw [onHost_of_lt hp, hchk, beginCmd]

/-- The statements of OPEN and CLOSE (R272, R273): the DTR line operation `op` but under DTRCTS (R227), then the return. -/
def dtrBody (c : PortCfg) (op : Instr) : List Stmt :=
  (if c.strategy = .dtrcts then [] else [.op op]) ++ [.ret (.int 0)]

theorem dtrBody_eq (c : PortCfg) (op : Instr) :
    (if dtrCond c then [.op op] else []) ++ [.ret (.int 0)] = dtrBody c op := by
  simp only [dtrBody, dtrCond, bne_iff_ne, ne_eq, ite_not]

theorem enters_openPort (p : Byte) (c : PortCfg) : Enters (.openPort p) c (dtrBody c (.assertDtr p)) := by
  rintro s hp hl rfl
  rw [← dtrBody_eq]
  exact onHost_beginCmd hp (lifeFault_ready hl) _ _ _

theorem enters_closePort (p : Byte) (c : PortCfg) : Enters (.closePort p) c (dtrBody c (.negateDtr p)) := by
  rintro s hp hl rfl
  rw [← dtrBody_eq]
  exact onHost_beginCmd hp (lifeFault_ready hl) _ _ _

theorem enters_flush (p : Byte) (c : PortCfg) :
    Enters (.flush p) c ([.op (.rbIsEmpty p), .flushTest] ++ dtrBody c (.negateDtr p)) := by
  rintro s hp hl rfl
  rw [← dtrBody_eq]
  exact onHost_beginCmd hp (lifeFault_ready hl) _ _ _

theorem enters_writePolled (p b : Byte) (c : PortCfg) :
    Enters (.writePolled p b) c [.op (.getReg p .selStatus), .putTest b, .ret (.int 0)] :=
  fun _ hp hl _ => onHost_beginCmd hp (lifeFault_ready hl) _ _ _

theorem enters_setAttr (p : Byte) (c : PortCfg) : Enters (.setAttr p) c [.ret (.int 0)] :=
  fun _ hp hl _ => onHost_beginCmd hp (lifeFault_ready hl) _ _ _

section
variable {c : PortCfg}

theorem enters_writeInt (hm : c.mode = .interrupt) (p : Byte) (xs : List Byte) :
    Enters (.writeInt p xs) c [.writeByte 0] := by
  rintro s hp hl rfl
  exact onHost_beginCmd hp (firstFault_none (lifeFault_ready hl) (modeFault_none hm)) _ _ _

theorem enters_writePoll (hm : c.mode = .polled) (p : Byte) (xs : List Byte) :
    Enters (.writePoll p xs) c [.pollByte 0] := by
  rintro s hp hl rfl
  exact onHost_beginCmd hp (firstFault_none (lifeFault_ready hl) (modeFault_none hm)) _ _ _

theorem enters_readPolled (hm : c.mode = .polled) (p : Byte) :
    Enters (.readPolled p) c [.op (.getReg p .selStatus), .readTest] := by
  rintro s hp hl rfl
  exact onHost_beginCmd hp (firstFault_none (lifeFault_ready hl) (modeFault_none hm)) _ _ _

end

/-- Settles O41, command by command. -/
theorem commandsEnterTheirPseudocode : Obligations.CommandsEnterTheirPseudocode := by
  unfold Obligations.CommandsEnterTheirPseudocode
  intro s p b xs hp hl q entered dtr
  exact ⟨enters_openPort p q.cfg s hp hl rfl, enters_closePort p q.cfg s hp hl rfl, enters_flush p q.cfg s hp hl rfl,
    enters_writePolled p b q.cfg s hp hl rfl, fun hm => enters_writeInt hm p xs s hp hl rfl,
    fun hm => ⟨enters_writePoll hm p xs s hp hl rfl, enters_readPolled hm p s hp hl rfl⟩⟩

/-! ### The ring and the kick, from a view to a view -/

section
variable {s : State} {p : Nat} {q : Port} {es : List Event} {e : Env} {r r' : Ring} {m b : Byte} (hp : p < s.nports)
include hp

theorem view_rbEnqOp (hr : q.rb = some r) (he : r.enq s.par.rbCap b = some r') :
    rbEnqOp p b (s.view p q es e) = .pure true (s.view p { q with rb := some r' } es e) := by
  rw [rbEnqOp_some (s := s.view p q es e) (r := r) (by rwa [view_port hp]) he, view_port hp, view_upd, List.append_nil]

variable (hr : q.rb = some r) (hd : r.deq s.par.rbCap = .ok b r') (ht : s.par.tbe e.byte = true)
  (hcts : s.par.cts e.byte = true)
include hr hd ht hcts

/-- The transmit phase with a byte in the ring and a peer that is ready sends it (R242). -/
theorem view_txPhaseOp_sends :
    txPhaseOp p (s.view p q es e)
      = .pure () (s.view p { q with rb := some r', ie := q.ie.apply .txintEn }
          (es ++ [.rdReg q.cfg.ctrlOwn s.par.selStatus e.byte, .wrData q.cfg.dataAddr b,
            ctlEvent s.par q.cfg .txintEn 0]) e.afterByte) := by
  rw [txPhaseOp_of_byte (s := s.view p q es e) (r := r) (by rwa [view_nports]) ht hcts (by rwa [view_port hp]) hd,
    view_takeByte, view_upd, statusRead, view_port hp, view_par, view_nextByte]

/-- KICK of an idle transmitter with a byte in its ring and a peer that is ready: RTS is asserted, the byte leaves (R256). -/
theorem view_kickOp_sends (ha : q.txActive = some false) (hm : q.mc = some m) :
    kickOp p (s.view p q es e)
      = .pure true (s.view p { q with
            mc := some (m ||| s.par.mcRts), txActive := some true, rb := some r', ie := q.ie.apply .txintEn }
          (es ++ [mcwEvent s.par q.cfg (m ||| s.par.mcRts), .rdReg q.cfg.ctrlOwn s.par.selStatus e.byte,
            .wrData q.cfg.dataAddr b, ctlEvent s.par q.cfg .txintEn 0]) e.afterByte) := by
  rw [kickOp_inactive (s := s.view p q es e) (m := m) (by rwa [view_nports]) (by rwa [view_port hp])
    (by rwa [view_port hp]), view_upd, view_port hp, view_par,
    view_txPhaseOp_sends (q := { q with mc := _, txActive := some true }) hp hr hd ht hcts, Flow.pure_andThen,
    List.append_assoc]
  rfl

end

/-! ### The statements, from a view to a view -/

section
variable {s : State} {p : Byte} {q : Port} {es : List Event} {e : Env} {cmd : Instr} {rest : List Stmt}
variable (hp : p.toNat < s.nports)
include hp

theorem taskStmt_ret {r : Res} :
    taskStmt p.toNat cmd (.ret r) rest (s.view p.toNat q es e)
      = .next (s.view p.toNat { q with res := some r, tpc := .idle } (es ++ [.ret p.toNat cmd.op r]) e) := by
  rw [taskStmt, view_returnOp hp]

theorem taskStmt_flushTest_empty (hl : q.lat = .bool true) :
    taskStmt p.toNat cmd .flushTest rest (s.view p.toNat q es e) = .next (s.view p.toNat q es e) := by
  simp only [taskStmt, view_port hp, hl, MicroResult.toBool]

theorem taskStmt_flushTest_waits (hl : q.lat = .bool false) :
    taskStmt p.toNat cmd .flushTest rest (s.view p.toNat q es e)
      = .next (s.view p.toNat
          { q with tpc := .inCmd cmd ([.op (.wait p), .op (.rbIsEmpty p), .flushTest] ++ rest) } es e) := by
  simp only [taskStmt, view_port hp, hl, MicroResult.toBool, view_setTpc hp, BitVec.ofNat_toNat, BitVec.setWidth_eq]

theorem taskStmt_writeByte_lt {k : Nat} (hk : k < cmd.payload.length) :
    taskStmt p.toNat cmd (.writeByte k) rest (s.view p.toNat q es e)
      = .next (s.view p.toNat { q with tpc := .inCmd cmd ([.op (.rbIsFull p), .fullTest k] ++ rest) } es e) := by
  simp only [taskStmt, if_pos hk, view_setTpc hp, BitVec.ofNat_toNat, BitVec.setWidth_eq]

theorem taskStmt_writeByte_ge {k : Nat} (hk : cmd.payload.length ≤ k) :
    taskStmt p.toNat cmd (.writeByte k) rest (s.view p.toNat q es e)
      = .next (s.view p.toNat
          { q with tpc := .inCmd cmd ([.op (.kick p), .ret (.int cmd.payload.length)] ++ rest) } es e) := by
  simp only [taskStmt, if_neg (Nat.not_lt.mpr hk), view_setTpc hp, BitVec.ofNat_toNat, BitVec.setWidth_eq]

theorem taskStmt_fullTest_room {k : Nat} (hl : q.lat = .bool false) :
    taskStmt p.toNat cmd (.fullTest k) rest (s.view p.toNat q es e)
      = .next (s.view p.toNat { q with tpc := .inCmd cmd (.enqueue k :: rest) } es e) := by
  simp only [taskStmt, view_port hp, hl, MicroResult.toBool, view_setTpc hp]

theorem taskStmt_fullTest_full {k : Nat} (hl : q.lat = .bool true) :
    taskStmt p.toNat cmd (.fullTest k) rest (s.view p.toNat q es e)
      = .next (s.view p.toNat { q with tpc := .inCmd cmd ([.op (.kick p), .kickTest k] ++ rest) } es e) := by
  simp only [taskStmt, view_port hp, hl, MicroResult.toBool, view_setTpc hp, BitVec.ofNat_toNat, BitVec.setWidth_eq]

theorem taskStmt_kickTest_busy {k : Nat} (hl : q.lat = .busy) :
    taskStmt p.toNat cmd (.kickTest k) rest (s.view p.toNat q es e)
      = .next (s.view p.toNat
          { q with tpc := .inCmd cmd ([.op (.wait p), .op (.rbIsFull p), .fullTest k] ++ rest) } es e) := by
  simp only [taskStmt, view_port hp, if_pos hl, view_setTpc hp, BitVec.ofNat_toNat, BitVec.setWidth_eq]

theorem taskStmt_kickTest_kicked {k : Nat} (hl : q.lat ≠ .busy) :
    taskStmt p.toNat cmd (.kickTest k) rest (s.view p.toNat q es e)
      = .next (s.view p.toNat { q with tpc := .inCmd cmd ([.op (.rbIsFull p), .fullTest k] ++ rest) } es e) := by
  simp only [taskStmt, view_port hp, if_neg hl, view_setTpc hp, BitVec.ofNat_toNat, BitVec.setWidth_eq]

theorem taskStmt_pollByte_lt {k : Nat} (hk : k < cmd.payload.length) :
    taskStmt p.toNat cmd (.pollByte k) rest (s.view p.toNat q es e)
      = .next (s.view p.toNat { q with
          tpc := .inCmd cmd (polledPut p (cmd.payload.getD k 0) ++ .pollByte (k + 1) :: rest) } es e) := by
  simp only [taskStmt, if_pos hk, view_setTpc hp, BitVec.ofNat_toNat, BitVec.setWidth_eq]

theorem taskStmt_pollByte_ge {k : Nat} (hk : cmd.payload.length ≤ k) :
    taskStmt p.toNat cmd (.pollByte k) rest (s.view p.toNat q es e)
      = .next (s.view p.toNat { q with res := some (.int cmd.payload.length), tpc := .idle }
          (es ++ [.ret p.toNat cmd.op (.int cmd.payload.length)]) e) := by
  simp only [taskStmt, if_neg (Nat.not_lt.mpr hk), view_returnOp hp]

theorem taskStmt_putTest_tbe {v b : Byte} (hl : q.lat = .byte v) (hv : s.par.tbe v = true) :
    taskStmt p.toNat cmd (.putTest b) rest (s.view p.toNat q es e)
      = .next (s.view p.toNat { q with tpc := .inCmd cmd (.op (.setData p b) :: rest) } es e) := by
  simp only [taskStmt, view_port hp, view_par, hl, MicroResult.toByte, if_pos hv, view_setTpc hp, BitVec.ofNat_toNat,
    BitVec.setWidth_eq]

theorem taskStmt_putTest_waits {v b : Byte} (hl : q.lat = .byte v) (hv : ¬s.par.tbe v = true) :
    taskStmt p.toNat cmd (.putTest b) rest (s.view p.toNat q es e)
      = .next (s.view p.toNat { q with tpc := .inCmd cmd (.op (.wait p) :: polledPut p b ++ rest) } es e) := by
  simp only [taskStmt, view_port hp, view_par, hl, MicroResult.toByte, if_neg hv, view_setTpc hp, BitVec.ofNat_toNat,
    BitVec.setWidth_eq]

theorem taskStmt_readTest_rca {v : Byte} (hl : q.lat = .byte v) (hv : s.par.rca v = true) :
    taskStmt p.toNat cmd .readTest rest (s.view p.toNat q es e)
      = .next (s.view p.toNat { q with tpc := .inCmd cmd ([.op (.getData p), .retByte] ++ rest) } es e) := by
  simp only [taskStmt, view_port hp, view_par, hl, MicroResult.toByte, if_pos hv, view_setTpc hp, BitVec.ofNat_toNat,
    BitVec.setWidth_eq]

theorem taskStmt_readTest_none {v : Byte} (hl : q.lat = .byte v) (hv : ¬s.par.rca v = true) :
    taskStmt p.toNat cmd .readTest rest (s.view p.toNat q es e)
      = .next (s.view p.toNat { q with res := some (.int (-1)), tpc := .idle }
          (es ++ [.ret p.toNat cmd.op (.int (-1))]) e) := by
  simp only [taskStmt, view_port hp, view_par, hl, MicroResult.toByte, if_neg hv, view_returnOp hp]

theorem taskStmt_retByte {v : Byte} (hl : q.lat = .byte v) :
    taskStmt p.toNat cmd .retByte rest (s.view p.toNat q es e)
      = .next (s.view p.toNat { q with res := some (.int v.toNat), tpc := .idle }
          (es ++ [.ret p.toNat cmd.op (.int v.toNat)]) e) := by
  simp only [taskStmt, view_port hp, hl, MicroResult.toByte, view_returnOp hp]

variable (hc : s.cpu = .task)
include hc

theorem taskStmt_rbIsEmpty {r : Ring} (hr : q.rb = some r) :
    taskStmt p.toNat cmd (.op (.rbIsEmpty p)) rest (s.view p.toNat q es e)
      = .next (s.view p.toNat { q with lat := .bool r.isEmpty } es e) := by
  rw [taskStmt, exec_rbIsEmpty (by rwa [view_nports]), rbIsEmptyOp_some (r := r) (by rwa [view_port hp]), Flow.pure_toLat,
    view_setLat hc hp]

theorem taskStmt_rbIsFull {r : Ring} (hr : q.rb = some r) :
    taskStmt p.toNat cmd (.op (.rbIsFull p)) rest (s.view p.toNat q es e)
      = .next (s.view p.toNat { q with lat := .bool (r.isFull s.par.rbCap) } es e) := by
  rw [taskStmt, exec_rbIsFull (by rwa [view_nports]), rbIsFullOp_some (r := r) (by rwa [view_port hp]), Flow.pure_toLat,
    view_setLat hc hp, view_par]

/-- The enqueue of R283 on a ring with room. -/
theorem taskStmt_enqueue (hf : s.fault = none) {r r' : Ring} {k : Nat} (hr : q.rb = some r)
    (he : r.enq s.par.rbCap (cmd.payload.getD k 0) = some r') :
    taskStmt p.toNat cmd (.enqueue k) rest (s.view p.toNat q es e)
      = .next (s.view p.toNat
          { q with tpc := .inCmd cmd (.writeByte (k + 1) :: rest), rb := some r', lat := .ok } es e) := by
  have hx : exec (.rbEnq p (cmd.payload.getD k 0)) (s.view p.toNat q es e)
      = .next (s.view p.toNat { q with rb := some r', lat := .ok } es e) := by
    rw [exec_rbEnq (by rwa [view_nports]), view_rbEnqOp hp hr he, Flow.pure_toLat, view_setLat hc hp]
    rfl
  simp only [taskStmt, BitVec.ofNat_toNat, BitVec.setWidth_eq, hx, view_fault, hf, if_true, view_port hp, reduceCtorEq,
    if_false, view_setTpc hp]

/-- The KICK of R283 that finds the transmitter idle, a byte in the ring and a peer that is ready. -/
theorem taskStmt_kick_sends {r r' : Ring} {m b : Byte} (ha : q.txActive = some false) (hm : q.mc = some m)
    (hr : q.rb = some r) (hd : r.deq s.par.rbCap = .ok b r') (ht : s.par.tbe e.byte = true)
    (hcts : s.par.cts e.byte = true) :
    taskStmt p.toNat cmd (.op (.kick p)) rest (s.view p.toNat q es e)
      = .next (s.view p.toNat { q with
            mc := some (m ||| s.par.mcRts), txActive := some true, rb := some r', ie := q.ie.apply .txintEn
            lat := .kicked }
          (es ++ [mcwEvent s.par q.cfg (m ||| s.par.mcRts), .rdReg q.cfg.ctrlOwn s.par.selStatus e.byte,
            .wrData q.cfg.dataAddr b, ctlEvent s.par q.cfg .txintEn 0]) e.afterByte) := by
  rw [taskStmt, exec_kick (by rwa [view_nports]), view_kickOp_sends hp hr hd ht hcts ha hm, Flow.pure_toLat,
    view_setLat hc hp]
  rfl

end

/-! ### One step from any state -/

/-- What a TASK step without an event leaves: the choice is used up and the record of port p replaced. -/
theorem view_afterChoice_nil (s : State) (p : Nat) (q : Port) :
    s.view p q [] s.env.afterChoice = { takeChoice s with cur := p, ports := s.ports.set p q } := by
  simp only [State.view, State.upd, List.append_nil]
  rfl

section
variable {s : State} {p : Byte} {cmd : Instr} {st : Stmt} {rest : List Stmt}
variable (hp : p.toNat < s.nports) (hf : s.fault = none) (hc : s.cpu = .task) (hn : nextChoice s = .task p.toNat)
include hp hf hc hn

/-- A TASK step inside a command, when the statement does not raise. -/
theorem step_taskStmt (ht : (s.port p.toNat).tpc = .inCmd cmd (st :: rest)) {q' : Port} {es' : List Event} {e' : Env}
    (hx : taskStmt p.toNat cmd st rest
        (s.view p.toNat { s.port p.toNat with tpc := .inCmd cmd rest } [] s.env.afterChoice)
      = .next (s.view p.toNat q' es' e')) : step s = .next (s.view p.toNat q' es' e') := by
  rw [step_of_task hf hc hn, stepTask_inCmd hp ht]
  refine (congrArg (holdPc p.toNat (takeChoice s)) hx).trans ?_
  exact if_pos hf

/-- A TASK step that appends no event. -/
theorem step_taskStmt_silent (ht : (s.port p.toNat).tpc = .inCmd cmd (st :: rest)) {q' : Port}
    (hx : taskStmt p.toNat cmd st rest
        (s.view p.toNat { s.port p.toNat with tpc := .inCmd cmd rest } [] s.env.afterChoice)
      = .next (s.view p.toNat q' [] s.env.afterChoice)) :
    step s = .next { takeChoice s with cur := p.toNat, ports := s.ports.set p.toNat q' } := by
  rw [step_taskStmt hp hf hc hn ht hx, view_afterChoice_nil]

end

/-- Settles O45, by the statement at the micro-PC. -/
theorem writeIntLoop : Obligations.WriteIntLoop := by
  unfold Obligations.WriteIntLoop
  intro s p cmd k hp hf hc hn q n at_
  refine ⟨fun ht hk => ?_, fun ht hk => ?_, fun ht hl => ?_, fun ht hl => ?_, fun ht hl => ?_, fun ht hl => ?_,
    fun ht r hr hroom => ?_, fun r rest ht => ?_⟩
  · exact step_taskStmt_silent hp hf hc hn ht (taskStmt_writeByte_lt hp hk)
  · exact step_taskStmt_silent hp hf hc hn ht (taskStmt_writeByte_ge hp hk)
  · exact step_taskStmt_silent hp hf hc hn ht (taskStmt_fullTest_room hp hl)
  · exact step_taskStmt_silent hp hf hc hn ht (taskStmt_fullTest_full hp hl)
  · exact step_taskStmt_silent hp hf hc hn ht (taskStmt_kickTest_busy hp hl)
  · exact step_taskStmt_silent hp hf hc hn ht (taskStmt_kickTest_kicked hp hl)
  · exact step_taskStmt_silent hp hf hc hn ht (taskStmt_enqueue hp hc hf hr (Ring.enq_of_room hroom _))
  · exact step_taskStmt hp hf hc hn ht (taskStmt_ret hp)

/-- Settles O47, by the status byte at the test and by the byte's place in the payload. (`polledPut` is the model's.) -/
theorem polledPutWaitsForTbe : Obligations.PolledPut := by
  unfold Obligations.PolledPut
  intro s p b v cmd rest hp hf hc hn q at_
  refine ⟨fun ht hl hv => ?_, fun ht hl hv => ?_, fun k ht hk => ?_, fun k ht hk => ?_⟩
  · exact step_taskStmt_silent hp hf hc hn ht (taskStmt_putTest_tbe hp hl ((s.par.tbe_iff v).mpr hv))
  · exact step_taskStmt_silent hp hf hc hn ht (taskStmt_putTest_waits hp hl fun h => (s.par.tbe_iff v).mp h hv)
  · exact step_taskStmt_silent hp hf hc hn ht (taskStmt_pollByte_lt hp hk)
  · exact step_taskStmt hp hf hc hn ht (taskStmt_pollByte_ge hp hk)

end Sys2Proof.Machine
end

section
/-! PROOFS. The lifecycle and I/O commands run without interruption (R271 to R291): each from its decode step to its return, the
checks and the entry once for all of them, the end of OPEN, CLOSE and FLUSH once for the three. -/

namespace Sys2Proof.Machine

open Sys2Proof

/-! ### From the decode step to the pseudocode -/

/-- The record of a port whose command `i` is at the statements `l`, one command further in its program. -/
def Port.inside (q : Port) (i : Instr) (l : List Stmt) : Port := { q with tpc := .inCmd i l, hpc := q.hpc + 1 }

/-- A host command of port p whose word the decoder reads back (R113, R112). -/
structure IsHost (i : Instr) (p : Byte) : Prop where
  port : i.port = p
  op   : i.op.toNat ≤ 0x0D
  wf   : i.wf = true

section
variable {s : State} {i : Instr} {p : Byte} (h : AboutToRun i s) (hi : IsHost i p)
include h hi

theorem AboutToRun.idle_at : (s.port p.toNat).tpc = .idle := hi.port ▸ h.idle

theorem AboutToRun.lt : p.toNat < s.nports := hi.port ▸ h.isPort

/-- The decode step of a host command. -/
theorem run_hostDecode (n : Nat) (hs : s.env.Gives p.toNat 1) :
    run (n + 1) s = run n (s.view p.toNat ((s.port p.toNat).inside i [.start]) [] (s.env.taken 1)) :=
  run_decode h hi.port (nextChoice_head _ hs.head) (hostWordFault_encode hi.op) (decode_ofBytes_encode hi.wf)

/-- The decode step and the checks of a command on a READY port: it is at the first statement of its pseudocode. -/
theorem run_enter {body : List Stmt} (he : Enters i (s.port p.toNat).cfg body) (hl : (s.port p.toNat).life = .ready)
    (n : Nat) (hs : s.env.Gives p.toNat 2) :
    run (n + 2) s = run n (s.view p.toNat ((s.port p.toNat).inside i body) [] (s.env.taken 2)) := by
  have hp := h.lt hi
  refine (run_hostDecode h hi (n + 1) (hs.taken 0 (by decide))).trans ?_
  refine run_start h.noFault h.task hp (hs.taken 1 (m := 1) (by decide)).head rfl ?_
  obtain rfl := hi.port
  rw [he _ (by rwa [view_nports]) (by rw [view_port hp]; exact hl) (by rw [view_port hp]; rfl), view_setTpc hp]
  rfl

end

/-! ### PROBE and SET_ATTR (R271, R291) -/

theorem exec_probe {s : State} {p : Byte} (hp : p.toNat < s.nports) :
    exec (.probe p) s = .next (returnOp p.toNat 0x01 (.int 1) s) :=
  onHost_of_lt hp _ _

theorem isHost_probe (p : Byte) : IsHost (.probe p) p := ⟨rfl, by simp [Instr.op], rfl⟩
theorem isHost_setAttr (p : Byte) : IsHost (.setAttr p) p := ⟨rfl, by simp [Instr.op], rfl⟩

theorem run_probe {s : State} {p : Byte} {cs : List Choice} (h : AboutToRun (.probe p) s) (hch : chosen p.toNat 2 cs s) :
    run 2 s = .next (s.view p.toNat
      { s.port p.toNat with res := some (.int 1), tpc := .idle, hpc := (s.port p.toNat).hpc + 1 }
      [.ret p.toNat 0x01 (.int 1)] (envAfter 2 0 cs s)) := by
  have hp : p.toNat < s.nports := h.isPort
  have hs : s.env.Gives p.toNat 2 := gives_of_chosen hch
  rw [← taken_of_chosen hch]
  refine (run_hostDecode h (isHost_probe p) 1 (hs.taken 0 (by decide))).trans ?_
  refine run_start (n := 0) h.noFault h.task hp (hs.taken 1 (m := 1) (by decide)).head rfl ?_
  rw [exec_probe (by rwa [view_nports]), view_returnOp hp]
  rfl

/-- Settles O40: PROBE returns at its start, SET_ATTR at the statement after it. -/
theorem probeAndSetAttr : Obligations.ProbeAndSetAttr := by
  unfold Obligations.ProbeAndSetAttr
  refine ⟨fun s p hp => ⟨exec_probe hp, fun hl => enters_setAttr p _ s hp hl rfl⟩, ?_⟩
  intro s p cs q returned
  refine ⟨fun h hch => ?_, fun h hch hl => ?_⟩
  · rw [run_probe h hch, ← h.idle]
    rfl
  · have hp : p.toNat < s.nports := h.isPort
    have hs : s.env.Gives p.toNat 3 := gives_of_chosen hch
    refine (run_enter h (isHost_setAttr p) (enters_setAttr p _) hl 1 (hs.taken 0 (by decide))).trans ?_
    refine Eq.trans (run_ret (n := 0) h.noFault h.task hp (hs.taken 2 (m := 1) (by decide)).head rfl) ?_
    rw [Env.afterChoice_eq, Env.taken_taken, taken_of_chosen hch, ← h.idle]
    rfl

/-! ### The DTR line and the return (R272, R273, R280) -/

section
variable {s : State} {p : Byte} {q : Port} {es : List Event} {e : Env} {cmd op : Instr}
variable (hf : s.fault = none) (hc : s.cpu = .task) (hp : p.toNat < s.nports)
  (ht : q.tpc = .inCmd cmd (dtrBody q.cfg op))
include hf hc hp ht

/-- Under DTRCTS the return is all that is left (R227). -/
theorem run_dtrBody_dtrcts (hst : q.cfg.strategy = .dtrcts) (hs : e.Gives p.toNat 1) :
    run 1 (s.view p.toNat q es e)
      = .next (s.view p.toNat { q with res := some (.int 0), tpc := .idle } (es ++ [.ret p.toNat cmd.op (.int 0)])
          (e.taken 1)) := by
  rw [dtrBody, if_pos hst] at ht
  exact run_ret (n := 0) hf hc hp hs.head ht

/-- Under another strategy the line operation `op`, then the return. -/
theorem run_dtrBody {mask m : Byte} {f : Byte → Byte} (hline : IsLine s.par p op mask f) (hst : q.cfg.strategy ≠ .dtrcts)
    (hs : e.Gives p.toNat 2) (hm : q.mc = some m) :
    run 2 (s.view p.toNat q es e)
      = .next (s.view p.toNat { q with mc := some (f m), res := some (.int 0), tpc := .idle }
          (es ++ [mcwEvent s.par q.cfg (f m), .ret p.toNat cmd.op (.int 0)]) (e.taken 2)) := by
  rw [dtrBody, if_neg hst] at ht
  refine Eq.trans (run_isLine hf hc hp hline 1 (hs.taken 0 (by decide)) ht hm) ?_
  refine Eq.trans (run_ret (n := 0) hf hc hp (hs.taken 1 (m := 1) (by decide)).head rfl) ?_
  rw [List.append_assoc]
  rfl

end

theorem isHost_flush (p : Byte) : IsHost (.flush p) p := ⟨rfl, by simp [Instr.op], rfl⟩

/-- OPEN and CLOSE with their line operations (R272, R273). -/
theorem exists_dtrLine {par : Params} {p : Byte} {i : Instr} {f : Byte → Byte}
    (h : i = .openPort p ∧ f = (fun m => m ||| par.mcDtr) ∨ i = .closePort p ∧ f = fun m => m &&& ~~~par.mcDtr) :
    IsHost i p ∧ ∃ op mask, (∀ c, Enters i c (dtrBody c op)) ∧ IsLine par p op mask f := by
  obtain ⟨rfl, rfl⟩ | ⟨rfl, rfl⟩ := h
  · exact ⟨⟨rfl, by simp [Instr.op], rfl⟩, _, _, enters_openPort p, .assertDtr⟩
  · exact ⟨⟨rfl, by simp [Instr.op], rfl⟩, _, _, enters_closePort p, .negateDtr⟩

/-- Settles O43: decode and entry, then the statements of `dtrBody`. -/
theorem openAndCloseRun : Obligations.OpenAndCloseRun := by
  unfold Obligations.OpenAndCloseRun
  intro s p i f cs hi h hl q
  obtain ⟨hhost, op, mask, henter, hline⟩ := exists_dtrLine hi
  have hp := h.lt hhost
  refine ⟨fun hst hch m hm => ?_, fun hst hch => ?_⟩
  · have hs : s.env.Gives p.toNat 4 := gives_of_chosen hch
    refine (run_enter h hhost (henter _) hl 2 (hs.taken 0 (by decide))).trans ?_
    refine Eq.trans (run_dtrBody h.noFault h.task hp rfl hline hst (hs.taken 2 (by decide)) hm) ?_
    rw [Env.taken_taken, taken_of_chosen hch, ← h.idle_at hhost]
    rfl
  · have hs : s.env.Gives p.toNat 3 := gives_of_chosen hch
    refine (run_enter h hhost (henter _) hl 1 (hs.taken 0 (by decide))).trans ?_
    refine Eq.trans (run_dtrBody_dtrcts h.noFault h.task hp rfl hst (hs.taken 2 (by decide))) ?_
    rw [Env.taken_taken, taken_of_chosen hch, ← h.idle_at hhost]
    rfl

/-- FLUSH on an empty ring from its decode step to its close (R280). -/
theorem run_flush_empty {s : State} {p : Byte} {r : Ring} (h : AboutToRun (.flush p) s)
    (hl : (s.port p.toNat).life = .ready) (hr : (s.port p.toNat).rb = some r) (he : r.count = 0) (n : Nat)
    (hs : s.env.Gives p.toNat 4) :
    run (n + 4) s
      = run n (s.view p.toNat
          { (s.port p.toNat).inside (.flush p) (dtrBody (s.port p.toNat).cfg (.negateDtr p)) with lat := .bool true }
          [] (s.env.taken 4)) := by
  have hp : p.toNat < s.nports := h.isPort
  have hempty : r.isEmpty = true := beq_iff_eq.mpr he
  have hhd (k : Nat) (hk : k < 4) : (s.env.taken k).sched.head? = some (.task p.toNat) :=
    (hs.taken k (m := 1) (by omega)).head
  refine (run_enter h (isHost_flush p) (enters_flush p _) hl (n + 2) (hs.taken 0 (by decide))).trans ?_
  refine Eq.trans (run_view (n := n + 1) h.noFault h.task hp (hhd 2 (by decide)) rfl
    (taskStmt_rbIsEmpty hp h.task hr)) ?_
  rw [hempty]
  exact run_view h.noFault h.task hp (hhd 3 (by decide)) rfl (taskStmt_flushTest_empty hp rfl)

/-- Settles O44: the test by the latch; on an empty ring the two statements before the close, then `dtrBody`. -/
theorem flushLoop : Obligations.FlushLoop := by
  unfold Obligations.FlushLoop
  constructor
  · intro s p cmd rest b hp hf hc hn ht hl
    cases b with
    | true => exact step_taskStmt_silent hp hf hc hn ht (taskStmt_flushTest_empty hp hl)
    | false => exact step_taskStmt_silent hp hf hc hn ht (taskStmt_flushTest_waits hp hl)
  intro s p r cs h q hl hr he
  have hp : p.toNat < s.nports := h.isPort
  refine ⟨fun hst hch m hm => ?_, fun hst hch => ?_⟩
  · have hs : s.env.Gives p.toNat 6 := gives_of_chosen hch
    refine (run_flush_empty h hl hr he 2 (hs.taken 0 (by decide))).trans ?_
    refine Eq.trans (run_dtrBody h.noFault h.task hp rfl .negateDtr hst (hs.taken 4 (by decide)) hm) ?_
    rw [Env.taken_taken, taken_of_chosen hch, ← h.idle]
    rfl
  · have hs : s.env.Gives p.toNat 5 := gives_of_chosen hch
    refine (run_flush_empty h hl hr he 1 (hs.taken 0 (by decide))).trans ?_
    refine Eq.trans (run_dtrBody_dtrcts h.noFault h.task hp rfl hst (hs.taken 4 (by decide))) ?_
    rw [Env.taken_taken, taken_of_chosen hch, ← h.idle]
    rfl

/-! ### Polled input and output (R287, R289) -/

theorem isHost_writePolled (p b : Byte) : IsHost (.writePolled p b) p := ⟨rfl, by simp [Instr.op], rfl⟩
theorem isHost_readPolled (p : Byte) : IsHost (.readPolled p) p := ⟨rfl, by simp [Instr.op], rfl⟩

/-- Settles O48: the status read has TBE, so the data write and the return follow the test. -/
theorem writePolledRuns : Obligations.WritePolledRuns := by
  unfold Obligations.WritePolledRuns
  intro s p b cs h hch q v hl htbe
  have hf := h.noFault
  have hc := h.task
  have hp : p.toNat < s.nports := h.isPort
  have hs : s.env.Gives p.toNat 6 := gives_of_chosen hch
  refine (run_enter h (isHost_writePolled p b) (enters_writePolled p b _) hl 4 (hs.taken 0 (by decide))).trans ?_
  refine Eq.trans (run_getStatus (n := 3) hf hc hp (hs.taken 2 (m := 1) (by decide)).head rfl) ?_
  refine Eq.trans (run_view (n := 2) hf hc hp (hs.taken 3 (m := 1) (by decide)).head rfl 
    (taskStmt_putTest_tbe hp rfl htbe)) ?_
  refine Eq.trans (run_setData (n := 1) hf hc hp (hs.taken 4 (m := 1) (by decide)).head rfl) ?_
  refine Eq.trans (run_ret (n := 0) hf hc hp (hs.taken 5 (m := 1) (by decide)).head rfl) ?_
  simp only [Env.afterChoice_eq, Env.afterByte_taken, Env.taken_taken, Nat.reduceAdd, afterByte_of_chosen hch]
  rw [← h.idle]
  rfl

/-- READ_POLLED from its decode step to its test, the status byte in the latch (R289). -/
theorem run_readPolled_status {s : State} {p : Byte} (h : AboutToRun (.readPolled p) s)
    (hl : (s.port p.toNat).life = .ready) (hm : (s.port p.toNat).cfg.mode = .polled) (n : Nat)
    (hs : s.env.Gives p.toNat 3) :
    run (n + 3) s
      = run n (s.view p.toNat
          { (s.port p.toNat).inside (.readPolled p) [.readTest] with lat := .byte (nextByte s) }
          [.rdReg (s.port p.toNat).cfg.ctrlOwn s.par.selStatus (nextByte s)] (s.env.taken 3).afterByte) := by
  have hp : p.toNat < s.nports := h.isPort
  refine (run_enter h (isHost_readPolled p) (enters_readPolled hm p) hl (n + 1) (hs.taken 0 (by decide))).trans ?_
  exact run_getStatus h.noFault h.task hp (hs.taken 2 (m := 1) (by decide)).head rfl

theorem afterByte_afterByte_of_chosen {s : State} {p n : Nat} {cs : List Choice} (h : chosen p n cs s) :
    (s.env.taken n).afterByte.afterByte = envAfter n 2 cs s := by
  rw [taken_of_chosen h]
  simp only [Env.afterByte, envAfter, List.drop_zero, ← List.drop_one, List.drop_drop]

/-- Settles O49, by RCA of the status read. -/
theorem readPolledRuns : Obligations.ReadPolledRuns := by
  unfold Obligations.ReadPolledRuns
  intro s p cs h q v c hl hm
  have hf := h.noFault
  have hc := h.task
  have hp : p.toNat < s.nports := h.isPort
  refine ⟨fun hv hch => ?_, fun hv hch => ?_⟩
  · have hs : s.env.Gives p.toNat 6 := gives_of_chosen hch
    refine (run_readPolled_status h hl hm 3 (hs.taken 0 (by decide))).trans ?_
    refine Eq.trans (run_view (n := 2) hf hc hp (hs.taken 3 (m := 1) (by decide)).head rfl
      (taskStmt_readTest_rca hp rfl hv)) ?_
    refine Eq.trans (run_getData (n := 1) hf hc hp (hs.taken 4 (m := 1) (by decide)).head rfl) ?_
    refine Eq.trans (run_view (n := 0) hf hc hp (hs.taken 5 (m := 1) (by decide)).head rfl (taskStmt_retByte hp rfl)) ?_
    simp only [Env.afterChoice_eq, Env.afterByte_taken, Env.taken_taken, Nat.reduceAdd,
      afterByte_afterByte_of_chosen hch]
    rw [← h.idle]
    rfl
  · have hs : s.env.Gives p.toNat 4 := gives_of_chosen hch
    refine (run_readPolled_status h hl hm 1 (hs.taken 0 (by decide))).trans ?_
    refine Eq.trans (run_view (n := 0) hf hc hp (hs.taken 3 (m := 1) (by decide)).head rfl
      (taskStmt_readTest_none hp rfl (Bool.eq_false_iff.mp hv))) ?_
    simp only [Env.afterChoice_eq, Env.afterByte_taken, Env.taken_taken, Nat.reduceAdd, afterByte_of_chosen hch]
    rw [← h.idle]
    rfl

/-! ### WRITE_INT of one byte (R283, R256, R242) -/

theorem isHost_writeInt {p : Byte} {xs : List Byte} (h : xs.length < 65536) : IsHost (.writeInt p xs) p :=
  ⟨rfl, by simp [Instr.op], decide_eq_true h⟩

/-- A byte enqueued on an empty ring is the one dequeued next, and the ring is empty again one slot further (R153, R154). -/
theorem Ring.enq_deq_of_empty {c : Nat} {r : Ring} (hc : 1 ≤ c) (hw : r.wf c = true) (he : r.count = 0) (b : Byte) :
    ∃ r', r.enq c b = some r'
      ∧ r'.deq c = .ok b ⟨r.buf.set r.head none, (r.head + 1) % c, (r.head + 1) % c, 0⟩ := by
  obtain ⟨⟨hlen, hhead, -, -, htail⟩, -⟩ := (Ring.wf_iff c r).mp hw
  have ht : r.tail = r.head := by rw [htail, he, Nat.add_zero, Nat.mod_eq_of_lt hhead]
  refine ⟨_, Ring.enq_of_room (by omega) b, ?_⟩
  rw [Ring.deq_of_slot (b := b) (by simp) (by simp [ht, hlen, hhead])]
  simp [ht, he]

/-- Settles O46, statement by statement: the byte is enqueued on the empty ring, and the last KICK sends it. -/
theorem writeIntSendsOneByte : Obligations.WriteIntSendsOneByte := by
  unfold Obligations.WriteIntSendsOneByte
  intro s p x m r cs h hch q v hl hm ha hmc hr hcap hw he htbe hcts
  have hf := h.noFault
  have hc := h.task
  have hp : p.toNat < s.nports := h.isPort
  have hs : s.env.Gives p.toNat 9 := gives_of_chosen hch
  have hhd (k : Nat) (hk : k < 9) : (s.env.taken k).sched.head? = some (.task p.toNat) :=
    (hs.taken k (m := 1) (by omega)).head
  have hroom : r.isFull s.par.rbCap = false := beq_eq_false_iff_ne.mpr (by omega)
  obtain ⟨r', henq, hdeq⟩ := Ring.enq_deq_of_empty hcap hw he x
  refine (run_enter h (isHost_writeInt (by simp)) (enters_writeInt hm p [x]) hl 7 (hs.taken 0 (by decide))).trans ?_
  refine Eq.trans (run_view (n := 6) hf hc hp (hhd 2 (by decide)) rfl (taskStmt_writeByte_lt hp Nat.zero_lt_one)) ?_
  refine Eq.trans (run_view (n := 5) hf hc hp (hhd 3 (by decide)) rfl (taskStmt_rbIsFull hp hc hr)) ?_
  rw [hroom]
  refine Eq.trans (run_view (n := 4) hf hc hp (hhd 4 (by decide)) rfl (taskStmt_fullTest_room hp rfl)) ?_
  refine Eq.trans (run_view (n := 3) hf hc hp (hhd 5 (by decide)) rfl (taskStmt_enqueue hp hc hf hr henq)) ?_
  refine Eq.trans (run_view (n := 2) hf hc hp (hhd 6 (by decide)) rfl (taskStmt_writeByte_ge hp (Nat.le_refl 1))) ?_
  refine Eq.trans (run_view (n := 1) hf hc hp (hhd 7 (by decide)) rfl
    (taskStmt_kick_sends hp hc ha hmc rfl hdeq htbe hcts)) ?_
  refine Eq.trans (run_ret (n := 0) hf hc hp (hhd 8 (by decide)) rfl) ?_
  simp only [Env.afterChoice_eq, Env.afterByte_taken, Env.taken_taken, Nat.reduceAdd, afterByte_of_chosen hch]
  rw [← h.idle]
  rfl

end Sys2Proof.Machine
end

section
/-! PROOFS. Pseudocode that may raise (R300): it writes the record of its own port alone, and before a fault it has moved no
micro-PC and written no result. -/

namespace Sys2Proof.Machine

open Sys2Proof

/-! ### What an operation of port p leaves alone -/

/-- What a `return` or a micro-PC writes of a port's record. -/
def Port.progress (q : Port) : Option Res × TaskPc × Nat := (q.res, q.tpc, q.hpc)

/-- From `s` to `t` no record but port p's changes; the context, the ISR micro-PC and `sys_up` are kept. -/
structure Only (p : Nat) (s t : State) : Prop where
  cpu    : t.cpu = s.cpu
  ipc    : t.ipc = s.ipc
  sysUp  : t.sysUp = s.sysUp
  others : ∀ r, r ≠ p → t.port r = s.port r

/-- Besides, nothing is raised or returned and no micro-PC moves: what pseudocode may do before it raises. -/
structure Calm (p : Nat) (s t : State) : Prop extends Only p s t where
  nports   : t.nports = s.nports
  fault    : t.fault = s.fault
  progress : ∀ r, (t.port r).progress = (s.port r).progress

/-- From `s` to `t` nothing is raised; in task context no record but port p's changes. -/
structure Runs (p : Nat) (s t : State) : Prop where
  fault : t.fault = s.fault
  only  : s.cpu = .task → Only p s t

/-- `t` is a fault taken after pseudocode that did nothing but what `Calm` says. -/
def Raised (p : Nat) (s t : State) : Prop := ∃ u c r op, Calm p s u ∧ t = raise c r op u

section
variable {p : Nat} {s t u : State}

theorem Only.trans (h : Only p s t) (k : Only p t u) : Only p s u :=
  ⟨k.cpu.trans h.cpu, k.ipc.trans h.ipc, k.sysUp.trans h.sysUp, fun r hr => (k.others r hr).trans (h.others r hr)⟩

theorem only_upd (s : State) (p : Nat) (q : Port) (es : List Event) : Only p s (s.upd p q es) :=
  ⟨rfl, rfl, rfl, fun _ hr => upd_port_ne s hr.symm q es⟩

theorem Calm.trans (h : Calm p s t) (k : Calm p t u) : Calm p s u :=
  ⟨h.toOnly.trans k.toOnly, k.nports.trans h.nports, k.fault.trans h.fault, fun r => (k.progress r).trans (h.progress r)⟩

theorem calm_of_ports (hports : t.ports = s.ports) (hcpu : t.cpu = s.cpu) (hipc : t.ipc = s.ipc)
    (hsys : t.sysUp = s.sysUp) (hfault : t.fault = s.fault) : Calm p s t :=
  ⟨⟨hcpu, hipc, hsys, fun r _ => port_congr hports r⟩, congrArg List.length hports, hfault,
    fun r => by rw [port_congr hports r]⟩

theorem Calm.refl (p : Nat) (s : State) : Calm p s s := calm_of_ports rfl rfl rfl rfl rfl

theorem calm_upd {q : Port} (hq : q.progress = (s.port p).progress) (es : List Event) : Calm p s (s.upd p q es) := by
  refine ⟨only_upd s p q es, upd_nports s p q es, rfl, fun r => ?_⟩
  show ((s.setPort p q).port r).progress = _
  rw [port_setPort]
  split
  next h => rw [hq, h.1]
  next => rfl

theorem Calm.runs (h : Calm p s t) : Runs p s t := ⟨h.fault, fun _ => h.toOnly⟩

theorem Runs.trans (h : Runs p s t) (k : Runs p t u) : Runs p s u :=
  ⟨k.fault.trans h.fault, fun hc => (h.only hc).trans (k.only ((h.only hc).cpu.trans hc))⟩

theorem runs_upd (s : State) (p : Nat) (q : Port) (es : List Event) : Runs p s (s.upd p q es) :=
  ⟨rfl, fun _ => only_upd s p q es⟩

theorem Raised.only : Raised p s t → Only p s t
  | ⟨_, _, _, _, h, e⟩ => e ▸ ⟨h.cpu, h.ipc, h.sysUp, h.others⟩

end

/-! ### The shared operations -/

section
variable (s : State) (p : Nat)

theorem calm_busRdReg (a : Addr) (l : Sel) : Calm p s (busRdReg a l s) := calm_of_ports rfl rfl rfl rfl rfl
theorem calm_readStatus : Calm p s (readStatus p s) := calm_of_ports rfl rfl rfl rfl rfl
theorem calm_readData : Calm p s (readData p s) := calm_of_ports rfl rfl rfl rfl rfl
theorem calm_writeData (v : Byte) : Calm p s (writeData p v s) := calm_of_ports rfl rfl rfl rfl rfl
theorem calm_ctlOp (k : Action) (a : Byte) : Calm p s (ctlOp p k a s) := calm_upd (by rfl) _
theorem calm_mcwOp (v : Byte) : Calm p s (mcwOp p v s) := calm_upd (by rfl) _

theorem calm_setTxActive (b : Bool) : Calm p s (setTxActive p b s) := by
  rw [setTxActive_eq]
  exact calm_upd (by rfl) _

theorem calm_setRb (r : Ring) : Calm p s (setRb p r s) := by
  rw [setRb_eq]
  exact calm_upd (by rfl) _

theorem calm_setLat (r : MicroResult) : Calm p s (setLat p r s) := by
  cases hc : s.cpu with
  | isr =>
    rw [setLat_isr hc]
    exact calm_of_ports rfl rfl rfl rfl rfl
  | task =>
    rw [setLat_task hc]
    exact calm_upd (by rfl) _

theorem runs_setTpc (t : TaskPc) : Runs p s (setTpc p t s) := by
  rw [setTpc_eq]
  exact runs_upd _ _ _ _

theorem runs_setLife (l : Life) : Runs p s (setLife p l s) := by
  rw [setLife_eq]
  exact runs_upd _ _ _ _

theorem runs_pushStmts (i : Instr) (l : List Stmt) : Runs p s (pushStmts i p l s) := by
  unfold pushStmts
  split
  next hc => exact ⟨rfl, fun ht => nomatch hc.symm.trans ht⟩
  next => split <;> exact runs_setTpc _ _ _

end

/-! ### Pseudocode that may raise -/

/-- The two ends of pseudocode of port p from `s`: a value, or a fault, and before it only what `Calm` says. -/
inductive Flow.Ends {α : Type} (p : Nat) (s : State) : Flow α → Prop
  | pure (a : α) {u : State} (h : Calm p s u) : Ends p s (.pure a u)
  | raise (c : FaultCode) (r : Nat) (op : Byte) {u : State} (h : Calm p s u) : Ends p s (.raise c r op u)

section
variable {α β : Type} {p : Nat} {s t : State} {f : Flow α}

theorem Flow.Ends.after (h : Calm p s t) (hf : f.Ends p t) : f.Ends p s := by
  cases hf with
  | pure a k => exact .pure a (h.trans k)
  | raise c r op k => exact .raise c r op (h.trans k)

theorem Flow.Ends.andThen {k : α → State → Flow β} (hf : f.Ends p s) (hk : ∀ a t, (k a t).Ends p t) :
    (f.andThen k).Ends p s := by
  cases hf with
  | pure a h => exact (hk a _).after h
  | raise c r op h => exact .raise c r op h

theorem Flow.Ends.st (hf : f.Ends p s) : Calm p s f.st ∨ Raised p s f.st := by
  cases hf with
  | pure a h => exact .inl h
  | raise c r op h => exact .inr ⟨_, c, r, op, h, rfl⟩

theorem Flow.Ends.toLat (hf : f.Ends p s) (g : α → MicroResult) :
    Calm p s (f.toLat p g) ∨ Raised p s (f.toLat p g) := by
  cases hf with
  | pure a h => exact .inl (h.trans (calm_setLat _ _ _))
  | raise c r op h => exact .inr ⟨_, c, r, op, h, rfl⟩

end

section
variable (s : State) (p : Nat)

theorem ends_lineOp (op : Byte) (f : Byte → Byte) : (lineOp p op f s).Ends p s := by
  unfold lineOp
  split
  · exact .raise _ _ _ (.refl _ _)
  · exact .pure _ (calm_mcwOp _ _ _)

theorem ends_rbIsEmptyOp : (rbIsEmptyOp p s).Ends p s := by
  unfold rbIsEmptyOp
  split
  · exact .raise _ _ _ (.refl _ _)
  · exact .pure _ (.refl _ _)

theorem ends_rbIsFullOp : (rbIsFullOp p s).Ends p s := by
  unfold rbIsFullOp
  split
  · exact .raise _ _ _ (.refl _ _)
  · exact .pure _ (.refl _ _)

theorem ends_rbEnqOp (b : Byte) : (rbEnqOp p b s).Ends p s := by
  unfold rbEnqOp
  split
  · exact .raise _ _ _ (.refl _ _)
  · split
    · exact .pure _ (.refl _ _)
    · exact .pure _ (calm_setRb _ _ _)

theorem ends_rbDeqOp : (rbDeqOp p s).Ends p s := by
  unfold rbDeqOp
  split
  · exact .raise _ _ _ (.refl _ _)
  · split
    · exact .pure _ (.refl _ _)
    · exact .raise _ _ _ (.refl _ _)
    · exact .pure _ (calm_setRb _ _ _)

theorem ends_negRtsCond : (negRtsCond p s).Ends p s := by
  unfold negRtsCond
  split
  · exact .pure _ (.refl _ _)
  · exact ends_lineOp _ _ _ _

theorem ends_txPhaseOp : (txPhaseOp p s).Ends p s := by
  unfold txPhaseOp
  dsimp only
  split
  · exact .pure _ (calm_readStatus _ _)
  · split
    · exact .pure _ ((calm_readStatus _ _).trans (calm_ctlOp _ _ _ _))
    · refine Flow.Ends.after (calm_readStatus s p) ((ends_rbIsEmptyOp _ _).andThen fun e t => ?_)
      split
      · exact Flow.Ends.after (calm_setTxActive _ _ _)
          ((ends_negRtsCond _ _).andThen fun _ u => .pure _ (calm_ctlOp _ _ _ _))
      · refine (ends_rbDeqOp _ _).andThen fun d u => ?_
        split
        · exact .raise _ _ _ (.refl _ _)
        · exact .pure _ ((calm_writeData _ _ _).trans (calm_ctlOp _ _ _ _))

theorem ends_kickOp : (kickOp p s).Ends p s := by
  unfold kickOp
  split
  · exact .raise _ _ _ (.refl _ _)
  · exact .pure _ (.refl _ _)
  · exact (ends_lineOp _ _ _ _).andThen fun _ t =>
      Flow.Ends.after (calm_setTxActive _ _ _) ((ends_txPhaseOp _ _).andThen fun _ u => .pure _ (.refl _ _))

end

end Sys2Proof.Machine
end

section
/-! PROOFS. What an instruction and a statement of a TASK can do, said once for all of them: a host command's meaning is its
checks and its entry (R270, R310), and a micro-operation raises only where it reads a field that may be ⊥ (R304). -/

namespace Sys2Proof

/-- The check a host command from OPEN on makes after the life check (R311): its mode binds it, or the port has a
strategy. -/
def Instr.bindFault (i : Instr) (q : Machine.Port) : Option Machine.FaultCode :=
  match i with
  | .writeInt _ _ => Machine.modeFault .interrupt q
  | .writePoll _ _ | .readPolled _ => Machine.modeFault .polled q
  | .fcAssert _ | .fcNegate _ => Machine.strategyFault q
  | _ => none

/-- The micro-operations that read `mc`, `tx_active` or `rb`, and raise on ⊥ (R304). -/
def Instr.readsBottom : Instr → Bool
  | .rbIsEmpty _ | .rbIsFull _ | .rbEnq _ _ | .rbDeq _ | .assertRts _ | .negateRts _ | .assertDtr _ | .negateDtr _
  | .txPhase _ | .kick _ => true
  | _ => false

namespace Machine

/-! ### The host commands (R270, R310, R311) -/

/-- F_UNDEF_READ, F_OVERFLOW and F_UNDERFLOW: no check of a command and no decode raises them. -/
def FaultCode.internal : FaultCode → Bool
  | .undefRead | .overflow | .underflow => true
  | .illegalOp | .reserved | .badPort | .portUninit | .portFailed | .alreadyInit | .mode | .noStrategy | .baud => false

theorem lifeFault_external (q : Port) : (lifeFault q).any FaultCode.internal = false := by
  unfold lifeFault
  cases q.life <;> rfl

theorem modeFault_external (m : Mode) (q : Port) : (modeFault m q).any FaultCode.internal = false := by
  unfold modeFault
  split <;> rfl

theorem strategyFault_external (q : Port) : (strategyFault q).any FaultCode.internal = false := by
  unfold strategyFault
  split <;> rfl

theorem initFault_external (m : Mode) (q : Port) : (initFault m q).any FaultCode.internal = false := by
  unfold initFault
  split
  · rfl
  · rfl
  · rfl
  · exact modeFault_external m q

theorem firstFault_external {a b : Option FaultCode} (ha : a.any FaultCode.internal = false)
    (hb : b.any FaultCode.internal = false) : (firstFault a b).any FaultCode.internal = false := by
  cases a with
  | some c => exact ha
  | none => exact hb

theorem bindFault_external (i : Instr) (q : Port) : (i.bindFault q).any FaultCode.internal = false := by
  unfold Instr.bindFault
  split
  · exact modeFault_external _ q
  · exact modeFault_external _ q
  · exact modeFault_external _ q
  · exact strategyFault_external q
  · exact strategyFault_external q
  · rfl

theorem firstFault_none_right (a : Option FaultCode) : firstFault a none = a := by
  cases a <;> rfl

/-- R310: each host command but PROBE, INIT_INT and INIT_POLL checks that its port is configured, then its life, then
what its own row of R311 says, and then enters its pseudocode. -/
theorem exec_checked {i : Instr} (h4 : 0x04 ≤ i.op.toNat) (hD : i.op.toNat ≤ 0x0D) (s : State) :
    ∃ body, exec i s = onHost i.port i.op s (beginCmd i i.port.toNat
      (firstFault (lifeFault (s.port i.port.toNat)) (i.bindFault (s.port i.port.toNat))) body s) := by
  cases i with
  | probe | initInt | initPoll => simp [Instr.op] at h4
  | writeInt | writePoll | readPolled | fcAssert | fcNegate => exact ⟨_, rfl⟩
  | openPort | closePort | flush | writePolled | setAttr =>
    simp only [Instr.bindFault, firstFault_none_right]
    exact ⟨_, rfl⟩
  | _ => simp [Instr.op] at hD

/-- What the meaning of a host command leaves: a failed check's fault, PROBE's return, or its pseudocode entered. -/
inductive HostLeaves (i : Instr) (s : State) : State → Prop
  | raised (c : FaultCode) (r : Nat) (hc : c.internal = false) : HostLeaves i s (raise c r i.op s)
  | returned (x : Res) : HostLeaves i s (returnOp i.port.toNat i.op x s)
  | entered (pc : TaskPc) : HostLeaves i s (setTpc i.port.toNat pc s)

theorem hostLeaves_beginCmd {i : Instr} {s : State} {chk : Option FaultCode} (hc : chk.any FaultCode.internal = false)
    (body : List Stmt) : HostLeaves i s (beginCmd i i.port.toNat chk body s) := by
  cases chk with
  | some c => exact .raised c _ hc
  | none => exact .entered _

theorem hostLeaves_onHost {i : Instr} {s f t : State} (hf : HostLeaves i s f) (h : onHost i.port i.op s f = .next t) :
    HostLeaves i s t := by
  obtain ⟨-, rfl⟩ | ⟨-, rfl⟩ := onHost_next h
  · exact hf
  · exact .raised _ _ rfl

theorem hostLeaves_exec {i : Instr} {s t : State} (hi : i.op.toNat ≤ 0x0D) (h : exec i s = .next t) :
    HostLeaves i s t := by
  by_cases h4 : 0x04 ≤ i.op.toNat
  · obtain ⟨body, he⟩ := exec_checked h4 hi s
    exact hostLeaves_onHost
      (hostLeaves_beginCmd (firstFault_external (lifeFault_external _) (bindFault_external _ _)) body) (he ▸ h)
  · cases i with
    | probe p => exact hostLeaves_onHost (.returned _) h
    | initInt p | initPoll p => exact hostLeaves_onHost (hostLeaves_beginCmd (initFault_external _ _) _) h
    | _ => simp [Instr.op] at h4 hi

theorem HostLeaves.runs_or_raised {i : Instr} {s t : State} (h : HostLeaves i s t) :
    Runs i.port.toNat s t ∨ Raised i.port.toNat s t := by
  cases h with
  | raised c r _ => exact .inr ⟨s, c, r, _, .refl _ _, rfl⟩
  | returned x => exact .inl (runs_upd _ _ _ _)
  | entered pc => exact .inl (runs_setTpc _ _ _)

/-! ### Every instruction -/

theorem runs_of_onPort {p : Byte} {s f t : State} (h : onPort p s f = .next t) (hf : Runs p.toNat s f) :
    Runs p.toNat s t := by
  obtain ⟨-, rfl⟩ := onPort_next h
  exact hf

theorem runs_rxTurn (p : Byte) (s : State) : Runs p.toNat s (rxTurn p s) := by
  unfold rxTurn
  dsimp only
  split
  · exact ((calm_readStatus _ _).trans (calm_readData _ _)).runs.trans
      ((runs_upd _ _ _ _).trans (runs_pushStmts _ _ _ _))
  · exact (calm_readStatus _ _).runs

theorem runs_allocOp (p : Nat) (s : State) : Runs p s (allocOp p s) := by
  have hdraw : Calm p s (emit (.alloc p (nextAlloc s)) (takeAlloc s)) := calm_of_ports rfl rfl rfl rfl rfl
  exact (hdraw.runs.trans (runs_setLife _ _ _)).trans (calm_setLat _ _ _).runs

/-- A micro-operation that reads no field that may be ⊥ raises nothing. -/
theorem runs_exec {i : Instr} {s t : State} (hh : 0x0D < i.op.toNat) (hr : i.readsBottom = false)
    (he : ∀ q, i ≠ .isrEntry q) (h : exec i s = .next t) : Runs i.port.toNat s t := by
  cases i with
  | probe | initInt | initPoll | openPort | closePort | flush | writeInt | writePoll | writePolled | readPolled
  | setAttr | fcAssert | fcNegate => simp [Instr.op] at hh
  | rbIsEmpty | rbIsFull | rbEnq | rbDeq | assertRts | negateRts | assertDtr | negateDtr | txPhase | kick => cases hr
  | isrEntry q => exact absurd rfl (he q)
  | rbInit p => exact runs_of_onPort h (calm_setRb _ _ _).runs
  | mcw p v => exact runs_of_onPort h (calm_mcwOp _ _ _).runs
  | alloc p => exact runs_of_onPort h (runs_allocOp _ _)
  | channelReset | portInitializer => exact runs_of_onPort h (runs_pushStmts _ _ _ _)
  | process p bits =>
    have hbits : Calm p.toNat s { s with pbits := bits.extractLsb' 0 3 } := calm_of_ports rfl rfl rfl rfl rfl
    exact runs_of_onPort h (hbits.runs.trans (runs_pushStmts _ _ _ _))
  | rxPhase p =>
    refine runs_of_onPort h ?_
    split
    · exact runs_rxTurn _ _
    · exact (Calm.refl _ _).runs
  | extPhase p =>
    refine runs_of_onPort h ?_
    split
    · exact ((calm_ctlOp _ _ _ _).trans (calm_readStatus _ _)).runs
    · exact (Calm.refl _ _).runs
  | eoi p => exact runs_of_onPort h (calm_ctlOp _ _ _ _).runs
  | getReg p tag =>
    simp only [exec, execGetReg] at h
    split at h
    · exact runs_of_onPort h ((calm_busRdReg _ _ _ _).trans (calm_setLat _ _ _)).runs
    · cases h
  | getData p => exact runs_of_onPort h ((calm_readData _ _).trans (calm_setLat _ _ _)).runs
  | ctl p a tag =>
    cases tag with
    | act k => exact runs_of_onPort h (calm_ctlOp _ _ _ _).runs
    | selStatus | selPending | selMc => cases h
  | up p c => exact runs_of_onPort h (runs_upd _ _ _ _)
  | registerVector | wait | setReg | setData =>
    refine runs_of_onPort h (Calm.runs ?_)
    exact calm_of_ports rfl rfl rfl rfl rfl

theorem calm_or_raised_of_onPort {p : Byte} {s f t : State} (h : onPort p s f = .next t)
    (hf : Calm p.toNat s f ∨ Raised p.toNat s f) : Calm p.toNat s t ∨ Raised p.toNat s t := by
  obtain ⟨-, rfl⟩ := onPort_next h
  exact hf

theorem calm_or_raised_exec {i : Instr} {s t : State} (hr : i.readsBottom = true) (h : exec i s = .next t) :
    Calm i.port.toNat s t ∨ Raised i.port.toNat s t := by
  cases i with
  | rbIsEmpty p => exact calm_or_raised_of_onPort h ((ends_rbIsEmptyOp _ _).toLat _)
  | rbIsFull p => exact calm_or_raised_of_onPort h ((ends_rbIsFullOp _ _).toLat _)
  | rbEnq p b => exact calm_or_raised_of_onPort h ((ends_rbEnqOp _ _ _).toLat _)
  | rbDeq p => exact calm_or_raised_of_onPort h ((ends_rbDeqOp _ _).toLat _)
  | kick p => exact calm_or_raised_of_onPort h ((ends_kickOp _ _).toLat _)
  | assertRts | negateRts | assertDtr | negateDtr => exact calm_or_raised_of_onPort h (ends_lineOp _ _ _ _).st
  | txPhase p => exact calm_or_raised_of_onPort h (ends_txPhaseOp _ _).st
  | _ => cases hr

/-- What any instruction but ISR_ENTRY does: it runs without a fault and, in task context, writes its own port's record
alone; or it raises, and has done nothing before but what `Calm` says. -/
theorem runs_or_raised_exec {i : Instr} {s t : State} (he : ∀ q, i ≠ .isrEntry q) (h : exec i s = .next t) :
    Runs i.port.toNat s t ∨ Raised i.port.toNat s t := by
  by_cases hh : i.op.toNat ≤ 0x0D
  · exact (hostLeaves_exec hh h).runs_or_raised
  · cases hr : i.readsBottom with
    | true => exact (calm_or_raised_exec hr h).imp_left Calm.runs
    | false => exact .inl (runs_exec (Nat.lt_of_not_le hh) hr he h)

theorem fault_exec_isrEntry {q : Byte} {s t : State} (h : exec (.isrEntry q) s = .next t) : t.fault = s.fault := by
  simp only [exec, execIsrEntry] at h
  split at h <;> obtain rfl := Host.Outcome.next.inj h
  · split <;> rfl
  · rfl

theorem fault_or_raised_exec {i : Instr} {s t : State} (h : exec i s = .next t) :
    t.fault = s.fault ∨ ∃ p, Raised p s t := by
  by_cases he : ∃ q, i = .isrEntry q
  · obtain ⟨q, rfl⟩ := he
    exact .inl (fault_exec_isrEntry h)
  · exact (runs_or_raised_exec (fun q e => he ⟨q, e⟩) h).imp Runs.fault fun hr => ⟨_, hr⟩

/-! ### Every statement of a TASK -/

/-- What a statement of TASK(p) in command `cmd` leaves: an instruction's next state, or the port's micro-PC moved, its
command returned, or one of the two faults the statements raise themselves. -/
inductive StmtLeaves (p : Nat) (cmd : Instr) (s : State) : Stmt → State → Prop
  | start {t : State} (h : exec cmd s = .next t) : StmtLeaves p cmd s .start t
  | op {i : Instr} {t : State} (h : exec i s = .next t) : StmtLeaves p cmd s (.op i) t
  | stays (st : Stmt) : StmtLeaves p cmd s st s
  | moves (st : Stmt) (pc : TaskPc) : StmtLeaves p cmd s st (setTpc p pc s)
  | returns (st : Stmt) (r : Res) : StmtLeaves p cmd s st (returnOp p cmd.op r s)
  | baud : StmtLeaves p cmd s .baud (raise .baud p cmd.op s)
  | initReady {u : State} (h : exec (.rbInit (BitVec.ofNat 8 p)) s = .next u) :
      StmtLeaves p cmd s .initReady (setLife p .ready (setTxActive p false u))
  | enqueueRaises {k : Nat} {u : State}
      (h : exec (.rbEnq (BitVec.ofNat 8 p) (cmd.payload.getD k 0)) s = .next u) (hf : u.fault ≠ none) :
      StmtLeaves p cmd s (.enqueue k) u
  | enqueueOverflows {k : Nat} {u : State}
      (h : exec (.rbEnq (BitVec.ofNat 8 p) (cmd.payload.getD k 0)) s = .next u) (hf : u.fault = none)
      (hl : (u.port p).lat = .overflow) : StmtLeaves p cmd s (.enqueue k) (raise .overflow p cmd.op u)
  | enqueues {k : Nat} {u : State} (pc : TaskPc)
      (h : exec (.rbEnq (BitVec.ofNat 8 p) (cmd.payload.getD k 0)) s = .next u) (hf : u.fault = none) :
      StmtLeaves p cmd s (.enqueue k) (setTpc p pc u)

theorem stmtLeaves {p : Nat} {cmd : Instr} {st : Stmt} {rest : List Stmt} {s t : State}
    (h : taskStmt p cmd st rest s = .next t) : StmtLeaves p cmd s st t := by
  cases st with
  | start => exact .start h
  | op i => exact .op h
  | ret r =>
    obtain rfl := Host.Outcome.next.inj h
    exact .returns _ _
  | allocTest =>
    simp only [taskStmt] at h
    split at h <;> cases h
    · exact .stays _
    · exact .returns _ _
  | baud =>
    simp only [taskStmt] at h
    split at h <;> cases h
    · exact .moves _ _
    · exact .baud
  | initReady =>
    simp only [taskStmt] at h
    split at h <;> cases h
    exact .initReady ‹_›
  | flushTest =>
    simp only [taskStmt] at h
    split at h <;> cases h
    · exact .stays _
    · exact .moves _ _
  | writeByte | fullTest | kickTest =>
    simp only [taskStmt] at h
    split at h <;> cases h <;> exact .moves _ _
  | enqueue k =>
    simp only [taskStmt] at h
    split at h
    next u hu =>
      split_ifs at h with hf hl <;> cases h
      · exact .enqueueOverflows hu hf hl
      · exact .enqueues _ hu hf
      · exact .enqueueRaises hu hf
    next => cases h
    next => cases h
  | pollByte =>
    simp only [taskStmt] at h
    split at h <;> cases h
    · exact .moves _ _
    · exact .returns _ _
  | putTest =>
    simp only [taskStmt] at h
    split at h
    · split at h <;> cases h <;> exact .moves _ _
    · cases h
  | readTest =>
    simp only [taskStmt] at h
    split at h
    · split at h <;> cases h
      · exact .moves _ _
      · exact .returns _ _
    · cases h
  | retByte =>
    simp only [taskStmt] at h
    split at h <;> cases h
    exact .returns _ _
  | isrNext | serviceTest => cases h

end Machine
end Sys2Proof
end

section
/-! PROOFS. The step that raises (R300), the halted state after it, and what a step of a TASK leaves of the other ports
(R333). -/

namespace Sys2Proof.Machine

open Sys2Proof

/-! ### Halting (R300) -/

/-- Settles O10: the fault record decides before ENV's choice is looked at. -/
theorem haltedMachineStops : Obligations.HaltedMachineStops := by
  unfold Obligations.HaltedMachineStops
  intro s f hf
  simp only [step, hf]

/-! ### The step that raises (R300) -/

theorem fault_or_raised_taskStmt {p : Nat} {cmd : Instr} {st : Stmt} {s t : State} (h : StmtLeaves p cmd s st t) :
    t.fault = s.fault ∨ ∃ q, Raised q s t := by
  cases h with
  | start h | op h | enqueueRaises h => exact fault_or_raised_exec h
  | stays | moves | returns => exact .inl rfl
  | baud => exact .inr ⟨p, s, _, _, _, .refl _ _, rfl⟩
  | initReady h => exact .inl (runs_exec (by simp [Instr.op]) rfl (by simp) h).fault
  | enqueueOverflows h hf =>
    obtain hcalm | ⟨v, c, r, op, -, rfl⟩ := calm_or_raised_exec rfl h
    · exact .inr ⟨_, _, _, _, _, hcalm, rfl⟩
    · cases hf
  | enqueues pc h hf =>
    obtain hcalm | ⟨v, c, r, op, -, rfl⟩ := calm_or_raised_exec rfl h
    · exact .inl hcalm.fault
    · cases hf

theorem serviceTest_fault (a : Nat) (c : IsrPc) (rest : List Stmt) (v : Byte) (s : State) :
    (serviceTest a c rest v s).fault = s.fault := by
  obtain ⟨k, hk⟩ := serviceTest_ipc a c rest v s
  rw [hk]

theorem fault_or_raised_isrStmt {c : IsrPc} {st : Stmt} {rest : List Stmt} {s t : State}
    (h : isrStmt c st rest s = .next t) :
    t.fault = s.fault ∨ ∃ q, Raised q { s with ipc := some { c with stage := rest } } t := by
  cases st with
  | op i => exact fault_or_raised_exec h
  | isrNext =>
    simp only [isrStmt] at h
    split at h <;> cases h <;> exact .inl rfl
  | serviceTest a =>
    simp only [isrStmt] at h
    split at h
    · obtain rfl := Host.Outcome.next.inj h
      exact .inl (serviceTest_fault _ _ _ _ _)
    · cases h
  | start | allocTest | baud | initReady | ret | flushTest | writeByte | fullTest | kickTest | enqueue | pollByte | putTest
  | readTest | retByte => cases h

/-- R300 of a step from `s` to `t` that sets the record `f`: the FAULT event last, no result, contexts and positions
held. -/
def Halts (f : FaultRec) (s t : State) : Prop :=
  t.trace.getLast? = some (.fault f.code f.p f.op) ∧ t.cpu = s.cpu ∧ t.ipc = s.ipc ∧ t.sysUp = s.sysUp
    ∧ ∀ p, (t.port p).res = (s.port p).res ∧ (t.port p).tpc = (s.port p).tpc ∧ (t.port p).hpc = (s.port p).hpc

theorem progress_eq_iff {q q' : Port} :
    q'.progress = q.progress ↔ q'.res = q.res ∧ q'.tpc = q.tpc ∧ q'.hpc = q.hpc := by
  simp only [Port.progress, Prod.mk.injEq]

/-- A fault of the activation, its micro-PC put back. -/
theorem Raised.halts_isr {p : Nat} {s t : State} {f : FaultRec} (h : Raised p s t) (hf : t.fault = some f)
    (ipc : Option IsrPc) : Halts f { s with ipc := ipc } { t with ipc := ipc } := by
  obtain ⟨u, c, r, op, hcalm, rfl⟩ := h
  obtain rfl := Option.some.inj hf
  exact ⟨List.getLast?_concat, hcalm.cpu, rfl, hcalm.sysUp, fun r => progress_eq_iff.mp (hcalm.progress r)⟩

/-- A micro-PC moved on before a piece of pseudocode that moves none, and put back after it. -/
theorem progress_putBack {s u : State} {p q : Nat} {pc : TaskPc} (hp : p < s.nports)
    (h : Calm q (s.upd p { s.port p with tpc := pc } []) u) (r : Nat) :
    ((u.upd p { u.port p with tpc := (s.port p).tpc } []).port r).progress = (s.port r).progress := by
  have hpu : p < u.nports := by rwa [h.nports, upd_nports]
  have hr := h.progress r
  by_cases hpr : p = r
  · subst hpr
    rw [upd_port_same hp] at hr
    obtain ⟨hres, -, hhpc⟩ := progress_eq_iff.mp hr
    rw [upd_port_same hpu]
    exact progress_eq_iff.mpr ⟨hres, rfl, hhpc⟩
  · rwa [upd_port_ne _ hpr, ← upd_port_ne s hpr { s.port p with tpc := pc } []]

/-- A fault of TASK(p), its micro-PC put back. -/
theorem Raised.halts_task {p q : Nat} {s u : State} {pc : TaskPc} {f : FaultRec} (hp : p < s.nports)
    (h : Raised q (s.upd p { s.port p with tpc := pc } []) u) (hf : u.fault = some f) :
    Halts f s { u.upd p { u.port p with tpc := (s.port p).tpc } [] with ipc := s.ipc } := by
  obtain ⟨w, c, r, op, hcalm, rfl⟩ := h
  obtain rfl := Option.some.inj hf
  refine ⟨?_, hcalm.cpu, rfl, hcalm.sysUp, fun r => progress_eq_iff.mp (progress_putBack hp hcalm r)⟩
  simp only [upd_trace, raise_trace, List.append_nil, List.getLast?_concat]

/-- Settles O58, by what the step is: a decode step that raises does nothing else, and what the statement of a TASK or
of the activation did before it raised is `Calm`. -/
theorem faultingStep : Obligations.FaultingStep := by
  unfold Obligations.FaultingStep
  intro s t f hf h ht
  have quiet {u : State} (hu : u.fault = s.fault) (hs : u.fault = some f) : Halts f s t :=
    nomatch hf.symm.trans (hu.symm.trans hs)
  obtain ⟨-, ⟨-, rfl⟩ | ⟨-, -, he⟩ | ⟨p, c, -, -, -, -, -, hi⟩ | ⟨p, cmd, -, -, -, -, rfl⟩
    | ⟨p, cmd, st, rest, -, -, hp, htpc, hx⟩ | ⟨v, -, -, -, rfl⟩ | ⟨c, st, rest, -, -, hipc, -, hx⟩⟩ := step_cases h
  · exact quiet rfl ht
  · exact quiet (by rw [he]; rfl) ht
  · obtain ⟨c, op, rfl⟩ | ⟨i, -, -, -, -, rfl⟩ := issue_next hi
    · exact Raised.halts_isr (p := p) (s := s.taskStart p) ⟨_, c, p, op, .refl _ _, rfl⟩ ht s.ipc
    · exact quiet rfl ht
  · exact quiet rfl ht
  · obtain ⟨u, hu, ⟨hn, rfl⟩ | ⟨hn, rfl⟩⟩ := holdPc_next hx
    · exact nomatch hn.symm.trans ht
    · obtain hsame | ⟨q, hr⟩ := fault_or_raised_taskStmt (stmtLeaves hu)
      · exact quiet hsame ht
      · exact hr.halts_task (s := s.taskStart p) hp ht
  · exact quiet rfl ht
  · obtain ⟨u, hu, ⟨hn, rfl⟩ | ⟨hn, rfl⟩⟩ := holdIpc_next hx
    · exact nomatch hn.symm.trans ht
    · obtain hsame | ⟨q, hr⟩ := fault_or_raised_isrStmt hu
      · exact quiet hsame ht
      · exact hr.halts_isr ht s.ipc

/-! ### The step of a TASK (R333) -/

/-- The micro-operations of a command's pseudocode: never ISR_ENTRY, and one that reads a field that may be ⊥ only on a
READY port. -/
theorem posOk_op_reads {p : Nat} {l : Life} {m : Bool} {i : Instr} {rest : List Stmt}
    (h : posOk p l m (.op i :: rest) = true) : (∀ q, i ≠ .isrEntry q) ∧ (i.readsBottom = true → l = .ready) := by
  unfold posOk at h
  split at h
  case h_9 heq =>
    obtain ⟨hi, -⟩ := List.cons.inj heq
    cases hi
    simp only [Bool.and_eq_true, beq_iff_eq] at h
    obtain ⟨⟨-, ha⟩, -⟩ := h
    refine ⟨fun q e => ?_, fun hr => ?_⟩
    · subst e
      cases ha
    · cases i with
      | assertRts | negateRts | assertDtr | negateDtr | kick => exact beq_iff_eq.mp ha
      | rbIsEmpty | rbIsFull | rbEnq | rbDeq | txPhase => cases ha
      | _ => cases hr
  case h_1 heq | h_7 heq | h_8 heq =>
    cases heq
    exact ⟨by simp, fun hr => nomatch hr⟩
  case h_16 => cases h
  all_goals
    rename_i heq
    cases heq
  all_goals
    simp only [Bool.and_eq_true, beq_iff_eq] at h
    obtain ⟨⟨-, hl⟩, -⟩ := h
    exact ⟨by simp, fun _ => hl⟩

theorem taskOk_op {cap p : Nat} {q : Port} {cmd i : Instr} {rest : List Stmt} (h : taskOk cap p q = true)
    (ht : q.tpc = .inCmd cmd (.op i :: rest)) :
    i.port.toNat = p ∧ (∀ r, i ≠ .isrEntry r) ∧ (i.readsBottom = true → q.life = .ready) := by
  simp only [taskOk, ht, Bool.and_eq_true] at h
  obtain ⟨-, hpos⟩ := h
  obtain ⟨hp, -⟩ := posOk_op hpos
  exact ⟨hp, posOk_op_reads hpos⟩

theorem ne_isrEntry_of_host {i : Instr} (h : i.op.toNat ≤ 0x0D) (q : Byte) : i ≠ .isrEntry q := by
  rintro rfl
  simp [Instr.op] at h

theorem Only.of_taskStart {p q : Nat} {s t : State} (h : Only p (s.taskStart q) t) : Only p s t :=
  ⟨h.cpu, h.ipc, h.sysUp, h.others⟩

theorem only_exec {p : Nat} {i : Instr} {s t : State} (hi : i.port.toNat = p) (he : ∀ q, i ≠ .isrEntry q)
    (hc : s.cpu = .task) (h : exec i s = .next t) : Only p s t := by
  subst hi
  obtain hr | hr := runs_or_raised_exec he h
  · exact hr.only hc
  · exact hr.only

/-- A statement of TASK(p) all of whose instructions are on port p. -/
theorem only_taskStmt {p : Nat} {cmd : Instr} {st : Stmt} {s t : State} (hp : p < 256) (hc : s.cpu = .task)
    (hcmd : cmd.port.toNat = p) (hhost : cmd.op.toNat ≤ 0x0D)
    (hop : ∀ i, st = .op i → i.port.toNat = p ∧ ∀ q, i ≠ .isrEntry q) (h : StmtLeaves p cmd s st t) : Only p s t := by
  have hpb : (BitVec.ofNat 8 p).toNat = p := Nat.mod_eq_of_lt hp
  have enq {b : Byte} {u : State} (hu : exec (.rbEnq (BitVec.ofNat 8 p) b) s = .next u) : Only p s u :=
    only_exec (i := .rbEnq _ b) hpb (by simp) hc hu
  cases h with
  | start h => exact only_exec hcmd (ne_isrEntry_of_host hhost) hc h
  | op h =>
    obtain ⟨hi, he⟩ := hop _ rfl
    exact only_exec hi he hc h
  | stays => exact (Calm.refl _ _).toOnly
  | moves => exact (runs_setTpc _ _ _).only hc
  | returns => exact only_upd _ _ _ _
  | baud => exact Raised.only ⟨s, _, _, _, .refl _ _, rfl⟩
  | @initReady u h =>
    have hu : Only p s u := only_exec (i := .rbInit _) hpb (by simp) hc h
    exact hu.trans (((calm_setTxActive _ _ _).runs.trans (runs_setLife _ _ _)).only (hu.cpu.trans hc))
  | enqueueRaises h => exact enq h
  | enqueueOverflows h => exact (enq h).trans (Raised.only ⟨_, _, _, _, .refl _ _, rfl⟩)
  | enqueues pc h => exact (enq h).trans ((runs_setTpc _ _ _).only ((enq h).cpu.trans hc))

/-- Settles O60, by what the TASK's step is: its statement's instructions are on its own port, as the invariant says. -/
theorem taskTouchesOnlyItsPort : Obligations.TaskTouchesOnlyItsPort := by
  unfold Obligations.TaskTouchesOnlyItsPort
  intro s t p hinv hc hn h
  suffices hk : Only p s t from ⟨hk.cpu, hk.ipc, hk.sysUp, hk.others⟩
  obtain ⟨-, ⟨hu, -⟩ | ⟨-, -, he⟩ | ⟨r, c, hr, -, -, -, -, hi⟩ | ⟨r, cmd, hr, -, -, -, rfl⟩
    | ⟨r, cmd, st, rest, hr, -, hp, htpc, hx⟩ | ⟨v, hv, -⟩ | ⟨c, st, rest, -, hisr, -⟩⟩ := step_cases h
  · cases hn.symm.trans hu
  · rw [he]
    exact ⟨rfl, rfl, rfl, fun _ _ => rfl⟩
  · cases hn.symm.trans hr
    obtain ⟨f, op, rfl⟩ | ⟨i, -, -, -, -, rfl⟩ := issue_next hi
    · exact ⟨rfl, rfl, rfl, fun _ _ => rfl⟩
    · exact (only_upd _ _ _ _).of_taskStart
  · cases hn.symm.trans hr
    exact (only_upd _ _ _ _).of_taskStart
  · cases hn.symm.trans hr
    obtain ⟨hcmd, hhost, -⟩ := taskOk_inCmd (hinv.tasks p hp) htpc
    have hop (i : Instr) (e : st = .op i) : i.port.toNat = p ∧ ∀ q, i ≠ .isrEntry q := by
      subst e
      obtain ⟨hi, he, -⟩ := taskOk_op (hinv.tasks p hp) htpc
      exact ⟨hi, he⟩
    obtain ⟨u, hu, hres⟩ := holdPc_next hx
    have hstart := only_upd (s.taskStart p) p { s.port p with tpc := .inCmd cmd rest } []
    have hk := hstart.trans (only_taskStmt (Nat.lt_of_lt_of_le hp (nports_le_of_launch_wf hinv.launch)) hc hcmd hhost hop
      (stmtLeaves hu))
    obtain ⟨-, rfl⟩ | ⟨-, rfl⟩ := hres
    · exact ⟨hk.cpu, hk.ipc, hk.sysUp, hk.others⟩
    · have hback := hk.trans (only_upd u p { u.port p with tpc := (s.port p).tpc } [])
      exact ⟨hback.cpu, rfl, hback.sysUp, hback.others⟩
  · cases hn.symm.trans hv
  · cases hc.symm.trans hisr

end Sys2Proof.Machine
end

section
/-! PROOFS. No internal fault (R304, R305, R307): from the invariant a micro-operation reads `mc`, `tx_active` and `rb` on
READY ports alone, where they are written, and a byte is enqueued where the ring has room. -/

namespace Sys2Proof.Machine

open Sys2Proof

theorem FaultCode.internal_eq_false {c : FaultCode} :
    c.internal = false ↔ c ≠ .undefRead ∧ c ≠ .overflow ∧ c ≠ .underflow := by
  cases c <;> decide

/-- The record, if one is set, is none of F_UNDEF_READ, F_OVERFLOW and F_UNDERFLOW. -/
def State.noInternal (t : State) : Prop := ∀ f, t.fault = some f → f.code.internal = false

theorem noInternal_of_none {t : State} (h : t.fault = none) : t.noInternal :=
  fun _ hf => nomatch h.symm.trans hf

theorem noInternal_raise {c : FaultCode} (hc : c.internal = false) (p : Nat) (op : Byte) (s : State) :
    (raise c p op s).noInternal := by
  intro f hf
  obtain rfl := Option.some.inj hf
  exact hc

/-- None of the fields R304 speaks of is ⊥, and the ring meets R43. -/
structure Written (cap : Nat) (q : Port) : Prop where
  mc   : ∃ m, q.mc = some m
  tx   : ∃ b, q.txActive = some b
  ring : ∃ r, q.rb = some r ∧ r.wf cap = true

theorem Written.withTpc {cap : Nat} {q : Port} (h : Written cap q) (pc : TaskPc) : Written cap { q with tpc := pc } :=
  ⟨h.mc, h.tx, h.ring⟩

theorem Inv.written_of_ready {s : State} (h : Inv s) {p : Nat} (hp : p < s.nports) (hl : (s.port p).life = .ready) :
    Written s.par.rbCap (s.port p) := by
  have hq := List.all_eq_true.mp h.ready _ (port_mem s hp)
  simp only [readyDefined, hl, bne_self_eq_false, Bool.false_or, Bool.and_eq_true, Option.isSome_iff_exists] at hq
  obtain ⟨⟨hm, ht⟩, r, hr⟩ := hq
  exact ⟨hm, ht, r, hr, h.ring_wf hp hr⟩

/-! ### On a written port no micro-operation raises (R304) -/

/-- A piece of pseudocode run from `s` that raises nothing. -/
def Flow.Silent {α : Type} (s : State) (f : Flow α) : Prop := ∃ a u, f = .pure a u ∧ u.fault = s.fault

theorem Flow.Silent.st {α : Type} {s : State} {f : Flow α} (h : f.Silent s) : f.st.fault = s.fault := by
  obtain ⟨a, u, rfl, hu⟩ := h
  exact hu

theorem Flow.Silent.toLat {α : Type} {s : State} {f : Flow α} (h : f.Silent s) (p : Nat) (g : α → MicroResult) :
    (f.toLat p g).fault = s.fault := by
  obtain ⟨a, u, rfl, hu⟩ := h
  exact (calm_setLat u p (g a)).fault.trans hu

section
variable {s t : State} {p : Nat} (hw : Written s.par.rbCap (s.port p))
include hw

theorem silent_lineOp (op : Byte) (f : Byte → Byte) : (lineOp p op f s).Silent s := by
  obtain ⟨m, hm⟩ := hw.mc
  exact ⟨_, _, lineOp_some hm op f, rfl⟩

theorem silent_rbIsEmptyOp : (rbIsEmptyOp p s).Silent s := by
  obtain ⟨r, hr, -⟩ := hw.ring
  exact ⟨_, _, rbIsEmptyOp_some hr, rfl⟩

theorem silent_rbIsFullOp : (rbIsFullOp p s).Silent s := by
  obtain ⟨r, hr, -⟩ := hw.ring
  exact ⟨_, _, rbIsFullOp_some hr, rfl⟩

theorem silent_rbEnqOp (b : Byte) : (rbEnqOp p b s).Silent s := by
  obtain ⟨r, hr, -⟩ := hw.ring
  cases he : r.enq s.par.rbCap b with
  | none => exact ⟨_, _, rbEnqOp_overflow hr he, rfl⟩
  | some r' => exact ⟨_, _, rbEnqOp_some hr he, rfl⟩

theorem silent_rbDeqOp : (rbDeqOp p s).Silent s := by
  obtain ⟨r, hr, hwf⟩ := hw.ring
  by_cases hn : r.count = 0
  · exact ⟨_, _, rbDeqOp_underflow hr (Ring.deq_of_empty hn _), rfl⟩
  · obtain ⟨b, r', hd⟩ := Ring.deq_of_wf hwf hn
    exact ⟨_, _, rbDeqOp_ok hr hd, rfl⟩

theorem silent_txPhaseOp (hp : p < s.nports) : (txPhaseOp p s).Silent s := by
  obtain ⟨m, hm⟩ := hw.mc
  obtain ⟨r, hr, hwf⟩ := hw.ring
  obtain ⟨q', es, htx, -⟩ := txPhaseOp_leaves hp hr hwf hm
  exact ⟨_, _, htx, rfl⟩

theorem silent_kickOp (hp : p < s.nports) : (kickOp p s).Silent s := by
  obtain ⟨m, hm⟩ := hw.mc
  obtain ⟨b, hb⟩ := hw.tx
  cases b with
  | true => exact ⟨_, _, kickOp_active hb, rfl⟩
  | false =>
    rw [kickOp_inactive hp hb hm]
    have hw' : Written s.par.rbCap { s.port p with mc := some (m ||| s.par.mcRts), txActive := some true } :=
      ⟨⟨_, rfl⟩, ⟨_, rfl⟩, hw.ring⟩
    obtain ⟨_, u, hu, hf⟩ := silent_txPhaseOp (s := s.upd p _ [mcwEvent s.par (s.port p).cfg (m ||| s.par.mcRts)])
      (by rwa [upd_port_same hp]) (by rwa [upd_nports])
    rw [hu]
    exact ⟨_, _, rfl, hf⟩

end

theorem fault_of_onPort {p : Byte} {s f t : State} (h : onPort p s f = .next t) (hf : f.fault = s.fault) :
    t.fault = s.fault := by
  obtain ⟨-, rfl⟩ := onPort_next h
  exact hf

theorem fault_exec_written {i : Instr} {s t : State} (hr : i.readsBottom = true)
    (hw : Written s.par.rbCap (s.port i.port.toNat)) (h : exec i s = .next t) : t.fault = s.fault := by
  cases i with
  | rbIsEmpty p => exact fault_of_onPort h ((silent_rbIsEmptyOp hw).toLat _ _)
  | rbIsFull p => exact fault_of_onPort h ((silent_rbIsFullOp hw).toLat _ _)
  | rbEnq p b => exact fault_of_onPort h ((silent_rbEnqOp hw b).toLat _ _)
  | rbDeq p => exact fault_of_onPort h ((silent_rbDeqOp hw).toLat _ _)
  | assertRts | negateRts | assertDtr | negateDtr => exact fault_of_onPort h (silent_lineOp hw _ _).st
  | txPhase p => exact fault_of_onPort h (silent_txPhaseOp hw (onPort_next h).1).st
  | kick p => exact fault_of_onPort h ((silent_kickOp hw (onPort_next h).1).toLat _ _)
  | _ => cases hr

theorem HostLeaves.noInternal {i : Instr} {s t : State} (h : HostLeaves i s t) (hs : s.fault = none) : t.noInternal := by
  cases h with
  | raised c r hc => exact noInternal_raise hc _ _ _
  | returned | entered => exact noInternal_of_none hs

/-- An instruction whose port is written where it reads a field that may be ⊥ raises no internal fault: a check of a
command at most. -/
theorem noInternal_exec {i : Instr} {s t : State} (hs : s.fault = none)
    (hw : i.readsBottom = true → Written s.par.rbCap (s.port i.port.toNat)) (h : exec i s = .next t) : t.noInternal := by
  by_cases hh : i.op.toNat ≤ 0x0D
  · exact (hostLeaves_exec hh h).noInternal hs
  · refine noInternal_of_none (Eq.trans ?_ hs)
    cases hr : i.readsBottom with
    | true => exact fault_exec_written hr (hw hr) h
    | false =>
      by_cases he : ∃ q, i = .isrEntry q
      · obtain ⟨q, rfl⟩ := he
        exact fault_exec_isrEntry h
      · exact (runs_exec (Nat.lt_of_not_le hh) hr (fun q e => he ⟨q, e⟩) h).fault

/-! ### The agents' statements -/

theorem taskOk_enqueue {cap p k : Nat} {q : Port} {cmd : Instr} {rest : List Stmt} (h : taskOk cap p q = true)
    (ht : q.tpc = .inCmd cmd (.enqueue k :: rest)) : q.life = .ready ∧ hasRoom cap q = true := by
  simp only [taskOk, ht, Bool.and_eq_true, beq_iff_eq] at h
  obtain ⟨-, ⟨hl, hroom⟩, -⟩ := h
  exact ⟨hl, hroom⟩

/-- An enqueue where the ring has room answers OK (R153). -/
theorem lat_exec_rbEnq {s u : State} {p b : Byte} (hc : s.cpu = .task)
    (hroom : hasRoom s.par.rbCap (s.port p.toNat) = true) (h : exec (.rbEnq p b) s = .next u) :
    (u.port p.toNat).lat = .ok := by
  obtain ⟨hp, rfl⟩ := onPort_next h
  unfold hasRoom at hroom
  split at hroom
  next r hr =>
    have hn : r.count ≠ s.par.rbCap := by simpa [Ring.isFull] using hroom
    rw [rbEnqOp_some hr (Ring.enq_of_room hn b), Flow.pure_toLat, setLat_task (by exact hc),
      upd_port_same (by rwa [upd_nports])]
    rfl
  next => cases hroom

/-- A statement of TASK(p) that reads a field that may be ⊥ on a written port alone, and enqueues where there is room. -/
theorem noInternal_taskStmt {s t : State} {p : Nat} {cmd : Instr} {st : Stmt} (h : StmtLeaves p cmd s st t)
    (hp : p < 256) (hf : s.fault = none) (hc : s.cpu = .task) (hhost : cmd.op.toNat ≤ 0x0D)
    (hop : ∀ i, st = .op i → i.readsBottom = true → Written s.par.rbCap (s.port i.port.toNat))
    (henq : ∀ k, st = .enqueue k → Written s.par.rbCap (s.port p) ∧ hasRoom s.par.rbCap (s.port p) = true) :
    t.noInternal := by
  have hpb : (BitVec.ofNat 8 p).toNat = p := Nat.mod_eq_of_lt hp
  cases h with
  | start h => exact (hostLeaves_exec hhost h).noInternal hf
  | op h => exact noInternal_exec hf (hop _ rfl) h
  | stays | moves | returns => exact noInternal_of_none hf
  | baud => exact noInternal_raise rfl _ _ _
  | initReady h => exact noInternal_of_none ((runs_exec (by simp [Instr.op]) rfl (by simp) h).fault.trans hf)
  | enqueueRaises h =>
    obtain ⟨hw, -⟩ := henq _ rfl
    exact noInternal_exec hf (fun _ => hpb.symm ▸ hw) h
  | enqueueOverflows h _ hlat =>
    obtain ⟨-, hroom⟩ := henq _ rfl
    have hok := lat_exec_rbEnq hc (hpb.symm ▸ hroom) h
    rw [hpb, hlat] at hok
    cases hok
  | enqueues pc h hu => exact noInternal_of_none hu

/-- The invariant has a READY port's fields written, and room where a byte is enqueued. -/
theorem Inv.noInternal_taskStmt {s t : State} {p : Nat} {cmd : Instr} {st : Stmt} {rest : List Stmt} (hinv : Inv s)
    (hf : s.fault = none) (hc : s.cpu = .task) (hp : p < s.nports) (htpc : (s.port p).tpc = .inCmd cmd (st :: rest))
    (h : StmtLeaves p cmd ((s.taskStart p).upd p { s.port p with tpc := .inCmd cmd rest } []) st t) : t.noInternal := by
  have hok := hinv.tasks p hp
  obtain ⟨-, hhost, -⟩ := taskOk_inCmd hok htpc
  have hport := upd_port_same (s := s.taskStart p) hp { s.port p with tpc := .inCmd cmd rest } []
  have written (hl : (s.port p).life = .ready) := (hinv.written_of_ready hp hl).withTpc (.inCmd cmd rest)
  refine Machine.noInternal_taskStmt h (Nat.lt_of_lt_of_le hp (nports_le_of_launch_wf hinv.launch)) hf hc hhost
    (fun i e hr => ?_) (fun k e => ?_) <;> subst e
  · obtain ⟨hi, -, hl⟩ := taskOk_op hok htpc
    rw [hi, hport]
    exact written (hl hr)
  · obtain ⟨hl, hroom⟩ := taskOk_enqueue hok htpc
    rw [hport]
    exact ⟨written hl, hroom⟩

theorem RunInIsr.port_eq {p : Byte} {i : Instr} (h : RunInIsr p i) : i.port = p := by
  cases h <;> rfl

theorem noInternal_isrStmt {s t : State} {c : IsrPc} {st : Stmt} {rest : List Stmt} (hinv : Inv s) (hf : s.fault = none)
    (hc : s.cpu = .isr) (hi : s.ipc = some c) (hs : c.stage = st :: rest)
    (h : isrStmt c st rest (takeChoice s) = .next t) : t.noInternal := by
  cases st with
  | op i =>
    obtain ⟨p, hrun, hserv⟩ := isrOk_op hinv.isr hc hi hs
    refine noInternal_exec (s := { takeChoice s with ipc := some { c with stage := rest } }) hf (fun _ => ?_) h
    rw [hrun.port_eq]
    exact hinv.written_of_ready (serviced_lt hserv) (serviced_ready hserv)
  | isrNext =>
    simp only [isrStmt] at h
    split at h <;> cases h <;> exact noInternal_of_none hf
  | serviceTest a =>
    simp only [isrStmt] at h
    split at h
    · obtain rfl := Host.Outcome.next.inj h
      exact noInternal_of_none ((serviceTest_fault _ _ _ _ _).trans hf)
    · cases h
  | start | allocTest | baud | initReady | ret | flushTest | writeByte | fullTest | kickTest | enqueue | pollByte | putTest
  | readTest | retByte => cases h

/-! ### The steps -/

theorem hostWordFault_external (w : Word) : (hostWordFault w).any FaultCode.internal = false := by
  unfold hostWordFault
  dsimp only
  split_ifs <;> rfl

theorem noInternal_issue {p : Nat} {c : Command} {s t : State} (hs : s.fault = none) (h : issue p c s = .next t) :
    t.noInternal := by
  cases hw : hostWordFault c.word with
  | some f =>
    simp only [issue, hw] at h
    obtain rfl := Host.Outcome.next.inj h
    exact noInternal_raise (by simpa only [hw, Option.any_some] using hostWordFault_external c.word) _ _ _
  | none =>
    simp only [issue, hw] at h
    split at h
    · split_ifs at h <;> cases h
      · exact noInternal_raise rfl _ _ _
      · exact noInternal_of_none hs
    · cases h
    · cases h

theorem noInternal_step {s t : State} (hinv : Inv s) (h : step s = .next t) : t.noInternal := by
  obtain ⟨hf, ⟨-, rfl⟩ | ⟨-, -, he⟩ | ⟨p, c, -, -, -, -, -, hi⟩ | ⟨p, cmd, -, -, -, -, rfl⟩
    | ⟨p, cmd, st, rest, -, hc, hp, htpc, hx⟩ | ⟨v, -, -, -, rfl⟩ | ⟨c, st, rest, -, hc, hipc, hst, hx⟩⟩ := step_cases h
  · exact noInternal_of_none hf
  · rw [he]
    exact noInternal_of_none hf
  · exact noInternal_issue (s := s.taskStart p) hf hi
  · exact noInternal_of_none hf
  · obtain ⟨u, hu, hres⟩ := holdPc_next hx
    have hk := hinv.noInternal_taskStmt hf hc hp htpc (stmtLeaves hu)
    obtain ⟨-, rfl⟩ | ⟨-, rfl⟩ := hres <;> exact hk
  · exact noInternal_of_none hf
  · obtain ⟨u, hu, hres⟩ := holdIpc_next hx
    have hk := noInternal_isrStmt hinv hf hc hipc hst hu
    obtain ⟨-, rfl⟩ | ⟨-, rfl⟩ := hres <;> exact hk

/-- Settles O53, by what the step is: the invariant has the fields of a READY port written, its ring as R43 says, and
room where a byte is enqueued. -/
theorem noInternalFault : Obligations.NoInternalFault := by
  unfold Obligations.NoInternalFault
  intro s t f hinv h hf
  exact FaultCode.internal_eq_false.mp (noInternal_step hinv h f hf)

end Sys2Proof.Machine
end

section
/-! PROOFS. The checks in their order: the three decode faults of a command word (R116, R302), and what a host command checks
before it enters its pseudocode (R310, R311). -/

namespace Sys2Proof

/-! ### Decode faults (R116, R302) -/

theorem encode_head (i : Instr) : ∃ tl, encode i = i.op :: tl := by
  cases i <;> exact ⟨_, rfl⟩

/-- The OP of a decoded instruction is the raw OP byte of its word. -/
theorem op_of_decode {c : Command} {i : Instr} {rest : List Byte} (h : decode c.bytes = .ok (i, rest)) :
    i.op = wordOp c.word := by
  have hb := decodedBytesAreTheEncoding c.bytes rest i h
  obtain ⟨tl, he⟩ := encode_head i
  rw [he] at hb
  exact (List.cons.inj hb).1.symm

namespace Machine

/-- A field that must be zero is not (R110): bits 31:16 in format P, bits 31:24 of WRITE_POLLED. -/
def ReservedField (w : Word) : Prop :=
  ((wordOp w ≠ 0x07 ∧ wordOp w ≠ 0x08 ∧ wordOp w ≠ 0x09) ∧ w.extractLsb' 16 16 ≠ 0)
  ∨ (wordOp w = 0x09 ∧ w.extractLsb' 24 8 ≠ 0)

section
variable {w : Word}

theorem hostWordFault_illegal (h : (wordOp w).toNat = 0 ∨ 0x0D < (wordOp w).toNat) : hostWordFault w = some .illegalOp :=
  if_pos h

theorem hostWordFault_legal (h : ¬((wordOp w).toNat = 0 ∨ 0x0D < (wordOp w).toNat)) :
    hostWordFault w
      = if wordOp w = 0x07 ∨ wordOp w = 0x08 then none
        else if wordOp w = 0x09 then (if w.extractLsb' 24 8 = 0 then none else some .reserved)
        else if w.extractLsb' 16 16 = 0 then none else some .reserved := by
  have e (n : Byte) : wordOp w = n ↔ (wordOp w).toNat = n.toNat := BitVec.toNat_inj.symm
  simp only [hostWordFault, if_neg h, e]
  rfl

theorem hostWordFault_reserved (h : ¬((wordOp w).toNat = 0 ∨ 0x0D < (wordOp w).toNat)) (hr : ReservedField w) :
    hostWordFault w = some .reserved := by
  rw [hostWordFault_legal h]
  obtain ⟨⟨h7, h8, h9⟩, hz⟩ | ⟨h9, hz⟩ := hr
  · rw [if_neg (not_or.mpr ⟨h7, h8⟩), if_neg h9, if_neg hz]
  · rw [if_neg (by simp [h9]), if_pos h9, if_neg hz]

theorem hostWordFault_none (h : ¬((wordOp w).toNat = 0 ∨ 0x0D < (wordOp w).toNat)) (hr : ¬ReservedField w) :
    hostWordFault w = none := by
  rw [hostWordFault_legal h]
  simp only [ReservedField, not_or, not_and, ne_eq, Decidable.not_not] at hr
  obtain ⟨hP, hB⟩ := hr
  split_ifs with hS h9 hb hz
  · rfl
  · rfl
  · exact absurd (hB h9) hb
  · rfl
  · obtain ⟨h7, h8⟩ := not_or.mp hS
    exact absurd (hP ⟨h7, h8, h9⟩) hz

end

theorem issue_of_wordFault {p : Nat} {c : Command} {s : State} {f : FaultCode} (h : hostWordFault c.word = some f) :
    issue p c s = .next (raise f p (wordOp c.word) s) := by
  simp only [issue, h]

theorem issue_badPort {p : Nat} {c : Command} {s : State} (h : hostWordFault c.word = none) (hc : c.wf = true)
    (hp : s.nports ≤ wordPort c.word) : issue p c s = .next (raise .badPort p (wordOp c.word) s) := by
  obtain ⟨i, hd, hi⟩ := decode_hostCommand h hc
  simp only [issue, h, hd, hi, if_pos hp, op_of_decode hd]

/-- Settles O9: the decode step is TASK(p)'s, and its checks on the word are R116's 1 to 3. -/
theorem decodeFaults : Obligations.DecodeFaults := by
  unfold Obligations.DecodeFaults
  intro s p c hf hc hn hp ht hcmd hwf op illegal formatP reserved badPort faulted
  have hstep : step s = issue p c (s.taskStart p) := (step_of_task hf hc hn).trans (stepTask_issue hp ht hcmd)
  refine ⟨fun hi => ?_, fun hi hr => ?_, fun hi hr hb => ?_⟩
  · exact hstep.trans (issue_of_wordFault (hostWordFault_illegal hi))
  · exact hstep.trans (issue_of_wordFault (hostWordFault_reserved hi hr))
  · exact hstep.trans (issue_badPort (hostWordFault_none hi hr) hwf hb)

/-! ### The checks of the host commands (R310, R311, R297) -/

theorem lifeFault_failed {q : Port} (h : q.life = .failed) : lifeFault q = some .portFailed := by
  simp only [lifeFault, h]

theorem lifeFault_notReady {q : Port} (h : q.life = .uninit ∨ q.life = .initializing) :
    lifeFault q = some .portUninit := by
  obtain h | h := h <;> simp only [lifeFault, h]

/-- WRITE_INT is bound in interrupt mode alone (R293, R297). -/
theorem bindFault_writeInt {i : Instr} (h : i.op = 0x07) (q : Port) : i.bindFault q = modeFault .interrupt q := by
  cases i with
  | writeInt => rfl
  | _ => simp [Instr.op] at h

/-- WRITE_POLL and READ_POLLED are bound in polled mode alone (R293, R297). -/
theorem bindFault_polled {i : Instr} (h : i.op = 0x08 ∨ i.op = 0x0A) (q : Port) : i.bindFault q = modeFault .polled q := by
  cases i with
  | writePoll | readPolled => rfl
  | _ => simp [Instr.op] at h

theorem modeFault_some {m : Mode} {q : Port} (h : q.cfg.mode ≠ m) : modeFault m q = some .mode := if_neg h

/-- Settles O42: each of these commands is `exec_checked`'s, and the first failing check decides. -/
theorem hostChecksInOrder : Obligations.HostChecksInOrder := by
  unfold Obligations.HostChecksInOrder
  intro s i h4 hD p q faulted
  obtain ⟨body, he⟩ := exec_checked h4 hD s
  have fails {c : FaultCode} (hp : p < s.nports) (hc : firstFault (lifeFault q) (i.bindFault q) = some c) :
      exec i s = .next (faulted c p) := by
    rw [he, onHost_of_lt hp, hc]
    rfl
  refine ⟨fun hp => ?_, fun hp hl => ?_, fun hp hl => ?_, fun hp hl hi hm => ?_, fun hp hl hi hm => ?_⟩
  · exact he.trans (if_neg (Nat.not_lt.mpr hp))
  · exact fails hp (by rw [lifeFault_failed hl, firstFault])
  · exact fails hp (by rw [lifeFault_notReady hl, firstFault])
  · exact fails hp (by rw [lifeFault_ready hl, firstFault, bindFault_writeInt hi, modeFault_some (by rw [hm]; decide)])
  · exact fails hp (by rw [lifeFault_ready hl, firstFault, bindFault_polled hi, modeFault_some (by rw [hm]; decide)])

end Machine
end Sys2Proof
end

section
/-! PROOFS. Launch values and histories (R346, R60): `Grows` of the model's operations, lifted through a statement of a TASK
and of the activation to every step. -/

namespace Sys2Proof.Machine

open Sys2Proof

theorem grows_taskStmt {p : Nat} {cmd : Instr} {st : Stmt} {s t : State} (h : StmtLeaves p cmd s st t) : Grows s t := by
  cases h with
  | start h | op h | enqueueRaises h => exact grows_exec h
  | stays => exact .refl _
  | moves => exact grows_setTpc _ _ _
  | returns => exact grows_returnOp _ _ _ _
  | baud => exact grows_raise _ _ _ _
  | initReady h => exact (grows_exec h).trans ((grows_setTxActive _ _ _).trans (grows_setLife _ _ _))
  | enqueueOverflows h => exact (grows_exec h).trans (grows_raise _ _ _ _)
  | enqueues pc h => exact (grows_exec h).trans (grows_setTpc _ _ _)

theorem grows_setIpc (s : State) (pc : Option IsrPc) : Grows s { s with ipc := pc } :=
  .of_same rfl rfl (List.prefix_refl _) rfl rfl

/-- A task micro-PC and a program position moved. -/
theorem grows_position (s : State) (p : Nat) (pc : TaskPc) (n : Nat) :
    Grows s (s.upd p { s.port p with tpc := pc, hpc := n } []) := by
  refine .upd ?_ ?_ ?_ _ <;> rfl

theorem grows_serviceTest (a : Nat) (c : IsrPc) (rest : List Stmt) (v : Byte) (s : State) :
    Grows s (serviceTest a c rest v s) := by
  obtain ⟨pc, he⟩ := serviceTest_ipc a c rest v s
  rw [he]
  exact grows_setIpc _ _

theorem grows_isrStmt {c : IsrPc} {st : Stmt} {rest : List Stmt} {s t : State} (h : isrStmt c st rest s = .next t) :
    Grows s t := by
  cases st with
  | op i => exact (grows_setIpc _ _).trans (grows_exec h)
  | isrNext =>
    simp only [isrStmt] at h
    split at h <;> cases h
    · exact grows_setIpc _ _
    · exact .of_same rfl rfl (List.prefix_append _ _) rfl rfl
  | serviceTest a =>
    simp only [isrStmt] at h
    split at h <;> cases h
    exact grows_serviceTest _ _ _ _ _
  | start | allocTest | baud | initReady | ret | flushTest | writeByte | fullTest | kickTest | enqueue | pollByte | putTest
  | readTest | retByte => cases h

/-- A step that raises only puts its agent's micro-PC back. -/
theorem grows_holdPc {p : Nat} {s₀ s t : State} {r : Host.Outcome State Fault Refusal}
    (hr : ∀ u, r = .next u → Grows s u) (h : holdPc p s₀ r = .next t) : Grows s t := by
  obtain ⟨u, hu, ⟨-, rfl⟩ | ⟨-, rfl⟩⟩ := holdPc_next h
  · exact hr _ hu
  · exact (hr _ hu).trans ((grows_position _ _ _ _).trans (grows_setIpc _ _))

theorem grows_holdIpc {s₀ s t : State} {r : Host.Outcome State Fault Refusal}
    (hr : ∀ u, r = .next u → Grows s u) (h : holdIpc s₀ r = .next t) : Grows s t := by
  obtain ⟨u, hu, ⟨-, rfl⟩ | ⟨-, rfl⟩⟩ := holdIpc_next h
  · exact hr _ hu
  · exact (hr _ hu).trans (grows_setIpc _ _)

theorem grows_issue {p : Nat} {c : Command} {s t : State} (h : issue p c s = .next t) : Grows s t := by
  obtain ⟨f, op, rfl⟩ | ⟨i, -, -, -, -, rfl⟩ := issue_next h
  · exact grows_raise _ _ _ _
  · exact grows_position _ _ _ _

/-- The move of a TASK's micro-PC with which its step begins. -/
theorem grows_taskStart_upd (s : State) (p : Nat) (pc : TaskPc) :
    Grows s ((s.taskStart p).upd p { s.port p with tpc := pc } []) :=
  (grows_taskStart s p).trans (grows_position (s.taskStart p) p pc _)

theorem grows_step {s t : State} (h : step s = .next t) : Grows s t := by
  obtain ⟨-, ⟨-, rfl⟩ | ⟨-, -, he⟩ | ⟨p, c, -, -, -, -, -, hi⟩ | ⟨p, cmd, -, -, -, -, rfl⟩
    | ⟨p, cmd, st, rest, -, -, -, -, hx⟩ | ⟨v, -, -, -, rfl⟩ | ⟨c, st, rest, -, -, -, -, hx⟩⟩ := step_cases h
  · exact { Grows.refl s with sysUp := fun _ => rfl }
  · rw [he]
    exact .of_same rfl rfl (List.prefix_refl _) rfl rfl
  · exact (grows_taskStart s p).trans (grows_issue hi)
  · exact grows_taskStart_upd _ _ _
  · exact (grows_taskStart_upd _ _ _).trans (grows_holdPc (fun _ hu => grows_taskStmt (stmtLeaves hu)) hx)
  · exact .of_same rfl rfl (List.prefix_append _ _) rfl rfl
  · exact (grows_takeChoice s).trans (grows_holdIpc (fun _ hu => grows_isrStmt hu) hx)

/-- Settles O55, by what the step is: each of the seven kinds of step is made of operations that only grow the
histories. -/
theorem launchKeptHistoriesGrow : Obligations.LaunchKeptHistoriesGrow := by
  unfold Obligations.LaunchKeptHistoriesGrow
  intro s t h
  obtain ⟨hlaunch, htrace, hupq, hvreg, hsys⟩ := grows_step h
  exact ⟨hlaunch, htrace, hupq, hvreg, hsys⟩

end Sys2Proof.Machine
end

section
/-! PROOFS. Block reset (R65, R340), the invariant at boot, the lowest-numbered partner (R33), and the steps of the agents at an
instruction (R48, R49, R53). -/

namespace Sys2Proof.Machine

open Sys2Proof

/-! ### Block reset -/

theorem launch_resetOf (l : Launch) : (resetOf l).launch = l :=
  congrArg (Launch.mk l.par) ((List.map_map).trans (List.map_id _))

/-- Every record of a reset state is the reset record of its port's configuration and program. -/
theorem mem_ports_resetOf {l : Launch} {q : Port} (h : q ∈ (resetOf l).ports) : ∃ c, q = Port.reset c := by
  obtain ⟨c, -, rfl⟩ := List.mem_map.mp h
  exact ⟨c, rfl⟩

/-- Settles O1: block reset of a running machine is the reset state of the launch it carries. -/
theorem resetGivesSpecValues : Obligations.ResetGivesSpecValues := by
  unfold Obligations.ResetGivesSpecValues
  intro l u s h
  obtain rfl : s = resetOf l := by
    obtain rfl | ⟨rfl, rfl⟩ := h
    · rfl
    · rfl
  refine ⟨launch_resetOf l, rfl, rfl, rfl, rfl, rfl, rfl, fun q hq => ?_⟩
  obtain ⟨c, rfl⟩ := mem_ports_resetOf hq
  exact ⟨rfl, rfl, rfl, rfl, rfl, rfl, rfl, rfl, rfl⟩

theorem inv_resetOf {l : Launch} (hl : l.wf = true) : Inv (resetOf l) where
  launch := by rwa [launch_resetOf]
  rings := List.all_eq_true.mpr fun q hq => by
    obtain ⟨c, rfl⟩ := mem_ports_resetOf hq
    rfl
  ready := List.all_eq_true.mpr fun q hq => by
    obtain ⟨c, rfl⟩ := mem_ports_resetOf hq
    rfl
  tasks p hp := by
    obtain ⟨c, hc⟩ := mem_ports_resetOf (port_mem _ hp)
    rw [hc]
    rfl
  isr := rfl

/-- Settles O51: a launch that boots is well formed, and boots to its reset state. -/
theorem invariantAtBoot : Obligations.InvariantAtBoot := by
  unfold Obligations.InvariantAtBoot
  intro l s h
  obtain ⟨hl, rfl⟩ := (l.boot_eq_some_iff s).mp h
  exact inv_resetOf hl

/-! ### The partner of a channel-A port (R33) -/

/-- A search of the numbers below n finds the lowest number with the property searched for. -/
theorem find?_range_eq_some_iff_lowest {n b : Nat} {p : Nat → Bool} {P : Nat → Prop} (h : ∀ b, P b ↔ b < n ∧ p b = true) :
    (List.range n).find? p = some b ↔ P b ∧ ∀ b' < b, ¬P b' := by
  simp only [List.find?_range_eq_some, List.mem_range, h, not_and, Bool.not_eq_true, Bool.not_eq_true']
  constructor
  · rintro ⟨hp, hb, hmin⟩
    exact ⟨⟨hb, hp⟩, fun b' hlt _ => hmin b' hlt⟩
  · rintro ⟨⟨hb, hp⟩, hmin⟩
    exact ⟨hp, hb, fun b' hlt => hmin b' hlt (Nat.lt_trans hlt hb)⟩

theorem find?_range_eq_none_iff {n : Nat} {p : Nat → Bool} {P : Nat → Prop} (h : ∀ b, P b ↔ b < n ∧ p b = true) :
    (List.range n).find? p = none ↔ ∀ b, ¬P b := by
  simp only [List.find?_range_eq_none, h, not_and, Bool.not_eq_true, Bool.not_eq_true']

/-- Settles O37: `partnerB` searches the ports in their order for the four properties. -/
theorem partnerIsTheLowest : Obligations.PartnerIsTheLowest := by
  unfold Obligations.PartnerIsTheLowest
  intro s a ok
  have hok (b : Nat) : ok b ↔ b < s.nports ∧ ((s.port b).cfg.ctrlPrimary == (s.port a).cfg.ctrlOwn
      && !(s.port b).cfg.isChannelA && (s.port b).cfg.mode == .interrupt && (s.port b).life == .ready) = true := by
    simp [ok, ← PortCfg.isChannelA_iff, and_assoc, eq_comm (a := (s.port b).cfg.ctrlOwn)]
  exact ⟨fun b => find?_range_eq_some_iff_lowest hok, find?_range_eq_none_iff hok⟩

/-! ### The step at an instruction (R48, R49, R53) -/

theorem holdPc_of_running {p : Nat} {s t : State} (h : t.fault = none) : holdPc p s (.next t) = .next t := if_pos h

theorem holdPc_of_raised {p : Nat} {s t : State} (h : t.fault ≠ none) :
    holdPc p s (.next t)
      = .next { t with ports := t.ports.set p { t.port p with tpc := (s.port p).tpc }, ipc := s.ipc } := if_neg h

theorem holdIpc_of_running {s t : State} (h : t.fault = none) : holdIpc s (.next t) = .next t := if_pos h

theorem holdIpc_of_raised {s t : State} (h : t.fault ≠ none) : holdIpc s (.next t) = .next { t with ipc := s.ipc } :=
  if_neg h

/-- A TASK at a statement whose meaning is an instruction's: its step is `exec` with the position moved past the statement, and
the position put back if that raises (R300). -/
theorem step_of_taskExec {s : State} {p : Nat} {cmd i : Instr} {st : Stmt} {rest : List Stmt} (hf : s.fault = none)
    (hc : s.cpu = .task) (hn : nextChoice s = .task p) (hp : p < s.nports) (ht : (s.port p).tpc = .inCmd cmd (st :: rest))
    (hst : ∀ u, taskStmt p cmd st rest u = exec i u) {r : Host.Outcome State Fault Refusal}
    (hr : r = exec i { takeChoice s with
      ports := s.ports.set p { s.port p with tpc := .inCmd cmd rest }, cur := p }) :
    (∀ t, r = .next t → t.fault = none → step s = .next t)
    ∧ (∀ t, r = .next t → t.fault ≠ none → step s = .next { t with
        ports := t.ports.set p { t.port p with tpc := .inCmd cmd (st :: rest) }, ipc := s.ipc })
    ∧ (∀ f, r = .refused f → step s = .refused f) := by
  have hstep : step s = holdPc p (takeChoice s) r := by
    rw [step_of_task hf hc hn, stepTask_inCmd hp ht, hst, hr]
    exact congrArg (fun u => holdPc p (takeChoice s) (exec i u)) (view_afterChoice_nil s p _)
  rw [hstep]
  refine ⟨?_, ?_, ?_⟩
  · rintro t rfl htf
    exact holdPc_of_running htf
  · rintro t rfl htf
    rw [holdPc_of_raised htf, takeChoice_port, ht]
    rfl
  · rintro f rfl
    rfl

theorem bytesWord_bytes (w : Word) :
    bytesWord (w.extractLsb' 0 8) (w.extractLsb' 8 8) (w.extractLsb' 16 8) (w.extractLsb' 24 8) = w := by
  apply BitVec.eq_of_getLsbD_eq
  intro i hi
  rw [bytesWord_getLsbD]
  simp only [BitVec.getLsbD_extractLsb']
  grind

/-- A command is read back from the bytes it is carried as (R86). -/
theorem ofBytes_bytes (c : Command) : Command.ofBytes c.bytes = c :=
  congrArg (Command.mk · c.payload) (bytesWord_bytes c.word)

/-- A command that decodes to a host command passes R116's checks 1 and 2. -/
theorem hostWordFault_of_decode {c : Command} {i : Instr} (hd : decode c.bytes = .ok (i, [])) (hi : i.op.toNat ≤ 0x0D) :
    hostWordFault c.word = none := by
  have hb := decodedBytesAreTheEncoding c.bytes [] i hd
  rw [← ofBytes_bytes c, hb, List.append_nil]
  exact hostWordFault_encode hi

/-- Settles O7: the decode step by `issue_of_decode`, the step at `start` by `step_of_taskExec`. -/
theorem stepRunsNextCommand : Obligations.StepRunsNextCommand := by
  unfold Obligations.StepRunsNextCommand
  refine ⟨fun s p c i hf hc hn hp ht hcmd hd h1 hD hi => ?_, fun s p cmd rest hf hc hn hp ht r hr => ?_⟩
  · rw [step_of_task hf hc hn, stepTask_issue hp ht hcmd]
    exact issue_of_decode (s := s.taskStart p) (hostWordFault_of_decode hd hD) hd hi hp
  · obtain ⟨hrun, hraise, -⟩ := step_of_taskExec hf hc hn hp ht (fun _ => rfl) hr
    exact ⟨hrun, hraise⟩

/-- Settles O8: the TASK by `step_of_taskExec`, the activation by the statement at the ISR micro-PC. -/
theorem stepRunsMicroOperation : Obligations.StepRunsMicroOperation := by
  unfold Obligations.StepRunsMicroOperation
  refine ⟨fun s p cmd i rest hf hc hn hp ht r hr => step_of_taskExec hf hc hn hp ht (fun _ => rfl) hr,
    fun s c i rest hf hc hn hi hs r hr => ?_⟩
  have hstep : step s = holdIpc (takeChoice s) r := by
    rw [step_of_isr hf hc hn, hr]
    simp only [stepIsr, takeChoice_ipc, hi, hs]
    rfl
  rw [hstep]
  refine ⟨?_, ?_, ?_⟩
  · rintro t rfl htf
    exact holdIpc_of_running htf
  · rintro t rfl htf
    exact holdIpc_of_raised htf
  · rintro f rfl
    rfl

end Sys2Proof.Machine
end

section
/-! PROOFS. The shadow byte (R40): every instruction but MCW, the line operations, TX_PHASE and KICK keeps `mc`, and what these
write of it they have last written to the modem-control register. -/

namespace Sys2Proof

/-- The micro-operations that write the shadow byte (R40, R181, R221 to R224, R242, R256). -/
def Instr.writesMc : Instr → Bool
  | .mcw _ _ | .assertRts _ | .negateRts _ | .assertDtr _ | .negateDtr _ | .txPhase _ | .kick _ => true
  | _ => false

namespace Machine

/-! ### What keeps every shadow byte -/

/-- Every port's shadow byte is the same in `t` as in `s`. -/
def KeepsMc (s t : State) : Prop := ∀ r, (t.port r).mc = (s.port r).mc

theorem KeepsMc.trans {s t u : State} (h : KeepsMc s t) (k : KeepsMc t u) : KeepsMc s u := fun r => (k r).trans (h r)

theorem keepsMc_of_ports {s t : State} (h : t.ports = s.ports) : KeepsMc s t := fun r => by rw [port_congr h r]

theorem keepsMc_upd {s : State} {p : Nat} {q : Port} (hq : q.mc = (s.port p).mc) (es : List Event) :
    KeepsMc s (s.upd p q es) := by
  intro r
  show ((s.setPort p q).port r).mc = _
  rw [port_setPort]
  split
  next h => rw [hq, h.1]
  next => rfl

section
variable (s : State) (p : Nat)

theorem keepsMc_ctlOp (k : Action) (a : Byte) : KeepsMc s (ctlOp p k a s) := keepsMc_upd (by rfl) _

theorem keepsMc_upOp (c : Byte) : KeepsMc s (upOp p c s) := keepsMc_upd (by rfl) _

theorem keepsMc_setTxActive (b : Bool) : KeepsMc s (setTxActive p b s) := by
  rw [setTxActive_eq]
  exact keepsMc_upd (by rfl) _

theorem keepsMc_setRb (r : Ring) : KeepsMc s (setRb p r s) := by
  rw [setRb_eq]
  exact keepsMc_upd (by rfl) _

theorem keepsMc_setLife (l : Life) : KeepsMc s (setLife p l s) := by
  rw [setLife_eq]
  exact keepsMc_upd (by rfl) _

theorem keepsMc_setTpc (t : TaskPc) : KeepsMc s (setTpc p t s) := by
  rw [setTpc_eq]
  exact keepsMc_upd (by rfl) _

theorem keepsMc_setLat (x : MicroResult) : KeepsMc s (setLat p x s) := by
  unfold setLat
  split
  · exact keepsMc_of_ports rfl
  · rw [setPort_eq_upd]
    exact keepsMc_upd (by rfl) _

theorem keepsMc_pushStmts (i : Instr) (l : List Stmt) : KeepsMc s (pushStmts i p l s) := by
  unfold pushStmts
  split
  · exact keepsMc_of_ports rfl
  · split <;> exact keepsMc_setTpc _ _ _

theorem keepsMc_rxTurn (p : Byte) : KeepsMc s (rxTurn p s) := by
  unfold rxTurn
  dsimp only
  split
  · have hread : KeepsMc s (readData p.toNat (readStatus p.toNat s)) := keepsMc_of_ports rfl
    exact hread.trans ((keepsMc_upOp _ _ _).trans (keepsMc_pushStmts _ _ _ _))
  · exact keepsMc_of_ports rfl

theorem keepsMc_allocOp : KeepsMc s (allocOp p s) :=
  KeepsMc.trans (keepsMc_of_ports rfl) ((keepsMc_setLife _ _ _).trans (keepsMc_setLat _ _ _))

theorem keepsMc_rbIsEmptyOp : KeepsMc s (rbIsEmptyOp p s).st := by
  unfold rbIsEmptyOp
  split <;> exact keepsMc_of_ports rfl

theorem keepsMc_rbIsFullOp : KeepsMc s (rbIsFullOp p s).st := by
  unfold rbIsFullOp
  split <;> exact keepsMc_of_ports rfl

theorem keepsMc_rbEnqOp (b : Byte) : KeepsMc s (rbEnqOp p b s).st := by
  unfold rbEnqOp
  split
  · exact keepsMc_of_ports rfl
  · split
    · exact keepsMc_of_ports rfl
    · exact keepsMc_setRb _ _ _

theorem keepsMc_rbDeqOp : KeepsMc s (rbDeqOp p s).st := by
  unfold rbDeqOp
  split
  · exact keepsMc_of_ports rfl
  · split
    · exact keepsMc_of_ports rfl
    · exact keepsMc_of_ports rfl
    · exact keepsMc_setRb _ _ _

end

theorem KeepsMc.toLat {α : Type} {s : State} {f : Flow α} (h : KeepsMc s f.st) (p : Nat) (g : α → MicroResult) :
    KeepsMc s (f.toLat p g) := by
  unfold Flow.toLat
  split
  · exact h.trans (keepsMc_setLat _ _ _)
  · exact h

theorem keepsMc_of_onPort {p : Byte} {s f t : State} (h : onPort p s f = .next t) (hf : KeepsMc s f) : KeepsMc s t := by
  obtain ⟨-, rfl⟩ := onPort_next h
  exact hf

theorem HostLeaves.keepsMc {i : Instr} {s t : State} (h : HostLeaves i s t) : KeepsMc s t := by
  cases h with
  | raised c r _ => exact keepsMc_of_ports rfl
  | returned x => exact keepsMc_upd (by rfl) _
  | entered pc => exact keepsMc_setTpc _ _ _

theorem keepsMc_exec {i : Instr} {s t : State} (hi : i.writesMc = false) (h : exec i s = .next t) : KeepsMc s t := by
  cases i with
  | mcw | assertRts | negateRts | assertDtr | negateDtr | txPhase | kick => cases hi
  | probe | initInt | initPoll | openPort | closePort | flush | writeInt | writePoll | writePolled | readPolled | setAttr
  | fcAssert | fcNegate => exact (hostLeaves_exec (by simp [Instr.op]) h).keepsMc
  | rbInit p => exact keepsMc_of_onPort h (keepsMc_setRb _ _ _)
  | rbIsEmpty p => exact keepsMc_of_onPort h ((keepsMc_rbIsEmptyOp _ _).toLat _ _)
  | rbIsFull p => exact keepsMc_of_onPort h ((keepsMc_rbIsFullOp _ _).toLat _ _)
  | rbEnq p b => exact keepsMc_of_onPort h ((keepsMc_rbEnqOp _ _ _).toLat _ _)
  | rbDeq p => exact keepsMc_of_onPort h ((keepsMc_rbDeqOp _ _).toLat _ _)
  | alloc p => exact keepsMc_of_onPort h (keepsMc_allocOp _ _)
  | channelReset | portInitializer => exact keepsMc_of_onPort h (keepsMc_pushStmts _ _ _ _)
  | process p bits =>
    exact keepsMc_of_onPort h (KeepsMc.trans (keepsMc_of_ports (by rfl)) (keepsMc_pushStmts _ _ _ _))
  | rxPhase p =>
    refine keepsMc_of_onPort h ?_
    split
    · exact keepsMc_rxTurn _ _
    · exact keepsMc_of_ports rfl
  | extPhase p =>
    refine keepsMc_of_onPort h ?_
    split
    · exact (keepsMc_ctlOp _ _ _ _).trans (keepsMc_of_ports rfl)
    · exact keepsMc_of_ports rfl
  | eoi p => exact keepsMc_of_onPort h (keepsMc_ctlOp _ _ _ _)
  | isrEntry p =>
    simp only [exec, execIsrEntry] at h
    split at h <;> obtain rfl := Host.Outcome.next.inj h
    · split <;> exact keepsMc_of_ports rfl
    · exact keepsMc_of_ports rfl
  | getReg p tag =>
    simp only [exec, execGetReg] at h
    split at h
    · exact keepsMc_of_onPort h (KeepsMc.trans (keepsMc_of_ports (by rfl)) (keepsMc_setLat _ _ _))
    · cases h
  | getData p => exact keepsMc_of_onPort h (KeepsMc.trans (keepsMc_of_ports (by rfl)) (keepsMc_setLat _ _ _))
  | ctl p a tag =>
    cases tag with
    | act k => exact keepsMc_of_onPort h (keepsMc_ctlOp _ _ _ _)
    | selStatus | selPending | selMc => cases h
  | up p c => exact keepsMc_of_onPort h (keepsMc_upOp _ _ _)
  | registerVector | wait | setReg | setData => exact keepsMc_of_onPort h (keepsMc_of_ports (by rfl))

/-! ### What writes a shadow byte writes the register (R181) -/

/-- The last value the events write to the modem-control register at an address. -/
def lastMcw (a : Addr) (es : List Event) : Option Byte := (es.filterMap (Event.mcwValue a)).getLast?

theorem lastMcw_append (a : Addr) (es es' : List Event) : lastMcw a (es ++ es') = (lastMcw a es').or (lastMcw a es) := by
  rw [lastMcw, List.filterMap_append, List.getLast?_append]
  rfl

/-- From `s` to `t` events are appended, and port p's shadow byte is the last value they write to its modem-control register,
or as it was where they write none. -/
structure Shadowed (p : Nat) (s t : State) : Prop where
  nports : t.nports = s.nports
  cfg    : (t.port p).cfg = (s.port p).cfg
  own    : p < s.nports → ∃ es, t.trace = s.trace ++ es
    ∧ (t.port p).mc = (lastMcw (s.port p).cfg.ctrlOwn es).or (s.port p).mc

section
variable {p : Nat} {s t u : State}

theorem Shadowed.trans (h : Shadowed p s t) (k : Shadowed p t u) : Shadowed p s u := by
  refine ⟨k.nports.trans h.nports, k.cfg.trans h.cfg, fun hp => ?_⟩
  obtain ⟨es, hes, hmc⟩ := h.own hp
  obtain ⟨es', hes', hmc'⟩ := k.own (h.nports ▸ hp)
  refine ⟨es ++ es', by rw [hes', hes, List.append_assoc], ?_⟩
  rw [hmc', hmc, h.cfg, lastMcw_append, Option.or_assoc]

theorem shadowed_of_ports (hports : t.ports = s.ports) {es : List Event} (hes : t.trace = s.trace ++ es)
    (hnone : ∀ a, lastMcw a es = none) : Shadowed p s t := by
  refine ⟨congrArg List.length hports, by rw [port_congr hports], fun _ => ⟨es, hes, ?_⟩⟩
  rw [hnone, Option.none_or, port_congr hports]

theorem shadowed_upd {q : Port} {es : List Event} (hc : q.cfg = (s.port p).cfg)
    (hm : q.mc = (lastMcw (s.port p).cfg.ctrlOwn es).or (s.port p).mc) : Shadowed p s (s.upd p q es) := by
  refine ⟨upd_nports _ _ _ _, ?_, fun hp => ⟨es, rfl, by rw [upd_port_same hp, hm]⟩⟩
  show ((s.setPort p q).port p).cfg = _
  rw [port_setPort]
  split
  · exact hc
  · rfl

variable (p s)

theorem Shadowed.refl : Shadowed p s s := shadowed_of_ports rfl (List.append_nil _).symm fun _ => rfl

theorem shadowed_raise (c : FaultCode) (r : Nat) (op : Byte) : Shadowed p s (raise c r op s) :=
  shadowed_of_ports rfl rfl fun _ => rfl

theorem shadowed_readStatus : Shadowed p s (readStatus p s) := shadowed_of_ports rfl rfl fun _ => rfl
theorem shadowed_writeData (v : Byte) : Shadowed p s (writeData p v s) := shadowed_of_ports rfl rfl fun _ => rfl
theorem shadowed_ctlOp (k : Action) (a : Byte) : Shadowed p s (ctlOp p k a s) := shadowed_upd rfl rfl

theorem shadowed_mcwOp (v : Byte) : Shadowed p s (mcwOp p v s) := by
  refine shadowed_upd rfl ?_
  simp [lastMcw, Event.mcwValue]

theorem shadowed_setTxActive (b : Bool) : Shadowed p s (setTxActive p b s) := by
  rw [setTxActive_eq]
  exact shadowed_upd rfl rfl

theorem shadowed_setRb (r : Ring) : Shadowed p s (setRb p r s) := by
  rw [setRb_eq]
  exact shadowed_upd rfl rfl

theorem shadowed_setLat (x : MicroResult) : Shadowed p s (setLat p x s) := by
  unfold setLat
  split
  · exact shadowed_of_ports rfl (List.append_nil _).symm fun _ => rfl
  · rw [setPort_eq_upd]
    exact shadowed_upd rfl rfl

theorem shadowed_lineOp (op : Byte) (f : Byte → Byte) : Shadowed p s (lineOp p op f s).st := by
  unfold lineOp
  split
  · exact shadowed_raise _ _ _ _ _
  · exact shadowed_mcwOp _ _ _

theorem shadowed_negRtsCond : Shadowed p s (negRtsCond p s).st := by
  unfold negRtsCond
  split
  · exact .refl _ _
  · exact shadowed_lineOp _ _ _ _

theorem shadowed_rbIsEmptyOp : Shadowed p s (rbIsEmptyOp p s).st := by
  unfold rbIsEmptyOp
  split
  · exact shadowed_raise _ _ _ _ _
  · exact .refl _ _

theorem shadowed_rbDeqOp : Shadowed p s (rbDeqOp p s).st := by
  unfold rbDeqOp
  split
  · exact shadowed_raise _ _ _ _ _
  · split
    · exact .refl _ _
    · exact shadowed_raise _ _ _ _ _
    · exact shadowed_setRb _ _ _

end

theorem Shadowed.andThen {α β : Type} {p : Nat} {s : State} {f : Flow α} {k : α → State → Flow β} (hf : Shadowed p s f.st)
    (hk : ∀ a t, Shadowed p t (k a t).st) : Shadowed p s (f.andThen k).st := by
  unfold Flow.andThen
  split
  · exact hf.trans (hk _ _)
  · exact hf

theorem Shadowed.toLat {α : Type} {p : Nat} {s : State} {f : Flow α} (hf : Shadowed p s f.st) (g : α → MicroResult) :
    Shadowed p s (f.toLat p g) := by
  unfold Flow.toLat
  split
  · exact hf.trans (shadowed_setLat _ _ _)
  · exact hf

/-- The transmit phase, whose RTS negate is an MCW (R242, R225). -/
theorem shadowed_txPhaseOp (p : Nat) (s : State) : Shadowed p s (txPhaseOp p s).st := by
  unfold txPhaseOp
  dsimp only
  split
  · exact shadowed_readStatus _ _
  · split
    · exact (shadowed_readStatus _ _).trans (shadowed_ctlOp _ _ _ _)
    · refine (shadowed_readStatus p s).trans ((shadowed_rbIsEmptyOp _ _).andThen fun e t => ?_)
      split
      · exact (shadowed_setTxActive _ _ _).trans
          ((shadowed_negRtsCond _ _).andThen fun _ u => shadowed_ctlOp _ _ _ _)
      · refine (shadowed_rbDeqOp _ _).andThen fun d u => ?_
        split
        · exact shadowed_raise _ _ _ _ _
        · exact (shadowed_writeData _ _ _).trans (shadowed_ctlOp _ _ _ _)

/-- KICK: its RTS assert, and after it the transmit phase's negate, if any (R256). -/
theorem shadowed_kickOp (p : Nat) (s : State) : Shadowed p s (kickOp p s).st := by
  unfold kickOp
  split
  · exact shadowed_raise _ _ _ _ _
  · exact .refl _ _
  · exact (shadowed_lineOp _ _ _ _).andThen fun _ t =>
      (shadowed_setTxActive _ _ _).trans ((shadowed_txPhaseOp _ _).andThen fun _ u => .refl _ _)

theorem shadowed_of_onPort {p : Byte} {s f t : State} (h : onPort p s f = .next t) (hf : Shadowed p.toNat s f) :
    p.toNat < s.nports ∧ Shadowed p.toNat s t := by
  obtain ⟨hp, rfl⟩ := onPort_next h
  exact ⟨hp, hf⟩

theorem shadowed_exec {i : Instr} {s t : State} (hi : i.writesMc = true) (h : exec i s = .next t) :
    i.port.toNat < s.nports ∧ Shadowed i.port.toNat s t := by
  cases i with
  | mcw p v => exact shadowed_of_onPort h (shadowed_mcwOp _ _ _)
  | assertRts | negateRts | assertDtr | negateDtr => exact shadowed_of_onPort h (shadowed_lineOp _ _ _ _)
  | txPhase p => exact shadowed_of_onPort h (shadowed_txPhaseOp _ _)
  | kick p => exact shadowed_of_onPort h ((shadowed_kickOp _ _).toLat _)
  | _ => cases hi

/-- An instruction that writes a shadow byte writes the record of its own port alone. -/
theorem only_exec_writesMc {i : Instr} {s t : State} (hi : i.writesMc = true) (h : exec i s = .next t) :
    Only i.port.toNat s t := by
  by_cases hr : i.readsBottom = true
  · obtain hcalm | hraised := calm_or_raised_exec hr h
    · exact hcalm.toOnly
    · exact hraised.only
  · cases i with
    | mcw p v =>
      obtain ⟨-, rfl⟩ := onPort_next h
      exact (calm_mcwOp _ _ _).toOnly
    | assertRts | negateRts | assertDtr | negateDtr | txPhase | kick => exact absurd rfl hr
    | _ => cases hi

/-! ### The agents' statements and the steps -/

/-- Every port's shadow byte is as it was, or the last value written to its modem-control register (R40). -/
def Follows (s t : State) : Prop := ∀ p, (t.port p).mc = (s.port p).mc
  ∨ ∃ v, (t.port p).mc = some v ∧ lastMcw (s.port p).cfg.ctrlOwn (newEvents s t) = some v

theorem KeepsMc.follows {s t : State} (h : KeepsMc s t) : Follows s t := fun p => .inl (h p)

theorem Shadowed.follows {p : Nat} {s t : State} (h : Shadowed p s t) (hp : p < s.nports) (ho : Only p s t) :
    Follows s t := by
  intro r
  by_cases hr : r = p
  · subst hr
    obtain ⟨es, hes, hmc⟩ := h.own hp
    rw [newEvents, hes, List.drop_left]
    cases hlast : lastMcw (s.port r).cfg.ctrlOwn es with
    | none => exact .inl (by rw [hmc, hlast, Option.none_or])
    | some v => exact .inr ⟨v, by rw [hmc, hlast, Option.some_or], rfl⟩
  · exact .inl (by rw [ho.others r hr])

theorem follows_exec {i : Instr} {s t : State} (h : exec i s = .next t) : Follows s t := by
  cases hi : i.writesMc with
  | false => exact (keepsMc_exec hi h).follows
  | true =>
    obtain ⟨hp, hs⟩ := shadowed_exec hi h
    exact hs.follows hp (only_exec_writesMc hi h)

/-- Neither the trace nor a shadow byte nor a configuration differs. -/
structure Still (s t : State) : Prop where
  trace : t.trace = s.trace
  mc    : KeepsMc s t
  cfg   : ∀ r, (t.port r).cfg = (s.port r).cfg

theorem still_of_ports {s t : State} (htrace : t.trace = s.trace) (hports : t.ports = s.ports) : Still s t :=
  ⟨htrace, keepsMc_of_ports hports, fun r => by rw [port_congr hports r]⟩

/-- A task micro-PC moved. -/
theorem still_position (s : State) (p : Nat) (pc : TaskPc) : Still s (s.upd p { s.port p with tpc := pc } []) := by
  refine ⟨List.append_nil _, keepsMc_upd (by rfl) _, fun r => ?_⟩
  show ((s.setPort p _).port r).cfg = _
  rw [port_setPort]
  split
  next h => rw [h.1]
  next => rfl

theorem Follows.after {s t u : State} (h : Still s t) (k : Follows t u) : Follows s u := by
  intro r
  have hr := k r
  rwa [newEvents, h.trace, h.mc r, h.cfg r] at hr

theorem Follows.before {s t u : State} (h : Follows s t) (k : Still t u) : Follows s u := by
  intro r
  rw [newEvents, k.trace, k.mc r]
  exact h r

theorem follows_taskStmt {p : Nat} {cmd : Instr} {st : Stmt} {s t : State} (h : StmtLeaves p cmd s st t) : Follows s t := by
  cases h with
  | start h | op h | enqueueRaises h => exact follows_exec h
  | stays => exact (keepsMc_of_ports (by rfl)).follows
  | moves => exact (keepsMc_setTpc _ _ _).follows
  | returns => exact (keepsMc_upd (by rfl) _).follows
  | baud => exact (keepsMc_of_ports (by rfl)).follows
  | initReady h =>
    exact ((keepsMc_exec rfl h).trans ((keepsMc_setTxActive _ _ _).trans (keepsMc_setLife _ _ _))).follows
  | enqueueOverflows h => exact ((keepsMc_exec rfl h).trans (keepsMc_of_ports (by rfl))).follows
  | enqueues pc h => exact ((keepsMc_exec rfl h).trans (keepsMc_setTpc _ _ _)).follows

theorem follows_isrStmt {c : IsrPc} {st : Stmt} {rest : List Stmt} {s t : State} (h : isrStmt c st rest s = .next t) :
    Follows s t := by
  cases st with
  | op i => exact (follows_exec h).after (still_of_ports rfl rfl)
  | isrNext =>
    simp only [isrStmt] at h
    split at h <;> cases h <;> exact (keepsMc_of_ports (by rfl)).follows
  | serviceTest a =>
    simp only [isrStmt] at h
    split at h <;> cases h
    exact (keepsMc_of_ports (serviceTest_ports _ _ _ _ _)).follows
  | start | allocTest | baud | initReady | ret | flushTest | writeByte | fullTest | kickTest | enqueue | pollByte | putTest
  | readTest | retByte => cases h

theorem follows_step {s t : State} (h : step s = .next t) : Follows s t := by
  obtain ⟨-, ⟨-, rfl⟩ | ⟨-, -, he⟩ | ⟨p, c, -, -, -, -, -, hi⟩ | ⟨p, cmd, -, -, -, -, rfl⟩
    | ⟨p, cmd, st, rest, -, -, -, -, hx⟩ | ⟨v, -, -, -, rfl⟩ | ⟨c, st, rest, -, -, -, -, hx⟩⟩ := step_cases h
  · exact (keepsMc_of_ports (by rfl)).follows
  · rw [he]
    exact (keepsMc_of_ports (by rfl)).follows
  · obtain ⟨f, op, rfl⟩ | ⟨i, -, -, -, -, rfl⟩ := issue_next hi
    · exact (keepsMc_of_ports (by rfl)).follows
    · exact (keepsMc_upd (s := s.taskStart p) (by rfl) _).follows
  · exact (keepsMc_upd (s := s.taskStart p) (by rfl) _).follows
  · obtain ⟨u, hu, hres⟩ := holdPc_next hx
    have hk : Follows s u :=
      ((follows_taskStmt (stmtLeaves hu)).after (still_position (s.taskStart p) p _)).after (still_of_ports rfl rfl)
    obtain ⟨-, rfl⟩ | ⟨-, rfl⟩ := hres
    · exact hk
    · exact (hk.before (still_position u p _)).before (still_of_ports rfl rfl)
  · exact (keepsMc_of_ports (by rfl)).follows
  · obtain ⟨u, hu, hres⟩ := holdIpc_next hx
    have hk : Follows s u := (follows_isrStmt hu).after (still_of_ports rfl rfl)
    obtain ⟨-, rfl⟩ | ⟨-, rfl⟩ := hres
    · exact hk
    · exact hk.before (still_of_ports rfl rfl)

/-- Settles O57, by what the step is: an instruction keeps every shadow byte, or what it writes of its port's it has last
written to the register. -/
theorem shadowFollowsTheRegister : Obligations.ShadowFollowsTheRegister := by
  unfold Obligations.ShadowFollowsTheRegister
  intro s t p h
  exact follows_step h p

end Machine
end Sys2Proof
end

section
/-! PROOFS. The invariant port by port: what it says of one record, which positions `posOk` and `taskOk` allow, and what the
pseudocode bodies put there (R43, R48, R304). -/

namespace Sys2Proof.Machine

open Sys2Proof

/-! ### The invariant of one port -/

/-- The ring meets R43, and on a READY port no field R304 speaks of is ⊥. -/
structure DataOk (cap : Nat) (q : Port) : Prop where
  ring    : ∀ r, q.rb = some r → r.wf cap = true
  written : q.life = .ready → Written cap q

/-- What the invariant says of the record of port p. -/
structure PortInv (cap p : Nat) (q : Port) : Prop where
  data : DataOk cap q
  task : taskOk cap p q = true

theorem DataOk.congr {cap : Nat} {q q' : Port} (h : DataOk cap q) (hl : q'.life = q.life) (hm : q'.mc = q.mc)
    (ht : q'.txActive = q.txActive) (hr : q'.rb = q.rb) : DataOk cap q' := by
  refine ⟨fun r hr' => h.ring r (hr ▸ hr'), fun hl' => ?_⟩
  obtain ⟨hmc, htx, hring⟩ := h.written (hl ▸ hl')
  exact ⟨hm ▸ hmc, ht ▸ htx, hr ▸ hring⟩

theorem Written.dataOk {cap : Nat} {q : Port} (h : Written cap q) : DataOk cap q := by
  refine ⟨fun r hr => ?_, fun _ => h⟩
  obtain ⟨r', hr', hw⟩ := h.ring
  obtain rfl := Option.some.inj (hr.symm.trans hr')
  exact hw

theorem DataOk.mc_isSome {cap : Nat} {q : Port} (h : DataOk cap q) (hl : q.life = .ready) : q.mc.isSome = true :=
  Option.isSome_iff_exists.mpr (h.written hl).mc

theorem Inv.portInv {s : State} (h : Inv s) {p : Nat} (hp : p < s.nports) : PortInv s.par.rbCap p (s.port p) :=
  ⟨⟨fun _ hr => h.ring_wf hp hr, h.written_of_ready hp⟩, h.tasks p hp⟩

/-- Every record of a state is that of one of its ports. -/
theorem exists_port_of_mem {s : State} {q : Port} (h : q ∈ s.ports) : ∃ p, p < s.nports ∧ s.port p = q := by
  obtain ⟨p, hp, rfl⟩ := List.mem_iff_getElem.mp h
  refine ⟨p, hp, ?_⟩
  rw [State.port, List.getD_eq_getElem?_getD, List.getElem?_eq_getElem hp, Option.getD_some]

theorem inv_of_portInv {s : State} (hl : s.launch.wf = true) (hp : ∀ p, p < s.nports → PortInv s.par.rbCap p (s.port p))
    (hi : isrOk s = true) : Inv s where
  launch := hl
  rings := List.all_eq_true.mpr fun q hq => by
    obtain ⟨p, hlt, rfl⟩ := exists_port_of_mem hq
    cases hr : (s.port p).rb with
    | none => rfl
    | some r => exact (hp p hlt).data.ring r hr
  ready := List.all_eq_true.mpr fun q hq => by
    obtain ⟨p, hlt, rfl⟩ := exists_port_of_mem hq
    by_cases hl : (s.port p).life = .ready
    · obtain ⟨⟨m, hm⟩, ⟨b, hb⟩, r, hr, -⟩ := (hp p hlt).data.written hl
      simp [readyDefined, hm, hb, hr]
    · simp [readyDefined, hl]
  tasks p hlt := (hp p hlt).task
  isr := hi

/-! ### The positions of a TASK -/

section
variable {cap p : Nat} {q : Port} {cmd : Instr} {rest : List Stmt}

theorem taskOk_of_idle (ht : q.tpc = .idle) (hl : q.life ≠ .initializing) : taskOk cap p q = true := by
  simp [taskOk, ht, hl]

/-- Outside the tests, `start` and `enqueue` a position is what `posOk` says. -/
theorem taskOk_of_posOk {pos : List Stmt} (ht : q.tpc = .inCmd cmd pos) (hcmd : cmd.port.toNat = p)
    (hhost : cmd.op.toNat ≤ 0x0D) (h : posOk p q.life q.mc.isSome pos = true) : taskOk cap p q = true := by
  simp only [taskOk, ht, hcmd, beq_self_eq_true, decide_eq_true hhost, Bool.true_and]
  split
  case h_9 => exact h
  all_goals exact nomatch h

end

/-- The micro-operations of a command's pseudocode with what follows each (R48): one that answers stands before the statement
that reads its answer. -/
inductive OpAt (p : Nat) (l : Life) (m : Bool) : Instr → List Stmt → Prop
  | alloc {q : Byte} {rest : List Stmt} (hq : q.toNat = p) (hl : l = .uninit) (h : posOk p .initializing m rest = true) :
      OpAt p l m (.alloc q) (.allocTest :: rest)
  | rbIsEmpty {q : Byte} {rest : List Stmt} (hq : q.toNat = p) (hl : l = .ready) (h : posOk p l m rest = true) :
      OpAt p l m (.rbIsEmpty q) (.flushTest :: rest)
  | rbIsFull {q : Byte} {k : Nat} (hq : q.toNat = p) (hl : l = .ready) : OpAt p l m (.rbIsFull q) [.fullTest k]
  | putStatus {q b : Byte} {rest : List Stmt} (hq : q.toNat = p) (hl : l = .ready) (h : posOk p l m rest = true) :
      OpAt p l m (.getReg q .selStatus) (.putTest b :: rest)
  | readStatus {q : Byte} (hq : q.toNat = p) (hl : l = .ready) : OpAt p l m (.getReg q .selStatus) [.readTest]
  | getData {q : Byte} (hq : q.toNat = p) (hl : l = .ready) : OpAt p l m (.getData q) [.retByte]
  | portInitializer {q : Byte} {rest : List Stmt} (hq : q.toNat = p) (hl : l = .initializing)
      (h : posOk p l true rest = true) : OpAt p l m (.portInitializer q) rest
  | mcw {q v : Byte} {rest : List Stmt} (hq : q.toNat = p) (hl : l = .initializing) (h : posOk p l true rest = true) :
      OpAt p l m (.mcw q v) rest
  | alone {i : Instr} {rest : List Stmt} (hi : i.port.toNat = p) (ha : aloneAt l i = true) (h : posOk p l m rest = true) :
      OpAt p l m i rest

theorem opAt_of_posOk {p : Nat} {l : Life} {m : Bool} {i : Instr} {rest : List Stmt}
    (h : posOk p l m (.op i :: rest) = true) : OpAt p l m i rest := by
  unfold posOk at h
  split at h
  case h_16 => cases h
  all_goals
    rename_i heq
    cases heq
  all_goals
    simp only [Bool.and_eq_true, beq_iff_eq, List.isEmpty_iff] at h
    obtain ⟨⟨hp, hl⟩, h⟩ := h
  case h_1 => exact .alloc hp hl h
  case h_2 => exact .rbIsEmpty hp hl h
  case h_3 => exact h ▸ .rbIsFull hp hl
  case h_4 => exact .putStatus hp hl h
  case h_5 => exact h ▸ .readStatus hp hl
  case h_6 => exact h ▸ .getData hp hl
  case h_7 => exact .portInitializer hp hl h
  case h_8 => exact .mcw hp hl h
  case h_9 => exact .alone hp hl h

end Sys2Proof.Machine
end

section
/-! PROOFS. A micro-operation and a command's start keep the invariant of their TASK's port: what each leaves of the record, and
that the position after it is one `taskOk` allows. -/

namespace Sys2Proof.Machine

open Sys2Proof

/-! ### The pseudocode bodies are positions of their TASK -/

section
variable {p : Byte} {m : Bool}

theorem posOk_channelResetBody {rest : List Stmt} (c : PortCfg) (h : posOk p.toNat .initializing m rest = true) :
    posOk p.toNat .initializing m (channelResetBody c p ++ rest) = true := by
  simp [channelResetBody, ctlStmt, posOk, aloneAt, Instr.port, h]

theorem posOk_brgBody {rest : List Stmt} (d : BitVec 16) (h : posOk p.toNat .initializing m rest = true) :
    posOk p.toNat .initializing m (brgBody p d ++ rest) = true := by
  simp [brgBody, posOk, aloneAt, Instr.port, h]

theorem posOk_initializerBody {rest : List Stmt} (par : Params) (h : posOk p.toNat .initializing true rest = true) :
    posOk p.toNat .initializing m (initializerBody par p ++ rest) = true := by
  simp [initializerBody, ctlStmt, posOk, aloneAt, Instr.port, h]

theorem posOk_initIntBody (c : PortCfg) : posOk p.toNat .initializing m (initIntBody c p) = true := by
  unfold initIntBody
  split_ifs <;> simp [ctlStmt, posOk, aloneAt, Instr.port]

theorem posOk_openBody (c : PortCfg) :
    posOk p.toNat .ready m ((if dtrCond c then [.op (.assertDtr p)] else []) ++ [.ret (.int 0)]) = true := by
  split <;> simp [posOk, aloneAt, Instr.port]

theorem posOk_closeBody (c : PortCfg) : posOk p.toNat .ready m (closeBody c p) = true := by
  unfold closeBody
  split <;> simp [posOk, aloneAt, Instr.port]

theorem posOk_assertCallback (st : Strategy) :
    posOk p.toNat .ready m (assertCallback p st ++ [.ret (.int 0)]) = true := by
  cases st <;> simp [assertCallback, posOk, aloneAt, Instr.port]

theorem posOk_negateCallback (st : Strategy) :
    posOk p.toNat .ready m (negateCallback p st ++ [.ret (.int 0)]) = true := by
  cases st <;> simp [negateCallback, posOk, aloneAt, Instr.port]

end

/-! ### The start of a command -/

theorem lifeFault_eq_none {q : Port} (h : lifeFault q = none) : q.life = .ready := by
  unfold lifeFault at h
  split at h
  case h_4 hl => exact hl
  all_goals cases h

theorem life_of_initFault {m : Mode} {q : Port} (h : initFault m q = none) : q.life = .uninit := by
  unfold initFault at h
  split at h
  case h_4 hl => exact hl
  all_goals cases h

theorem life_of_firstFault {q : Port} {b : Option FaultCode} (h : firstFault (lifeFault q) b = none) : q.life = .ready := by
  cases hl : lifeFault q with
  | none => exact lifeFault_eq_none hl
  | some c =>
    rw [hl] at h
    cases h

theorem posOk_of_life {p : Nat} {l l' : Life} {m : Bool} {body : List Stmt} (hl : l = l') (h : posOk p l' m body = true) :
    posOk p l m body = true :=
  hl ▸ h

/-- Every host command but PROBE makes its checks and enters a pseudocode, and where the checks pass that is a position of its
TASK (R205, R270). -/
theorem exec_begins {i : Instr} (hhost : i.op.toNat ≤ 0x0D) (hprobe : ∀ q, i ≠ .probe q) (s : State) (m : Bool) :
    ∃ chk body, exec i s = onHost i.port i.op s (beginCmd i i.port.toNat chk body s)
      ∧ (chk = none → posOk i.port.toNat (s.port i.port.toNat).life m body = true) := by
  cases i with
  | probe p => exact absurd rfl (hprobe p)
  | initInt p =>
    exact ⟨_, _, rfl, fun h => posOk_of_life (life_of_initFault h) (by simp [posOk, Instr.port, posOk_initIntBody])⟩
  | initPoll p =>
    exact ⟨_, _, rfl, fun h => posOk_of_life (life_of_initFault h) (by simp [posOk, Instr.port])⟩
  | openPort p => exact ⟨_, _, rfl, fun h => posOk_of_life (lifeFault_eq_none h) (posOk_openBody _)⟩
  | closePort p => exact ⟨_, _, rfl, fun h => posOk_of_life (lifeFault_eq_none h) (posOk_closeBody _)⟩
  | flush p =>
    exact ⟨_, _, rfl, fun h => posOk_of_life (lifeFault_eq_none h) (by simp [posOk, Instr.port, posOk_closeBody])⟩
  | writePolled p b =>
    exact ⟨_, _, rfl, fun h => posOk_of_life (lifeFault_eq_none h) (by simp [polledPut, posOk, Instr.port])⟩
  | setAttr p => exact ⟨_, _, rfl, fun h => posOk_of_life (lifeFault_eq_none h) rfl⟩
  | writeInt p xs | writePoll p xs => exact ⟨_, _, rfl, fun h => posOk_of_life (life_of_firstFault h) rfl⟩
  | readPolled p => exact ⟨_, _, rfl, fun h => posOk_of_life (life_of_firstFault h) (by simp [posOk, Instr.port])⟩
  | fcAssert p => exact ⟨_, _, rfl, fun h => posOk_of_life (life_of_firstFault h) (posOk_assertCallback _)⟩
  | fcNegate p => exact ⟨_, _, rfl, fun h => posOk_of_life (life_of_firstFault h) (posOk_negateCallback _)⟩
  | _ => simp [Instr.op] at hhost

/-- Nothing is raised, and port p meets the invariant. -/
structure Lands (cap p : Nat) (u : State) : Prop where
  fault : u.fault = none
  port  : PortInv cap p (u.port p)

/-- A piece of a TASK from `s` lands, or it raises and leaves its port's record. -/
def LandsOrRaises (cap p : Nat) (s u : State) : Prop := Lands cap p u ∨ u.fault ≠ none ∧ u.port p = s.port p

theorem lands_upd {cap p : Nat} {s : State} {q : Port} (hp : p < s.nports) (hf : s.fault = none) (h : PortInv cap p q)
    (es : List Event) : Lands cap p (s.upd p q es) :=
  ⟨hf, by rwa [upd_port_same hp]⟩

/-- The start of a command on a port that is not being initialized. -/
theorem lands_start {cap : Nat} {s u : State} {cmd : Instr} (hp : cmd.port.toNat < s.nports) (hf : s.fault = none)
    (hd : DataOk cap (s.port cmd.port.toNat)) (hhost : cmd.op.toNat ≤ 0x0D)
    (hl : (s.port cmd.port.toNat).life ≠ .initializing) (h : exec cmd s = .next u) :
    LandsOrRaises cap cmd.port.toNat s u := by
  by_cases hprobe : ∃ q, cmd = .probe q
  · obtain ⟨q, rfl⟩ := hprobe
    obtain rfl := Host.Outcome.next.inj ((onHost_of_lt hp _ _).symm.trans h)
    rw [returnOp_eq]
    refine .inl (lands_upd hp hf ?_ _)
    exact ⟨hd.congr rfl rfl rfl rfl, taskOk_of_idle rfl hl⟩
  · obtain ⟨chk, body, he, hbody⟩ :=
      exec_begins hhost (fun q e => hprobe ⟨q, e⟩) s (s.port cmd.port.toNat).mc.isSome
    rw [he, onHost_of_lt hp] at h
    obtain rfl := Host.Outcome.next.inj h
    cases chk with
    | some c => exact .inr ⟨Option.some_ne_none _, rfl⟩
    | none =>
      rw [beginCmd, setTpc_eq]
      refine .inl (lands_upd hp hf ?_ _)
      exact ⟨hd.congr rfl rfl rfl rfl, taskOk_of_posOk rfl rfl hhost (hbody rfl)⟩

/-! ### What the micro-operations of a TASK leave of its port -/

theorem fault_exec_micro {i : Instr} {s t : State} (hh : 0x0D < i.op.toNat) (he : ∀ q, i ≠ .isrEntry q)
    (hw : i.readsBottom = true → Written s.par.rbCap (s.port i.port.toNat)) (h : exec i s = .next t) :
    t.fault = s.fault := by
  cases hr : i.readsBottom with
  | true => exact fault_exec_written hr (hw hr) h
  | false => exact (runs_exec hh hr he h).fault

theorem TxLeaves.written {par : Params} {q q' : Port} (h : TxLeaves par q q') (hw : Written par.rbCap q) :
    Written par.rbCap q' := by
  obtain ⟨hmc, htx, r, hr, hwf⟩ := hw
  obtain ⟨-, hring, htx', hmc'⟩ := h
  refine ⟨?_, ?_, ?_⟩
  · obtain e | ⟨-, m, -, e⟩ := hmc'
    · rwa [e]
    · exact ⟨_, e⟩
  · obtain e | e := htx'
    · rwa [e]
    · exact ⟨_, e⟩
  · obtain e | ⟨r₀, r', b, hr₀, e, hd⟩ := hring
    · exact ⟨r, e.trans hr, hwf⟩
    · obtain rfl := Option.some.inj (hr.symm.trans hr₀)
      exact ⟨r', e, Ring.deq_wf hwf hd⟩

/-- A micro-operation leaves its port at its position and in its life state, the shadow byte written where it was. -/
structure SamePlace (cap : Nat) (q q' : Port) : Prop where
  tpc  : q'.tpc = q.tpc
  life : q'.life = q.life
  mc   : q'.mc.isSome = q.mc.isSome
  data : DataOk cap q'

section
variable {cap : Nat} {q q' : Port}

theorem DataOk.samePlace (h : DataOk cap q) (ht : q'.tpc = q.tpc) (hl : q'.life = q.life) (hm : q'.mc = q.mc)
    (ha : q'.txActive = q.txActive) (hr : q'.rb = q.rb) : SamePlace cap q q' :=
  ⟨ht, hl, congrArg _ hm, h.congr hl hm ha hr⟩

theorem Written.samePlace (h : Written cap q) (h' : Written cap q') (ht : q'.tpc = q.tpc) (hl : q'.life = q.life) :
    SamePlace cap q q' :=
  ⟨ht, hl, (Option.isSome_iff_exists.mpr h'.mc).trans (Option.isSome_iff_exists.mpr h.mc).symm, h'.dataOk⟩

/-- The statements after a micro-operation that stands alone are a position of the TASK. -/
theorem SamePlace.portInv {p : Nat} {cmd : Instr} {rest : List Stmt} (h : SamePlace cap q q') (ht : q.tpc = .inCmd cmd rest)
    (hcmd : cmd.port.toNat = p) (hhost : cmd.op.toNat ≤ 0x0D) (hpos : posOk p q.life q.mc.isSome rest = true) :
    PortInv cap p q' :=
  ⟨h.data, taskOk_of_posOk (h.tpc.trans ht) hcmd hhost (by rwa [h.life, h.mc])⟩

end

section
variable {s u : State} {p : Byte} (hp : p.toNat < s.nports) (hc : s.cpu = .task)
include hp hc

theorem port_setLat (x : MicroResult) : (setLat p.toNat x s).port p.toNat = { s.port p.toNat with lat := x } := by
  rw [setLat_task hc, upd_port_same hp]

theorem port_exec_alloc (h : exec (.alloc p) s = .next u) :
    u.port p.toNat = { s.port p.toNat with
      life := if nextAlloc s then .initializing else .failed, lat := .bool (nextAlloc s) } := by
  obtain rfl := Host.Outcome.next.inj ((exec_alloc hp).symm.trans h)
  rw [allocOp, port_setLat (by simpa [setLife] using hp) (by exact hc), setLife, port_setPort_same _ _ _ (by exact hp)]
  rfl

theorem port_exec_getReg {tag : RegTag} (ht : tag.readable = true) (h : exec (.getReg p tag) s = .next u) :
    u.port p.toNat = { s.port p.toNat with lat := .byte (nextByte s) } := by
  obtain rfl := Host.Outcome.next.inj ((exec_getReg hp ht).symm.trans h)
  exact port_setLat (s := busRdReg _ _ s) hp hc _

theorem port_exec_getData (h : exec (.getData p) s = .next u) :
    u.port p.toNat = { s.port p.toNat with lat := .byte (nextByte s) } := by
  obtain rfl := Host.Outcome.next.inj ((exec_getData hp).symm.trans h)
  exact port_setLat (s := readData _ s) hp hc _

theorem port_exec_rbIsEmpty {r : Ring} (hr : (s.port p.toNat).rb = some r) (h : exec (.rbIsEmpty p) s = .next u) :
    u.port p.toNat = { s.port p.toNat with lat := .bool r.isEmpty } := by
  rw [exec_rbIsEmpty hp, rbIsEmptyOp_some hr] at h
  obtain rfl := Host.Outcome.next.inj h
  exact port_setLat hp hc _

theorem port_exec_rbIsFull {r : Ring} (hr : (s.port p.toNat).rb = some r) (h : exec (.rbIsFull p) s = .next u) :
    u.port p.toNat = { s.port p.toNat with lat := .bool (r.isFull s.par.rbCap) } := by
  rw [exec_rbIsFull hp, rbIsFullOp_some hr] at h
  obtain rfl := Host.Outcome.next.inj h
  exact port_setLat hp hc _

theorem port_exec_pushStmts {cmd i : Instr} {rest body : List Stmt} (ht : (s.port p.toNat).tpc = .inCmd cmd rest) :
    (pushStmts i p.toNat body s).port p.toNat = { s.port p.toNat with tpc := .inCmd cmd (body ++ rest) } := by
  rw [pushStmts_task hc ht, upd_port_same hp]

/-- KICK on a written port leaves it written (R256). -/
theorem samePlace_exec_kick (hw : Written s.par.rbCap (s.port p.toNat)) (h : exec (.kick p) s = .next u) :
    SamePlace s.par.rbCap (s.port p.toNat) (u.port p.toNat) := by
  obtain rfl := Host.Outcome.next.inj ((exec_kick hp).symm.trans h)
  obtain ⟨m, hm⟩ := hw.mc
  obtain ⟨b, hb⟩ := hw.tx
  obtain ⟨r, hr, hwf⟩ := hw.ring
  cases b with
  | true =>
    rw [kickOp_active hb, Flow.pure_toLat, port_setLat hp hc]
    exact hw.dataOk.samePlace rfl rfl rfl rfl rfl
  | false =>
    rw [kickOp_inactive hp hb hm]
    generalize hq : ({ s.port p.toNat with mc := some (m ||| s.par.mcRts), txActive := some true } : Port) = q
    generalize hs1 : s.upd p.toNat q [mcwEvent s.par (s.port p.toNat).cfg (m ||| s.par.mcRts)] = s1
    have hp1 : p.toNat < s1.nports := by rwa [← hs1, upd_nports]
    have hport : s1.port p.toNat = q := by rw [← hs1, upd_port_same hp]
    have hpar : s1.par = s.par := by rw [← hs1, upd_par]
    have hwq : Written s.par.rbCap q := by
      subst hq
      exact ⟨⟨_, rfl⟩, ⟨_, rfl⟩, r, hr, hwf⟩
    obtain ⟨q', es, htx, hq'⟩ := txPhaseOp_leaves (s := s1) (r := r) (m := m ||| s.par.mcRts) hp1
      (by rw [hport, ← hq]; exact hr) (by rwa [hpar]) (by rw [hport, ← hq])
    rw [htx, Flow.pure_andThen, Flow.pure_toLat,
      port_setLat (by rwa [upd_nports]) (by rw [upd_cpu, takeByte_cpu, ← hs1]; exact hc), upd_port_same (by exact hp1)]
    rw [hpar, hport] at hq'
    have hkeep := hq'.rest
    have hw' := hq'.written hwq
    refine hw.samePlace ⟨hw'.mc, hw'.tx, hw'.ring⟩ ?_ ?_
    · rw [hkeep, ← hq]
    · rw [hkeep, ← hq]

end

end Sys2Proof.Machine
end

section
/-! PROOFS. A micro-operation of a command's pseudocode keeps the invariant of its TASK's port (R48). -/

namespace Sys2Proof.Machine

open Sys2Proof

theorem aloneAt_micro {l : Life} {i : Instr} (h : aloneAt l i = true) :
    0x0D < i.op.toNat ∧ (∀ q, i ≠ .isrEntry q) ∧ (i.readsBottom = true → l = .ready) := by
  cases i with
  | assertRts | negateRts | assertDtr | negateDtr | kick =>
    exact ⟨by simp [Instr.op], by simp, fun _ => beq_iff_eq.mp h⟩
  | channelReset | getReg | ctl | registerVector | wait | setData =>
    exact ⟨by simp [Instr.op], by simp, fun hr => nomatch hr⟩
  | _ => cases h

/-- A micro-operation of a command's pseudocode is on its TASK's port, and one that reads a field that may be ⊥ on a READY
port. -/
theorem OpAt.micro {p : Nat} {l : Life} {m : Bool} {i : Instr} {rest : List Stmt} (h : OpAt p l m i rest) :
    i.port.toNat = p ∧ 0x0D < i.op.toNat ∧ (∀ q, i ≠ .isrEntry q) ∧ (i.readsBottom = true → l = .ready) := by
  cases h with
  | alone hi ha _ => exact ⟨hi, aloneAt_micro ha⟩
  | rbIsEmpty hq hl | rbIsFull hq hl => exact ⟨hq, by simp [Instr.op], by simp, fun _ => hl⟩
  | alloc hq | putStatus hq | readStatus hq | getData hq | portInitializer hq | mcw hq =>
    exact ⟨hq, by simp [Instr.op], by simp, fun hr => nomatch hr⟩

section
variable {s u : State} {p : Byte} {i : Instr} (hp : p.toNat < s.nports) (hc : s.cpu = .task)
  (hd : DataOk s.par.rbCap (s.port p.toNat)) (h : exec i s = .next u)
include hp hd h

theorem samePlace_exec_line {mask : Byte} {f : Byte → Byte} (hline : IsLine s.par p i mask f)
    (hl : (s.port p.toNat).life = .ready) : SamePlace s.par.rbCap (s.port p.toNat) (u.port p.toNat) := by
  have hw := hd.written hl
  obtain ⟨m, hm⟩ := hw.mc
  obtain ⟨-, -, hport, -⟩ := exec_line_next hline hp hm h
  rw [hport]
  exact hw.samePlace ⟨⟨_, rfl⟩, hw.tx, hw.ring⟩ rfl rfl

include hc

/-- A micro-operation that stands alone, CHANNEL_RESET apart. -/
theorem samePlace_exec_alone (hi : i.port = p) (ha : aloneAt (s.port p.toNat).life i = true)
    (hreset : i ≠ .channelReset p) : SamePlace s.par.rbCap (s.port p.toNat) (u.port p.toNat) := by
  cases i with
  | channelReset q => exact absurd (congrArg _ hi) hreset
  | getReg q tag =>
    obtain rfl : q = p := hi
    cases tag with
    | selStatus =>
      rw [port_exec_getReg hp hc rfl h]
      exact hd.samePlace rfl rfl rfl rfl rfl
    | selPending | selMc | act => cases ha
  | ctl q a tag =>
    obtain rfl : q = p := hi
    cases tag with
    | act k =>
      rw [exec_ctl hp, ctlOp_eq] at h
      obtain rfl := Host.Outcome.next.inj h
      rw [upd_port_same hp]
      exact hd.samePlace rfl rfl rfl rfl rfl
    | selStatus | selPending | selMc => cases ha
  | assertRts q =>
    obtain rfl : q = p := hi
    exact samePlace_exec_line hp hd h .assertRts (beq_iff_eq.mp ha)
  | negateRts q =>
    obtain rfl : q = p := hi
    exact samePlace_exec_line hp hd h .negateRts (beq_iff_eq.mp ha)
  | assertDtr q =>
    obtain rfl : q = p := hi
    exact samePlace_exec_line hp hd h .assertDtr (beq_iff_eq.mp ha)
  | negateDtr q =>
    obtain rfl : q = p := hi
    exact samePlace_exec_line hp hd h .negateDtr (beq_iff_eq.mp ha)
  | kick q =>
    obtain rfl : q = p := hi
    exact samePlace_exec_kick hp hc (hd.written (beq_iff_eq.mp ha)) h
  | registerVector | wait | setData =>
    obtain ⟨-, rfl⟩ := onPort_next h
    exact hd.samePlace rfl rfl rfl rfl rfl
  | _ => cases ha

/-- The record of port p after a micro-operation of its TASK's pseudocode. -/
theorem portInv_exec_op {cmd : Instr} {rest : List Stmt}
    (hat : OpAt p.toNat (s.port p.toNat).life (s.port p.toNat).mc.isSome i rest)
    (ht : (s.port p.toNat).tpc = .inCmd cmd rest) (hcmd : cmd.port = p) (hhost : cmd.op.toNat ≤ 0x0D) :
    PortInv s.par.rbCap p.toNat (u.port p.toNat) := by
  have hcmd' : cmd.port.toNat = p.toNat := congrArg _ hcmd
  cases hat with
  | @alloc q rest hq hl hpos =>
    obtain rfl : q = p := BitVec.eq_of_toNat_eq hq
    rw [port_exec_alloc hp hc h]
    cases nextAlloc s with
    | true => exact ⟨⟨hd.ring, by simp⟩, by simp [taskOk, ht, hcmd, hhost, hpos]⟩
    | false => exact ⟨⟨hd.ring, by simp⟩, by simp [taskOk, ht, hcmd, hhost]⟩
  | @rbIsEmpty q rest hq hl hpos =>
    obtain rfl : q = p := BitVec.eq_of_toNat_eq hq
    obtain ⟨r, hr, -⟩ := (hd.written hl).ring
    rw [port_exec_rbIsEmpty hp hc hr h]
    rw [hl, hd.mc_isSome hl] at hpos
    exact ⟨hd.congr rfl rfl rfl rfl, by simp [taskOk, ht, hcmd, hhost, hl, hpos, MicroResult.toBool]⟩
  | @rbIsFull q k hq hl =>
    obtain rfl : q = p := BitVec.eq_of_toNat_eq hq
    obtain ⟨r, hr, -⟩ := (hd.written hl).ring
    rw [port_exec_rbIsFull hp hc hr h]
    refine ⟨hd.congr rfl rfl rfl rfl, ?_⟩
    cases hfull : r.isFull s.par.rbCap with
    | true => simp [taskOk, ht, hcmd, hhost, hl]
    | false => simp [taskOk, ht, hcmd, hhost, hl, hasRoom, hr, hfull]
  | @putStatus q b rest hq hl hpos =>
    obtain rfl : q = p := BitVec.eq_of_toNat_eq hq
    rw [port_exec_getReg hp hc rfl h]
    rw [hl, hd.mc_isSome hl] at hpos
    exact ⟨hd.congr rfl rfl rfl rfl, by simp [taskOk, ht, hcmd, hhost, hl, hpos, MicroResult.toByte]⟩
  | @readStatus q hq hl =>
    obtain rfl : q = p := BitVec.eq_of_toNat_eq hq
    rw [port_exec_getReg hp hc rfl h]
    exact ⟨hd.congr rfl rfl rfl rfl, by simp [taskOk, ht, hcmd, hhost, hl, MicroResult.toByte]⟩
  | @getData q hq hl =>
    obtain rfl : q = p := BitVec.eq_of_toNat_eq hq
    rw [port_exec_getData hp hc h]
    exact ⟨hd.congr rfl rfl rfl rfl, by simp [taskOk, ht, hcmd, hhost, hl, MicroResult.toByte]⟩
  | @portInitializer q _ hq hl hpos =>
    obtain rfl : q = p := BitVec.eq_of_toNat_eq hq
    rw [exec_portInitializer hp] at h
    obtain rfl := Host.Outcome.next.inj h
    rw [port_exec_pushStmts hp hc ht]
    refine ⟨hd.congr rfl rfl rfl rfl, taskOk_of_posOk rfl hcmd' hhost ?_⟩
    rw [hl] at hpos ⊢
    exact posOk_initializerBody _ hpos
  | @mcw q v _ hq hl hpos =>
    obtain rfl : q = p := BitVec.eq_of_toNat_eq hq
    rw [exec_mcw hp, mcwOp_eq] at h
    obtain rfl := Host.Outcome.next.inj h
    rw [upd_port_same hp]
    refine ⟨⟨hd.ring, by simp [hl]⟩, taskOk_of_posOk ht hcmd' hhost ?_⟩
    rw [hl] at hpos ⊢
    exact hpos
  | alone hi ha hpos =>
    have hi' : i.port = p := BitVec.eq_of_toNat_eq hi
    by_cases hreset : i = .channelReset p
    · subst hreset
      rw [exec_channelReset hp] at h
      obtain rfl := Host.Outcome.next.inj h
      rw [port_exec_pushStmts hp hc ht]
      refine ⟨hd.congr rfl rfl rfl rfl, taskOk_of_posOk rfl hcmd' hhost ?_⟩
      have hl : (s.port p.toNat).life = .initializing := beq_iff_eq.mp ha
      rw [hl] at hpos ⊢
      exact posOk_channelResetBody _ hpos
    · exact (samePlace_exec_alone hp hc hd h hi' ha hreset).portInv ht hcmd' hhost hpos

theorem lands_op {cmd : Instr} {rest : List Stmt} (hf : s.fault = none)
    (hat : OpAt p.toNat (s.port p.toNat).life (s.port p.toNat).mc.isSome i rest)
    (ht : (s.port p.toNat).tpc = .inCmd cmd rest) (hcmd : cmd.port = p) (hhost : cmd.op.toNat ≤ 0x0D) :
    Lands s.par.rbCap p.toNat u := by
  obtain ⟨hi, hmicro, hentry, hready⟩ := hat.micro
  refine ⟨?_, portInv_exec_op hp hc hd h hat ht hcmd hhost⟩
  exact (fault_exec_micro hmicro hentry (fun hr => hi ▸ hd.written (hready hr)) h).trans hf

end

end Sys2Proof.Machine
end

section
/-! PROOFS. A statement of a TASK keeps the invariant of its port, or it raises and leaves the record (R48, R300). -/

namespace Sys2Proof.Machine

open Sys2Proof

theorem toBool_eq_some {l : MicroResult} {b : Bool} (h : l.toBool = some b) : l = .bool b := by
  cases l <;> cases h
  rfl

theorem toByte_eq_some {l : MicroResult} {v : Byte} (h : l.toByte = some v) : l = .byte v := by
  cases l <;> cases h
  rfl

section
variable {cap p : Nat} {q : Port} (hd : DataOk cap q)
include hd

theorem portInv_moved {cmd : Instr} {pos : List Stmt} (hcmd : cmd.port.toNat = p) (hhost : cmd.op.toNat ≤ 0x0D)
    (hpos : posOk p q.life q.mc.isSome pos = true) : PortInv cap p { q with tpc := .inCmd cmd pos } :=
  ⟨hd.congr rfl rfl rfl rfl, taskOk_of_posOk rfl hcmd hhost hpos⟩

theorem portInv_here {cmd : Instr} {pos : List Stmt} (ht : q.tpc = .inCmd cmd pos) (hcmd : cmd.port.toNat = p)
    (hhost : cmd.op.toNat ≤ 0x0D) (hpos : posOk p q.life q.mc.isSome pos = true) : PortInv cap p q :=
  ⟨hd, taskOk_of_posOk ht hcmd hhost hpos⟩

theorem posOk_of_ready {pos : List Stmt} (hl : q.life = .ready) (hpos : posOk p .ready true pos = true) :
    posOk p q.life q.mc.isSome pos = true := by
  rwa [hl, hd.mc_isSome hl]

theorem portInv_returned (hl : q.life ≠ .initializing) (r : Res) :
    PortInv cap p { q with res := some r, tpc := .idle } :=
  ⟨hd.congr rfl rfl rfl rfl, taskOk_of_idle rfl hl⟩

end

section
variable {s u : State} {p : Byte} {q : Port} {es : List Event} {e : Env} {cmd : Instr} {rest : List Stmt}

/-- A statement that leads from a view to a view lands where the port's record there meets the invariant. -/
theorem lands_of_view {cap : Nat} {x : Host.Outcome State Fault Refusal} {q' : Port} {es' : List Event} {e' : Env}
    (hp : p.toNat < s.nports) (hf : s.fault = none) (hx : x = .next (s.view p.toNat q' es' e')) (h : x = .next u)
    (hq : PortInv cap p.toNat q') : Lands cap p.toNat u := by
  obtain rfl := Host.Outcome.next.inj (hx.symm.trans h)
  exact ⟨hf, by rwa [view_port hp]⟩

theorem taskStmt_allocTest (hp : p.toNat < s.nports) (b : Bool) (hl : q.lat = .bool b) :
    taskStmt p.toNat cmd .allocTest rest (s.view p.toNat q es e)
      = .next (if b then s.view p.toNat q es e
          else s.view p.toNat { q with res := some .errNomem, tpc := .idle } (es ++ [.ret p.toNat cmd.op .errNomem]) e) := by
  cases b <;> simp only [taskStmt, view_port hp, hl, MicroResult.toBool, view_returnOp hp] <;> rfl

theorem taskStmt_baud {d : BitVec 16} (hp : p.toNat < s.nports)
    (hd : s.par.baudDiv q.cfg.clockHz q.cfg.baud = some d) :
    taskStmt p.toNat cmd .baud rest (s.view p.toNat q es e)
      = .next (s.view p.toNat { q with tpc := .inCmd cmd (brgBody p d ++ rest) } es e) := by
  simp only [taskStmt, view_par, view_port hp, hd, view_setTpc hp, BitVec.ofNat_toNat, BitVec.setWidth_eq]

theorem taskStmt_initReady (hp : p.toNat < s.nports) :
    taskStmt p.toNat cmd .initReady rest (s.view p.toNat q es e)
      = .next (s.view p.toNat
          { q with rb := some (.empty s.par.rbCap), txActive := some false, life := .ready } es e) := by
  simp only [taskStmt, exec, execRbInit, BitVec.ofNat_toNat, BitVec.setWidth_eq, onPort, view_nports, hp, if_true,
    view_setRb hp, view_setTxActive hp, view_setLife hp, view_par]

/-- The start, from the position after it. -/
theorem lands_taskStmt_start (hp : p.toNat < s.nports) (hf : s.fault = none) (hd : DataOk s.par.rbCap q)
    (htask : taskOk s.par.rbCap p.toNat { q with tpc := .inCmd cmd (.start :: rest) } = true)
    (h : taskStmt p.toNat cmd .start rest (s.view p.toNat q es e) = .next u) :
    LandsOrRaises s.par.rbCap p.toNat (s.view p.toNat q es e) u := by
  simp only [taskOk, Bool.and_eq_true, beq_iff_eq, decide_eq_true_eq, bne_iff_ne] at htask
  obtain ⟨⟨hcmd, hhost⟩, hl, -⟩ := htask
  obtain rfl : cmd.port = p := BitVec.eq_of_toNat_eq hcmd
  refine lands_start (by rwa [view_nports]) hf ?_ hhost ?_ h
  · rw [view_port hp]
    exact hd.congr rfl rfl rfl rfl
  · rwa [view_port hp]

theorem lands_taskStmt_op {i : Instr} (hp : p.toNat < s.nports) (hf : s.fault = none) (hc : s.cpu = .task)
    (hd : DataOk s.par.rbCap q)
    (htask : taskOk s.par.rbCap p.toNat { q with tpc := .inCmd cmd (.op i :: rest) } = true)
    (ht : q.tpc = .inCmd cmd rest)
    (h : taskStmt p.toNat cmd (.op i) rest (s.view p.toNat q es e) = .next u) :
    Lands s.par.rbCap p.toNat u := by
  simp only [taskOk, Bool.and_eq_true, beq_iff_eq, decide_eq_true_eq] at htask
  obtain ⟨⟨hcmd, hhost⟩, hpos⟩ := htask
  have hat := opAt_of_posOk hpos
  rw [← view_port (q := q) (es := es) (e := e) hp] at hd hat ht
  exact lands_op (s := s.view p.toNat q es e) (by rwa [view_nports]) hc hd h hf hat ht (BitVec.eq_of_toNat_eq hcmd) hhost

/-- Step 6, with a divisor and without (R195, R306). -/
theorem lands_taskStmt_baud (hp : p.toNat < s.nports) (hf : s.fault = none) (hd : DataOk s.par.rbCap q)
    (htask : taskOk s.par.rbCap p.toNat { q with tpc := .inCmd cmd (.baud :: rest) } = true)
    (h : taskStmt p.toNat cmd .baud rest (s.view p.toNat q es e) = .next u) :
    LandsOrRaises s.par.rbCap p.toNat (s.view p.toNat q es e) u := by
  simp only [taskOk, posOk, Bool.and_eq_true, beq_iff_eq, decide_eq_true_eq] at htask
  obtain ⟨⟨hcmd, hhost⟩, hl, hpos⟩ := htask
  cases hdiv : s.par.baudDiv q.cfg.clockHz q.cfg.baud with
  | some d =>
    refine .inl (lands_of_view hp hf (taskStmt_baud hp hdiv) h (portInv_moved hd hcmd hhost ?_))
    rw [hl] at hpos ⊢
    exact posOk_brgBody d hpos
  | none =>
    rw [taskStmt_baud_none (by rwa [view_port hp])] at h
    obtain rfl := Host.Outcome.next.inj h
    exact .inr ⟨Option.some_ne_none _, rfl⟩

/-- Every other statement is a test, a loop head, an atomic group or a return, and raises nothing. -/
theorem lands_taskStmt {st : Stmt} (hp : p.toNat < s.nports) (hf : s.fault = none) (hc : s.cpu = .task)
    (hcap : 1 ≤ s.par.rbCap) (hd : DataOk s.par.rbCap q)
    (htask : taskOk s.par.rbCap p.toNat { q with tpc := .inCmd cmd (st :: rest) } = true)
    (ht : q.tpc = .inCmd cmd rest) (h : taskStmt p.toNat cmd st rest (s.view p.toNat q es e) = .next u) :
    LandsOrRaises s.par.rbCap p.toNat (s.view p.toNat q es e) u := by
  cases st with
  | start => exact lands_taskStmt_start hp hf hd htask h
  | op i => exact .inl (lands_taskStmt_op hp hf hc hd htask ht h)
  | baud => exact lands_taskStmt_baud hp hf hd htask h
  | allocTest =>
    simp only [taskOk, Bool.and_eq_true, Bool.or_eq_true, beq_iff_eq, decide_eq_true_eq] at htask
    obtain ⟨⟨hcmd, hhost⟩, ⟨⟨hlat, hl⟩, hpos⟩ | ⟨hlat, hl⟩⟩ := htask
    · exact .inl (lands_of_view hp hf (taskStmt_allocTest hp true hlat) h (portInv_here hd ht hcmd hhost (hl ▸ hpos)))
    · exact .inl (lands_of_view hp hf (taskStmt_allocTest hp false hlat) h (portInv_returned hd (by rw [hl]; decide) _))
  | initReady =>
    simp only [taskOk, posOk, Bool.and_eq_true, beq_iff_eq, decide_eq_true_eq] at htask
    obtain ⟨⟨hcmd, hhost⟩, ⟨hl, hm⟩, hpos⟩ := htask
    refine .inl (lands_of_view hp hf (taskStmt_initReady hp) h ?_)
    have hw : Written s.par.rbCap
        { q with rb := some (.empty s.par.rbCap), txActive := some false, life := .ready } :=
      ⟨Option.isSome_iff_exists.mp hm, ⟨_, rfl⟩, _, rfl, Ring.wf_empty hcap⟩
    exact portInv_here hw.dataOk ht hcmd hhost (posOk_of_ready hw.dataOk rfl hpos)
  | ret r =>
    simp only [taskOk, posOk, Bool.and_eq_true, beq_iff_eq, decide_eq_true_eq] at htask
    obtain ⟨-, hl, -⟩ := htask
    exact .inl (lands_of_view hp hf (taskStmt_ret hp) h (portInv_returned hd (by rw [hl]; decide) _))
  | flushTest =>
    simp only [taskOk, Bool.and_eq_true, beq_iff_eq, decide_eq_true_eq] at htask
    obtain ⟨⟨hcmd, hhost⟩, ⟨hl, hlat⟩, hpos⟩ := htask
    obtain ⟨b, hb⟩ := Option.isSome_iff_exists.mp hlat
    have hrest := posOk_of_ready hd hl hpos
    cases b with
    | true =>
      exact .inl (lands_of_view hp hf (taskStmt_flushTest_empty hp (toBool_eq_some hb)) h
        (portInv_here hd ht hcmd hhost hrest))
    | false =>
      refine .inl (lands_of_view hp hf (taskStmt_flushTest_waits hp (toBool_eq_some hb)) h
        (portInv_moved hd hcmd hhost ?_))
      simp [posOk, aloneAt, Instr.port, hl, hd.mc_isSome hl, hpos]
  | writeByte k =>
    simp only [taskOk, posOk, Bool.and_eq_true, beq_iff_eq, decide_eq_true_eq, List.isEmpty_iff] at htask
    obtain ⟨⟨hcmd, hhost⟩, hl, rfl⟩ := htask
    by_cases hk : k < cmd.payload.length
    · refine .inl (lands_of_view hp hf (taskStmt_writeByte_lt hp hk) h (portInv_moved hd hcmd hhost ?_))
      simp [posOk, hl]
    · refine .inl (lands_of_view hp hf (taskStmt_writeByte_ge hp (Nat.le_of_not_lt hk)) h
        (portInv_moved hd hcmd hhost ?_))
      simp [posOk, aloneAt, Instr.port, hl]
  | fullTest k =>
    simp only [taskOk, Bool.and_eq_true, Bool.or_eq_true, beq_iff_eq, decide_eq_true_eq, List.isEmpty_iff] at htask
    obtain ⟨⟨hcmd, hhost⟩, ⟨hl, hlat | ⟨hlat, hroom⟩⟩, rfl⟩ := htask
    · refine .inl (lands_of_view hp hf (taskStmt_fullTest_full hp hlat) h (portInv_moved hd hcmd hhost ?_))
      simp [posOk, aloneAt, Instr.port, hl]
    · refine .inl (lands_of_view hp hf (taskStmt_fullTest_room hp hlat) h ⟨hd.congr rfl rfl rfl rfl, ?_⟩)
      simpa [taskOk, hcmd, hhost, hl, hasRoom] using hroom
  | kickTest k =>
    simp only [taskOk, posOk, Bool.and_eq_true, beq_iff_eq, decide_eq_true_eq, List.isEmpty_iff] at htask
    obtain ⟨⟨hcmd, hhost⟩, hl, rfl⟩ := htask
    by_cases hlat : q.lat = .busy
    · refine .inl (lands_of_view hp hf (taskStmt_kickTest_busy hp hlat) h (portInv_moved hd hcmd hhost ?_))
      simp [posOk, aloneAt, Instr.port, hl]
    · refine .inl (lands_of_view hp hf (taskStmt_kickTest_kicked hp hlat) h (portInv_moved hd hcmd hhost ?_))
      simp [posOk, hl]
  | enqueue k =>
    simp only [taskOk, Bool.and_eq_true, beq_iff_eq, decide_eq_true_eq, List.isEmpty_iff] at htask
    obtain ⟨⟨hcmd, hhost⟩, ⟨hl, hroom⟩, rfl⟩ := htask
    obtain ⟨hm, htx, r, hr, hwf⟩ := hd.written hl
    have hne : r.count ≠ s.par.rbCap := by simpa [hasRoom, hr, Ring.isFull] using hroom
    have henq := Ring.enq_of_room hne (cmd.payload.getD k 0)
    refine .inl (lands_of_view hp hf (taskStmt_enqueue hp hc hf hr henq) h ⟨?_, ?_⟩)
    · exact Written.dataOk ⟨hm, htx, _, rfl, Ring.enq_wf hwf henq⟩
    · exact taskOk_of_posOk rfl hcmd hhost (by simp [posOk, hl])
  | pollByte k =>
    simp only [taskOk, posOk, Bool.and_eq_true, beq_iff_eq, decide_eq_true_eq, List.isEmpty_iff] at htask
    obtain ⟨⟨hcmd, hhost⟩, hl, rfl⟩ := htask
    by_cases hk : k < cmd.payload.length
    · refine .inl (lands_of_view hp hf (taskStmt_pollByte_lt hp hk) h (portInv_moved hd hcmd hhost ?_))
      simp [polledPut, posOk, hl]
    · exact .inl (lands_of_view hp hf (taskStmt_pollByte_ge hp (Nat.le_of_not_lt hk)) h
        (portInv_returned hd (by rw [hl]; decide) _))
  | putTest b =>
    simp only [taskOk, Bool.and_eq_true, beq_iff_eq, decide_eq_true_eq] at htask
    obtain ⟨⟨hcmd, hhost⟩, ⟨hl, hlat⟩, hpos⟩ := htask
    obtain ⟨v, hv⟩ := Option.isSome_iff_exists.mp hlat
    by_cases htbe : s.par.tbe v = true
    · refine .inl (lands_of_view hp hf (taskStmt_putTest_tbe hp (toByte_eq_some hv) htbe) h
        (portInv_moved hd hcmd hhost ?_))
      simp [posOk, aloneAt, Instr.port, hl, hd.mc_isSome hl, hpos]
    · refine .inl (lands_of_view hp hf (taskStmt_putTest_waits hp (toByte_eq_some hv) htbe) h
        (portInv_moved hd hcmd hhost ?_))
      simp [polledPut, posOk, aloneAt, Instr.port, hl, hd.mc_isSome hl, hpos]
  | readTest =>
    simp only [taskOk, Bool.and_eq_true, beq_iff_eq, decide_eq_true_eq, List.isEmpty_iff] at htask
    obtain ⟨⟨hcmd, hhost⟩, ⟨hl, hlat⟩, rfl⟩ := htask
    obtain ⟨v, hv⟩ := Option.isSome_iff_exists.mp hlat
    by_cases hrca : s.par.rca v = true
    · refine .inl (lands_of_view hp hf (taskStmt_readTest_rca hp (toByte_eq_some hv) hrca) h
        (portInv_moved hd hcmd hhost ?_))
      simp [posOk, hl]
    · exact .inl (lands_of_view hp hf (taskStmt_readTest_none hp (toByte_eq_some hv) hrca) h
        (portInv_returned hd (by rw [hl]; decide) _))
  | retByte =>
    simp only [taskOk, Bool.and_eq_true, beq_iff_eq, decide_eq_true_eq] at htask
    obtain ⟨-, ⟨hl, hlat⟩, -⟩ := htask
    obtain ⟨v, hv⟩ := Option.isSome_iff_exists.mp hlat
    exact .inl (lands_of_view hp hf (taskStmt_retByte hp (toByte_eq_some hv)) h
      (portInv_returned hd (by rw [hl]; decide) _))
  | isrNext | serviceTest => cases h

end

end Sys2Proof.Machine
end

section
/-! PROOFS. A step of the activation keeps the invariant: the records of the serviced ports, and the position of the ISR
micro-PC (R252, R253, R53). -/

namespace Sys2Proof.Machine

open Sys2Proof

/-! ### What the invariant says of a port an activation touches -/

/-- A ring that lost at most the head of its queue has no less room. -/
theorem IsrLeaves.hasRoom {par : Params} {q q' : Port} (h : IsrLeaves par q q') (hw : Written par.rbCap q)
    (hroom : hasRoom par.rbCap q = true) : Machine.hasRoom par.rbCap q' = true := by
  obtain ⟨r, hr, hwf⟩ := hw.ring
  obtain ⟨us, -, hsame | ⟨r₀, r', b, hr₀, hr', hdeq⟩, -⟩ := h
  · simpa only [Machine.hasRoom, hsame] using hroom
  · obtain rfl := Option.some.inj (hr.symm.trans hr₀)
    obtain ⟨hne, -, rfl⟩ := Ring.deq_ok hdeq
    obtain ⟨⟨-, -, -, hle, -⟩, -⟩ := (Ring.wf_iff _ _).mp hwf
    have hlt : r.count - 1 ≠ par.rbCap := by omega
    simpa [Machine.hasRoom, hr', Ring.isFull] using hlt

/-- A TASK's position stays allowed when its port changes in nothing the position speaks of and its ring keeps its room. -/
theorem taskOk_of_same {cap p : Nat} {q q' : Port} (ht : q'.tpc = q.tpc) (hl : q'.life = q.life) (hlat : q'.lat = q.lat)
    (hm : q'.mc.isSome = q.mc.isSome) (hroom : hasRoom cap q = true → hasRoom cap q' = true)
    (h : taskOk cap p q = true) : taskOk cap p q' = true := by
  unfold taskOk at h ⊢
  rw [ht, hl, hlat, hm]
  split at h
  next => exact h
  next cmd pos _ =>
    simp only [Bool.and_eq_true] at h ⊢
    obtain ⟨hcmd, hpos⟩ := h
    refine ⟨hcmd, ?_⟩
    split at hpos
    case h_4 =>
      simp only [Bool.and_eq_true, Bool.or_eq_true] at hpos ⊢
      obtain ⟨⟨hlife, hfull | ⟨hlat', hr⟩⟩, hrest⟩ := hpos
      · exact ⟨⟨hlife, .inl hfull⟩, hrest⟩
      · exact ⟨⟨hlife, .inr ⟨hlat', hroom hr⟩⟩, hrest⟩
    case h_5 =>
      simp only [Bool.and_eq_true] at hpos ⊢
      obtain ⟨⟨hlife, hr⟩, hrest⟩ := hpos
      exact ⟨⟨hlife, hroom hr⟩, hrest⟩
    all_goals exact hpos

theorem IsrLeaves.portInv {par : Params} {p : Nat} {q q' : Port} (h : IsrLeaves par q q') (hl : q.life = .ready)
    (hq : PortInv par.rbCap p q) : PortInv par.rbCap p q' := by
  have hw := hq.data.written hl
  have hroom := h.hasRoom hw
  obtain ⟨us, htx⟩ := h
  have hw' : Written par.rbCap q' := htx.written ⟨hw.mc, hw.tx, hw.ring⟩
  have hrest := htx.rest
  have hm : q'.mc.isSome = q.mc.isSome := (hw.samePlace hw' (by rw [hrest]) (by rw [hrest])).mc
  refine ⟨hw'.dataOk, taskOk_of_same ?_ ?_ ?_ hm hroom hq.task⟩
  all_goals rw [hrest]

theorem IsrKeeps.portInv {s t : State} (h : IsrKeeps s t) {p : Nat} (hq : PortInv s.par.rbCap p (s.port p)) :
    PortInv t.par.rbCap p (t.port p) := by
  rw [h.par]
  obtain hsame | ⟨hs, hleaves⟩ := h.port p
  · rwa [hsame]
  · exact hleaves.portInv (serviced_ready hs) hq

theorem IsrKeeps.nports {s t : State} (h : IsrKeeps s t) : t.nports = s.nports := by
  obtain hsame | ⟨p, q', -, hset, -⟩ := h.ports
  · rw [State.nports, hsame, State.nports]
  · rw [State.nports, hset, List.length_set, State.nports]

/-- An activation services the same ports throughout. -/
theorem IsrKeeps.serviced {s t : State} (h : IsrKeeps s t) : Machine.serviced t = Machine.serviced s := by
  funext p
  obtain hsame | ⟨-, hleaves⟩ := h.port p
  · simp only [Machine.serviced, h.nports, hsame]
  · obtain ⟨hcfg, -, hlife, -⟩ := hleaves.keeps
    simp only [Machine.serviced, h.nports, hcfg, hlife]

/-! ### The positions of the ISR micro-PC -/

theorem stageOk_congr {s t : State} (h : serviced t = serviced s) (l : List Stmt) : stageOk t l = stageOk s l := by
  fun_induction stageOk s l <;> simp_all [stageOk]

theorem serviced_of_ports {s t : State} (h : t.ports = s.ports) : serviced t = serviced s := by
  have hn : t.nports = s.nports := congrArg List.length h
  funext p
  simp only [serviced, hn, port_congr h]

theorem stageOk_of_ports {s t : State} {l : List Stmt} (h : t.ports = s.ports) (hs : stageOk s l = true) :
    stageOk t l = true :=
  (stageOk_congr (serviced_of_ports h) l).trans hs

theorem isrOk_of_idle {s : State} (hc : s.cpu = .task) (hi : s.ipc = none) : isrOk s = true := by
  simp only [isrOk, hc, hi]

theorem isrOk_of_stage {s : State} {k : IsrPc} (hc : s.cpu = .isr) (hi : s.ipc = some k)
    (ha : k.aList.all (serviced s) = true) (hs : stageOk s k.stage = true) : isrOk s = true := by
  simp only [isrOk, hc, hi, ha, Bool.true_and]
  split
  next heq =>
    rw [heq] at hs
    simp [stageOk] at hs
  next => exact hs

/-- At the test of the pending set the latch holds the byte it tests. -/
theorem isrOk_of_test {s : State} {k : IsrPc} {a : Nat} {rest : List Stmt} (hc : s.cpu = .isr) (hi : s.ipc = some k)
    (ha : k.aList.all (serviced s) = true) (hs : k.stage = .serviceTest a :: rest) (hserv : serviced s a = true)
    (hlat : s.isrLat.toByte.isSome = true) (hrest : stageOk s rest = true) : isrOk s = true := by
  simp only [isrOk, hc, hi, ha, hs, hserv, hlat, hrest, Bool.and_self]

theorem stageOk_pendingRead {s : State} {q : Byte} {rest : List Stmt}
    (h : stageOk s (.op (.getReg q .selPending) :: rest) = true) :
    ∃ a rest', rest = .serviceTest a :: rest' ∧ serviced s a = true ∧ stageOk s rest' = true := by
  unfold stageOk at h
  split at h
  case h_2 q' a rest' heq =>
    cases heq
    simp only [Bool.and_eq_true] at h
    obtain ⟨⟨-, ha⟩, hrest⟩ := h
    exact ⟨a, rest', rfl, ha, hrest⟩
  case h_8 => cases h
  all_goals
    rename_i heq
    cases heq

/-- After the read of the pending register its test, after every phase a position of the activation. -/
theorem stageOk_rest {s : State} {i : Instr} {rest : List Stmt} (hi : ∀ q, i ≠ .getReg q .selPending)
    (h : stageOk s (.op i :: rest) = true) : stageOk s rest = true := by
  unfold stageOk at h
  split at h
  case h_1 heq => cases heq
  case h_2 heq =>
    cases heq
    exact absurd rfl (hi _)
  case h_8 => cases h
  all_goals
    rename_i heq
    cases heq
    exact (Bool.and_eq_true_iff.mp h).2

/-- From a position of the activation to a position of it, the list of ports kept. -/
def KeepsStage (s t : State) (k : IsrPc) : Prop :=
  t.cpu = .isr ∧ ∃ k', t.ipc = some k' ∧ k'.aList = k.aList ∧ stageOk s k'.stage = true

theorem KeepsStage.isrOk {s t : State} {k : IsrPc} (h : KeepsStage s t k) (hserv : serviced t = serviced s)
    (ha : k.aList.all (serviced s) = true) : isrOk t = true := by
  obtain ⟨hc, k', hi, hlist, hstage⟩ := h
  refine isrOk_of_stage hc hi ?_ ?_
  · rwa [hserv, hlist]
  · rwa [stageOk_congr hserv]

section
variable {s u : State} {p : Byte} {k : IsrPc} (hc : s.cpu = .isr) (hk : s.ipc = some k)
include hc hk

theorem keepsStage_of_same (hcpu : u.cpu = s.cpu) (hipc : u.ipc = s.ipc) (hstage : stageOk s k.stage = true) :
    KeepsStage s u k :=
  ⟨hcpu.trans hc, k, hipc.trans hk, rfl, hstage⟩

/-- A phase of PROCESS on a serviced port, or PROCESS itself. -/
theorem keepsStage_exec {i : Instr} (hi : RunInIsr p i) (hread : ∀ q, i ≠ .getReg q .selPending)
    (hs : serviced s p.toNat = true) {m : Byte} {r : Ring} (hm : (s.port p.toNat).mc = some m)
    (hr : (s.port p.toNat).rb = some r) (hw : r.wf s.par.rbCap = true) (hstage : stageOk s k.stage = true)
    (h : exec i s = .next u) : KeepsStage s u k := by
  have hp := serviced_lt hs
  cases hi with
  | pendingRead => exact absurd rfl (hread p)
  | process bits =>
    obtain ⟨-, rfl⟩ := onPort_next h
    rw [pushStmts_isr (s := { s with pbits := bits.extractLsb' 0 3 }) hc hk]
    exact ⟨hc, _, rfl, rfl, by simp [stageOk, hs, hstage]⟩
  | rxPhase =>
    obtain rfl := Host.Outcome.next.inj ((exec_rxPhase hp).symm.trans h)
    split
    · cases hrca : s.par.rca (nextByte s) with
      | false =>
        rw [rxTurn_of_not_rca hrca]
        exact keepsStage_of_same hc hk rfl rfl hstage
      | true =>
        rw [rxTurn_of_rca hc hk hrca]
        exact ⟨hc, _, rfl, rfl, by simp [stageOk, hs, hstage]⟩
    · exact keepsStage_of_same hc hk rfl rfl hstage
  | txPhase =>
    obtain ⟨-, rfl⟩ := onPort_next h
    obtain ⟨q', es, htx, -⟩ := txPhaseOp_leaves hp hr hw hm
    rw [htx]
    exact keepsStage_of_same hc hk rfl rfl hstage
  | extPhase =>
    obtain ⟨-, rfl⟩ := onPort_next h
    split
    · exact keepsStage_of_same hc hk rfl rfl hstage
    · exact keepsStage_of_same hc hk rfl rfl hstage
  | eoi =>
    obtain ⟨-, rfl⟩ := onPort_next h
    exact keepsStage_of_same hc hk rfl rfl hstage

end

/-- The read of the pending register leaves its byte for the test after it (R253). -/
theorem isrOk_exec_pendingRead {s u : State} {p : Byte} {k : IsrPc} {a : Nat} {rest : List Stmt} (hc : s.cpu = .isr)
    (hk : s.ipc = some k) (hp : p.toNat < s.nports) (ha : k.aList.all (serviced s) = true)
    (hst : k.stage = .serviceTest a :: rest) (hs : serviced s a = true) (hrest : stageOk s rest = true)
    (hserv : serviced u = serviced s) (h : exec (.getReg p .selPending) s = .next u) : isrOk u = true := by
  rw [exec_getReg hp rfl, setLat_isr (s := busRdReg _ _ s) hc] at h
  obtain rfl := Host.Outcome.next.inj h
  exact isrOk_of_test hc hk (hserv ▸ ha) hst (hserv ▸ hs) rfl ((stageOk_congr hserv rest).trans hrest)

/-- The partner is a serviced port (R33). -/
theorem serviced_partnerB {s : State} {a b : Nat} (h : partnerB a s = some b) : serviced s b = true := by
  have hlt := List.mem_range.mp (List.mem_of_find?_eq_some h)
  have hb := List.find?_some h
  simp only [Bool.and_eq_true] at hb
  obtain ⟨⟨-, hmode⟩, hlife⟩ := hb
  simp only [serviced, decide_eq_true hlt, hmode, hlife, Bool.and_self]

section
variable {s : State} (hn : s.nports ≤ 256)
include hn

theorem toNat_ofNat_of_serviced {a : Nat} (h : serviced s a = true) : (BitVec.ofNat 8 a).toNat = a :=
  Nat.mod_eq_of_lt (Nat.lt_of_lt_of_le (serviced_lt h) hn)

theorem stageOk_pendingLoop {a : Nat} {rest : List Stmt} (h : serviced s a = true) (hrest : stageOk s rest = true) :
    stageOk s ([.op (.getReg (BitVec.ofNat 8 a) .selPending), .serviceTest a] ++ rest) = true := by
  simp [stageOk, toNat_ofNat_of_serviced hn h, h, hrest]

theorem stageOk_processOf {a : Nat} {rest : List Stmt} (bits : BitVec 3) (h : serviced s a = true)
    (hrest : stageOk s rest = true) : stageOk s (processOf a bits ++ rest) = true := by
  unfold processOf
  split
  · exact hrest
  · simp [stageOk, toNat_ofNat_of_serviced hn h, h, hrest]

/-- The test of the pending set, by the partner and the two channel-local sets (R253). -/
theorem keepsStage_serviceTest {k : IsrPc} {a : Nat} {rest : List Stmt} (v : Byte) (hc : s.cpu = .isr)
    (ha : serviced s a = true) (hrest : stageOk s rest = true) : KeepsStage s (serviceTest a k rest v s) k := by
  have hloop := stageOk_pendingLoop hn ha hrest
  by_cases hnone : s.par.chanA v = 0 ∧ ∀ b, partnerB a s = some b → s.par.chanB v = 0
  · rw [serviceTest_done k rest hnone.1 hnone.2]
    exact ⟨hc, _, rfl, rfl, hrest⟩
  · cases hb : partnerB a s with
    | none =>
      rw [serviceTest_none k rest hb fun hA => hnone ⟨hA, fun b hb' => nomatch hb.symm.trans hb'⟩]
      exact ⟨hc, _, rfl, rfl, stageOk_processOf hn _ ha hloop⟩
    | some b =>
      rw [serviceTest_some k rest hb fun h => hnone ⟨h.1, fun _ _ => h.2⟩]
      refine ⟨hc, _, rfl, rfl, ?_⟩
      dsimp only
      rw [List.append_assoc]
      exact stageOk_processOf hn _ ha (stageOk_processOf hn _ (serviced_partnerB hb) hloop)

end

/-! ### The statements of the activation -/

section
variable {s u : State} {k : IsrPc} {st : Stmt} {rest : List Stmt}

theorem fault_isrStmt (hinv : Inv s) (hc : s.cpu = .isr) (hi : s.ipc = some k) (hs : k.stage = st :: rest)
    (h : isrStmt k st rest (takeChoice s) = .next u) : u.fault = s.fault := by
  cases st with
  | op i =>
    obtain ⟨p, hrun, hserv⟩ := isrOk_op hinv.isr hc hi hs
    refine fault_exec_micro (s := { takeChoice s with ipc := some { k with stage := rest } }) ?_ ?_ (fun _ => ?_) h
    · cases hrun <;> simp [Instr.op]
    · cases hrun <;> simp
    · rw [hrun.port_eq]
      exact hinv.written_of_ready (serviced_lt hserv) (serviced_ready hserv)
  | isrNext =>
    simp only [isrStmt] at h
    split at h <;> cases h <;> rfl
  | serviceTest a =>
    simp only [isrStmt] at h
    split at h <;> cases h
    exact serviceTest_fault _ _ _ _ _
  | start | allocTest | baud | initReady | ret | flushTest | writeByte | fullTest | kickTest | enqueue | pollByte | putTest
  | readTest | retByte => cases h

theorem isrOk_isrStmt (hinv : Inv s) (hc : s.cpu = .isr) (hi : s.ipc = some k) (hs : k.stage = st :: rest)
    (h : isrStmt k st rest (takeChoice s) = .next u) : isrOk u = true := by
  have hserv : serviced u = serviced s := (isrKeeps_isrStmt hinv hc hi hs h).serviced
  have hn := nports_le_of_launch_wf hinv.launch
  have hisr := hinv.isr
  simp only [isrOk, hc, hi, hs, Bool.and_eq_true] at hisr
  obtain ⟨ha, hstage⟩ := hisr
  cases st with
  | op i =>
    obtain ⟨p, hrun, hsp⟩ := stageOk_op hstage
    by_cases hread : ∃ q, i = .getReg q .selPending
    · obtain ⟨q, rfl⟩ := hread
      obtain rfl : q = p := hrun.port_eq
      obtain ⟨a, rest', rfl, hsa, hrest⟩ := stageOk_pendingRead hstage
      exact isrOk_exec_pendingRead (s := { takeChoice s with ipc := some { k with stage := .serviceTest a :: rest' } }) hc rfl
        (serviced_lt hsp) ha rfl hsa (stageOk_of_ports (s := s) rfl hrest) hserv h
    · have hread' (q : Byte) (e : i = .getReg q .selPending) : False := hread ⟨q, e⟩
      obtain ⟨⟨m, hm⟩, r, hr, hw⟩ := hinv.serviced_defined hsp
      have hrest := stageOk_rest hread' hstage
      exact (keepsStage_exec (s := { takeChoice s with ipc := some { k with stage := rest } }) hc rfl hrun hread' hsp hm hr hw
        (stageOk_of_ports (s := s) rfl hrest) h).isrOk hserv ha
  | isrNext =>
    cases hnext : k.aList[k.i]? with
    | none =>
      obtain rfl := Host.Outcome.next.inj ((isrStmt_isrNext_none hnext _ _).symm.trans h)
      exact isrOk_of_idle rfl rfl
    | some a =>
      obtain rfl := Host.Outcome.next.inj ((isrStmt_isrNext_some hnext _ _).symm.trans h)
      have hsa := List.all_eq_true.mp ha a (List.mem_of_getElem? hnext)
      exact isrOk_of_stage hc rfl ha (stageOk_pendingLoop (rest := [.isrNext]) hn hsa rfl)
  | serviceTest a =>
    simp only [Bool.and_eq_true] at hstage
    obtain ⟨⟨hsa, hlat⟩, hrest⟩ := hstage
    obtain ⟨v, hv⟩ := Option.isSome_iff_exists.mp hlat
    obtain rfl := Host.Outcome.next.inj ((isrStmt_serviceTest (s := takeChoice s) (toByte_eq_some hv) k a rest).symm.trans h)
    exact (keepsStage_serviceTest (s := takeChoice s) hn v hc hsa (stageOk_of_ports (s := s) rfl hrest)).isrOk hserv ha
  | start | allocTest | baud | initReady | ret | flushTest | writeByte | fullTest | kickTest | enqueue | pollByte | putTest
  | readTest | retByte => cases h

/-- A step of the activation raises nothing and keeps the invariant. -/
theorem inv_isrStmt (hinv : Inv s) (hc : s.cpu = .isr) (hi : s.ipc = some k) (hs : k.stage = st :: rest)
    (h : isrStmt k st rest (takeChoice s) = .next u) : Inv u := by
  have hkeeps := isrKeeps_isrStmt hinv hc hi hs h
  refine inv_of_portInv ?_ (fun p hp => ?_) (isrOk_isrStmt hinv hc hi hs h)
  · rw [hkeeps.launch]
    exact hinv.launch
  · exact hkeeps.portInv (hinv.portInv (hkeeps.nports ▸ hp))

end

end Sys2Proof.Machine
end

section
/-! PROOFS. Every step keeps the invariant (R43, R48, R53, R304): the step of a TASK by its statement on its own port, the step
of the activation by its statement, the entry by the list of serviced ports. -/

namespace Sys2Proof.Machine

open Sys2Proof

section
variable {s t : State}

/-! ### What a step keeps of the invariant's frame -/

theorem nports_of_launch (h : t.launch = s.launch) : t.nports = s.nports := by
  have hlen (u : State) : u.launch.ports.length = u.nports := List.length_map _
  rw [← hlen t, h, hlen s]

theorem Inv.rbCap_pos (h : Inv s) : 1 ≤ s.par.rbCap := by
  obtain ⟨-, hpar, -⟩ := (Launch.wf_iff _).mp h.launch
  exact ((Params.wf_iff _).mp hpar).1

theorem Inv.ipc_none (h : Inv s) (hc : s.cpu = .task) : s.ipc = none := by
  have hisr := h.isr
  unfold isrOk at hisr
  rw [hc] at hisr
  cases hi : s.ipc with
  | none => rfl
  | some k =>
    rw [hi] at hisr
    cases hisr

/-- A state with the same ports and parameters, by its ISR micro-PC. -/
theorem Inv.of_ports (h : Inv s) (hports : t.ports = s.ports) (hpar : t.par = s.par) (hisr : isrOk t = true) : Inv t := by
  refine inv_of_portInv ?_ (fun p hp => ?_) hisr
  · have hl : t.launch = s.launch := by simp only [State.launch, hports, hpar]
    rw [hl]
    exact h.launch
  · rw [port_congr hports, hpar]
    exact h.portInv (by rwa [State.nports, ← hports])

theorem isrOk_of_same (hs : isrOk s = true) (hports : t.ports = s.ports) (hcpu : t.cpu = s.cpu) (hipc : t.ipc = s.ipc)
    (hlat : t.isrLat = s.isrLat) : isrOk t = true := by
  have hserv := serviced_of_ports hports
  simpa only [isrOk, hcpu, hipc, hlat, hserv, stageOk_congr hserv] using hs

/-- What a step of TASK(p) has to show: it leaves the rest of the block (R333). -/
theorem Inv.of_taskStep {p : Nat} (h : Inv s) (hc : s.cpu = .task) (hn : nextChoice s = .task p)
    (hstep : step s = .next t) (hq : PortInv s.par.rbCap p (t.port p)) : Inv t := by
  obtain ⟨hcpu, hipc, -, hothers⟩ := taskTouchesOnlyItsPort s t p h hc hn hstep
  have hlaunch := (grows_step hstep).launch
  have hpar : t.par = s.par := congrArg Launch.par hlaunch
  refine inv_of_portInv (hlaunch ▸ h.launch) (fun r hr => ?_) (isrOk_of_idle (hcpu.trans hc) (hipc.trans (h.ipc_none hc)))
  rw [hpar]
  by_cases hrp : r = p
  · exact hrp ▸ hq
  · rw [hothers r hrp]
    exact h.portInv (nports_of_launch hlaunch ▸ hr)

/-! ### The step of a TASK -/

/-- The decode step puts a host command at its start, on a port that is not being initialized. -/
theorem portInv_issue {p : Nat} {c : Command} (h : Inv s) (hp : p < s.nports) (ht : (s.port p).tpc = .idle)
    (hi : issue p c (s.taskStart p) = .next t) : PortInv s.par.rbCap p (t.port p) := by
  have hq := h.portInv hp
  obtain ⟨f, op, rfl⟩ | ⟨i, hw, hd, hport, -, rfl⟩ := issue_next hi
  · exact hq
  · rw [upd_port_same (by exact hp)]
    refine ⟨hq.data.congr rfl rfl rfl rfl, ?_⟩
    have hhost : i.op.toNat ≤ 0x0D := by
      rw [op_of_decode hd]
      have := hostWordFault_eq_none hw
      omega
    have hl : (s.port p).life ≠ .initializing := by simpa [taskOk, ht] using hq.task
    simp [taskOk, hport, hhost, hl]

/-- A statement of TASK(p) keeps the invariant of port p; one that raises puts the record back as it was (R300). -/
theorem portInv_taskStmt {p : Nat} {cmd : Instr} {st : Stmt} {rest : List Stmt} (h : Inv s) (hf : s.fault = none)
    (hc : s.cpu = .task) (hp : p < s.nports) (ht : (s.port p).tpc = .inCmd cmd (st :: rest)) (hnt : t.nports = s.nports)
    (hx : holdPc p (takeChoice s)
      (taskStmt p cmd st rest ((s.taskStart p).upd p { s.port p with tpc := .inCmd cmd rest } [])) = .next t) :
    PortInv s.par.rbCap p (t.port p) := by
  have hq := h.portInv hp
  have hsame : s.port p = { s.port p with tpc := .inCmd cmd (st :: rest) } := by rw [← ht]
  obtain ⟨b, rfl⟩ : ∃ b : Byte, b.toNat = p :=
    ⟨.ofNat 8 p, Nat.mod_eq_of_lt (Nat.lt_of_lt_of_le hp (nports_le_of_launch_wf h.launch))⟩
  obtain ⟨u, hu, hres⟩ := holdPc_next hx
  obtain hland | ⟨hraise, hport⟩ := lands_taskStmt (q := { s.port b.toNat with tpc := .inCmd cmd rest }) hp hf hc h.rbCap_pos
    (hq.data.congr rfl rfl rfl rfl) (hsame ▸ hq.task) rfl hu
  · obtain ⟨-, rfl⟩ | ⟨hn, -⟩ := hres
    · exact hland.port
    · exact absurd hland.fault hn
  · obtain ⟨hn, -⟩ | ⟨-, rfl⟩ := hres
    · exact absurd hn hraise
    · have hnu : (u.upd b.toNat { u.port b.toNat with tpc := (s.port b.toNat).tpc } []).nports = s.nports := hnt
      rw [upd_nports] at hnu
      have hback : PortInv s.par.rbCap b.toNat
          ((u.upd b.toNat { u.port b.toNat with tpc := (s.port b.toNat).tpc } []).port b.toNat) := by
        rwa [upd_port_same (by rwa [hnu]), hport, view_port hp]
      exact hback

end

/-- Every port of A_list is a serviced one (R252). -/
theorem aListOf_serviced (v : Vec) (s : State) : (aListOf v s).all (serviced s) = true := by
  refine List.all_eq_true.mpr fun a ha => ?_
  obtain ⟨hlt, ha⟩ := List.mem_filter.mp ha
  simp only [Bool.and_eq_true] at ha
  obtain ⟨⟨-, hmode⟩, hlife⟩ := ha
  simp only [serviced, decide_eq_true (List.mem_range.mp hlt), hmode, hlife, Bool.and_self]

/-- Settles O52, by what the step is: a TASK's step is `Inv.of_taskStep` of its port, the activation's `inv_isrStmt`. -/
theorem invariantKept : Obligations.InvariantKept := by
  unfold Obligations.InvariantKept
  intro s t hinv h
  obtain ⟨hf, ⟨-, rfl⟩ | ⟨-, -, he⟩ | ⟨p, c, hn, hc, hp, ht, -, hi⟩ | ⟨p, cmd, -, -, hp, ht, -⟩
    | ⟨p, cmd, st, rest, hn, hc, hp, ht, hx⟩ | ⟨v, -, -, -, rfl⟩ | ⟨c, st, rest, -, hc, hi, hs, hx⟩⟩ := step_cases h
  · exact hinv.of_ports rfl rfl (isrOk_of_same hinv.isr rfl rfl rfl rfl)
  · rw [he]
    exact hinv.of_ports rfl rfl (isrOk_of_same hinv.isr rfl rfl rfl rfl)
  · exact hinv.of_taskStep hc hn h (portInv_issue hinv hp ht hi)
  · have htask := hinv.tasks p hp
    simp [taskOk, ht, posOk] at htask
  · exact hinv.of_taskStep hc hn h (portInv_taskStmt hinv hf hc hp ht (nports_of_launch (grows_step h).launch) hx)
  · exact hinv.of_ports rfl rfl (isrOk_of_stage rfl rfl (aListOf_serviced v s) rfl)
  · obtain ⟨u, hu, hres⟩ := holdIpc_next hx
    obtain ⟨-, rfl⟩ | ⟨hraise, -⟩ := hres
    · exact inv_isrStmt hinv hc hi hs hu
    · exact absurd ((fault_isrStmt hinv hc hi hs hu).trans hf) hraise

end Sys2Proof.Machine
end
